-- ==== Sys2Proof/Word.lean ====
section
/-!
DEFINITION. Word.lean: the two widths the block computes with (spec R10, R60: registers, data and addresses are 32 bits,
memory is byte-addressed; bit 0 is the least significant bit).
-/

namespace Sys2Proof

/-- A 32-bit quantity: register contents, data word or address. Sums wrap modulo 2^32 (R10, R24). -/
abbrev Word := BitVec 32

/-- The smallest addressable unit (R60). -/
abbrev Byte := BitVec 8

end Sys2Proof
end

