-- ==== Sys2Proof/Syntax.lean ====
section
/-!
DEFINITION. Syntax.lean: what the block executes and the closed code sets it exchanges: the slot variants (R140), the bus
requests (R116), the host commands (R118), as ONE inductive Instr with a constructor per row of opcode_table.json, and the
sets of outcome codes (R114), run status (R117), failure reasons (R118). Bits are dealt with in Decode.lean alone.
-/

namespace Sys2Proof

/-- What the external decoder makes of a storage word (R143): an ordinary instruction fetched from `a` with word `w`, or
the Illegal marker for `a`. -/
inductive Body where
  | external (a w : Word)
  | illegal (a : Word)
  deriving DecidableEq, Repr

/-- What a Breakpoint may wrap (R140): a decoded word, or one already wrapped in ProgramExit. -/
inductive Marked where
  | plain (b : Body)
  | exit (b : Body)
  deriving DecidableEq, Repr

/-- The content of a pipeline slot or of a store entry: exactly one of the variants of R140. The type is the closed set of
R113, so no reserved CTL pattern can be held (R122, U10). -/
inductive Slot where
  | empty
  | external (a w : Word)
  | illegal (a : Word)
  | unmapped (a : Word)
  | intJump (a : Word)
  | exit (e : Body)
  | bp (e : Marked)
  deriving DecidableEq, Repr

/-- The direction of a data access (R116). -/
inductive AccessOp where
  | read
  | write
  deriving DecidableEq, Repr

/-- The width of a data access: 1, 2 or 4 bytes (R116). The reserved size code 11 has no constructor. -/
inductive Size where
  | byte
  | half
  | word
  deriving DecidableEq, Repr

/-- One request at the arbiter (R73, R75): direction, width, target address and write data (0 for a read). -/
structure BusReq where
  op : AccessOp
  size : Size
  addr : Word
  wdata : Word
  deriving DecidableEq, Repr

/-- The step outcomes (R114). The reserved codes 0x7 and 0xD to 0xF have no constructor. -/
inductive OutcomeCode where
  | normal
  | memAccessInProgress
  | delaySlot
  | jumpTaken
  | empty
  | breakpoint
  | stop
  | divideByZero
  | unaligned
  | illegal
  | unmappedFetch
  | unmappedData
  deriving DecidableEq, Repr

/-- What `cycle` returns (R117). -/
inductive RunStatus where
  | normal
  | stopped
  | breakpointHit
  deriving DecidableEq, Repr

/-- The reasons a host command fails (R118). -/
inductive FailReason where
  | badRegister
  | badAddress
  | alreadySet
  | notSet
  | empty
  | readOnly
  | badSlot
  | badCommand
  deriving DecidableEq, Repr

/-- The three places an instruction of the table is read from: the slot register, the arbiter's request port and the host
port. Their codes overlap (0x00 is EMPTY and BUS_RB), so the place belongs to the instruction (log 12). -/
inductive Port where
  | slot
  | bus
  | host
  deriving DecidableEq, Repr

/-- The bits of one instruction: the code byte (CTL, REQ or CMD) and its two 32-bit fields (FPC and IW; ADDR and WDATA;
A and B) (R112, R116, R118; log 13). -/
structure RawWord where
  code : BitVec 8
  a : Word
  b : Word
  deriving DecidableEq, Repr

/-- The instructions, one constructor per row of opcode_table.json, in the table's order. -/
inductive Instr where
  /-- EMPTY: the bubble (R152). -/
  | empty
  /-- EXTERNAL: the ordinary instruction `w` fetched from `a` (R156). -/
  | external (a w : Word)
  /-- ILLEGAL: undecodable word at `a` (R150). -/
  | illegal (a : Word)
  /-- UNMAPPED: fetch from the unfetchable address `a` (R151). -/
  | unmapped (a : Word)
  /-- INTJUMP: the synthesized jump to INT_VECTOR, `a` the saved pc (R154). -/
  | intjump (a : Word)
  /-- PROGRAM_EXIT: the exit wrapper (R155). -/
  | programExit (e : Body)
  /-- BREAKPOINT: the breakpoint wrapper (R153). -/
  | breakpoint (e : Marked)
  /-- BUS_RB: one poll of a byte read (R75). -/
  | busRb (addr : Word)
  /-- BUS_RH: one poll of a half-word read (R75). -/
  | busRh (addr : Word)
  /-- BUS_RW: one poll of a word read (R75). -/
  | busRw (addr : Word)
  /-- BUS_WB: one poll of a byte write (R75). -/
  | busWb (addr wdata : Word)
  /-- BUS_WH: one poll of a half-word write (R75). -/
  | busWh (addr wdata : Word)
  /-- BUS_WW: one poll of a word write (R75). -/
  | busWw (addr wdata : Word)
  /-- CYCLE: one clock, `irq` = A[0] the interrupt input (R170). -/
  | cycle (irq : Bool)
  /-- RESET (R290). -/
  | reset
  /-- REG_GET: read register number `n` (R212). -/
  | regGet (n : Word)
  /-- REG_SET: write register number `n`, normal mode (R213). -/
  | regSet (n v : Word)
  /-- DBG_REG_SET: write register number `n`, debug mode (R214). -/
  | dbgRegSet (n v : Word)
  /-- MEM_GET_W (R215). -/
  | memGetW (addr : Word)
  /-- MEM_GET_H (R216). -/
  | memGetH (addr : Word)
  /-- MEM_GET_B (R216). -/
  | memGetB (addr : Word)
  /-- MEM_SET_W (R217). -/
  | memSetW (addr v : Word)
  /-- MEM_SET_H (R218). -/
  | memSetH (addr v : Word)
  /-- MEM_SET_B (R219). -/
  | memSetB (addr v : Word)
  /-- BP_INSERT (R220). -/
  | bpInsert (addr : Word)
  /-- BP_REMOVE (R221). -/
  | bpRemove (addr : Word)
  /-- EXIT_MARK (R222). -/
  | exitMark (addr : Word)
  /-- SLOT_GET: 0 fetch, 1 decode, 2 execute (R223). -/
  | slotGet (sel : Word)
  /-- RETIRED_GET (R224). -/
  | retiredGet
  deriving DecidableEq, Repr

end Sys2Proof
end

