-- ==== Sys2Proof/Config.lean ====
section
/-!
DEFINITION. Config.lean: the configuration of R8 as plain data, what makes one well formed (R9), the example configuration
CFG0 of 95_test_vectors.md, and the free values: what the world outside the block answers where nothing given to the model
says it. A free value is an opaque constant: nothing can be proved of its value.

The spec leaves every parameter OPEN. The configuration is a field of the machine's state that no step changes, so a
statement about every state is a statement about every configuration (log 1).
-/

namespace Sys2Proof

/-- A storage region: inclusive byte bounds and latencies in polls (R61, R62). -/
structure Bank where
  lo : Word
  hi : Word
  rlat : Nat
  wlat : Nat
  deriving DecidableEq, Repr

/-- A device register: its word address and its declared latencies (R63). `Get_d` and `Put_d` are external. -/
structure Device where
  addr : Word
  rlat : Nat
  wlat : Nat
  deriving DecidableEq, Repr

/-- A set of (address, word) pairs: those whose masked bits have the given values. With full masks it is one pair, so a
list of patterns can name any set of pairs (Laws.Decoder.every_decoder_is_a_list_of_patterns). -/
structure WordPattern where
  addrMask : Word
  addrValue : Word
  wordMask : Word
  wordValue : Word
  deriving DecidableEq, Repr

/-- The configuration (R8). `illegalWords` is the external decoder as data: `Decode(a, w)` is the Illegal marker exactly on
the pairs some pattern matches (R143; DEDUCED, log 3). -/
structure Config where
  numGpr : Nat
  pvr : List Word
  localBus : Bank
  peripheralBus : Option Bank
  devices : List Device
  unmappedPenalty : Nat
  unalignedPoll : Nat
  intVector : Word
  excVector : Word
  intLink : BitVec 5
  excLink : BitVec 5
  illegalWords : List WordPattern
  deriving DecidableEq, Repr

/-- An address is a multiple of 4. -/
def wordAligned (a : Word) : Bool := a.toNat % 4 == 0

/-- The region conditions of R9: `lo mod 4 = 0`, `hi mod 4 = 3`, `lo <= hi`, latencies at least 1. -/
def Bank.wf (b : Bank) : Bool :=
  b.lo.toNat % 4 == 0 && b.hi.toNat % 4 == 3 && decide (b.lo.toNat ≤ b.hi.toNat) &&
    decide (1 ≤ b.rlat) && decide (1 ≤ b.wlat)

/-- The device conditions of R9: a word-aligned address and latencies at least 1. -/
def Device.wf (d : Device) : Bool :=
  wordAligned d.addr && decide (1 ≤ d.rlat) && decide (1 ≤ d.wlat)

/-- Two inclusive ranges of byte addresses have no address in common. -/
def rangesApart (r q : Nat × Nat) : Bool := decide (r.2 < q.1) || decide (q.2 < r.1)

/-- The ranges of a list are pairwise disjoint. -/
def pairwiseApart : List (Nat × Nat) → Bool
  | [] => true
  | r :: rs => rs.all (rangesApart r) && pairwiseApart rs

/-- Every range of byte addresses the configuration gives a class: LB, PB when present, one word per device (R64). -/
def Config.ranges (c : Config) : List (Nat × Nat) :=
  (c.localBus.lo.toNat, c.localBus.hi.toNat) ::
    ((c.peripheralBus.toList.map fun b => (b.lo.toNat, b.hi.toNat)) ++
      c.devices.map fun d => (d.addr.toNat, d.addr.toNat + 3))

/-- The well-formedness of R9. A configuration that fails it has no machine: `step` refuses it. -/
def Config.wf (c : Config) : Bool :=
  c.localBus.wf && (c.peripheralBus.toList.all Bank.wf) && c.devices.all Device.wf &&
    pairwiseApart c.ranges && decide (1 ≤ c.unmappedPenalty) &&
    (c.unalignedPoll == 1 || c.unalignedPoll == 2) && c.numGpr == 32 &&
    !(c.intLink == 0) && !(c.excLink == 0) && wordAligned c.intVector && wordAligned c.excVector

/-- CFG0 of 95_test_vectors.md, with that file's fixture decoder: op = w[31:26] in 8..63 is illegal, which is any of
w[31], w[30], w[29] set. DESIGN CHOICE as the configuration of `State.reset` (unsafe for a claim about that one state;
log 2). -/
def Config.cfg0 : Config where
  numGpr := 32
  pvr := [0xAAAA0000, 0x0000BBBB]
  localBus := { lo := 0x00000000, hi := 0x00000FFF, rlat := 2, wlat := 1 }
  peripheralBus := none
  devices := []
  unmappedPenalty := 4
  unalignedPoll := 1
  intVector := 0x00000010
  excVector := 0x00000020
  intLink := 14
  excLink := 17
  illegalWords :=
    [{ addrMask := 0, addrValue := 0, wordMask := 0x80000000, wordValue := 0x80000000 },
     { addrMask := 0, addrValue := 0, wordMask := 0x40000000, wordValue := 0x40000000 },
     { addrMask := 0, addrValue := 0, wordMask := 0x20000000, wordValue := 0x20000000 }]

/-! ## The external execution capability -/

/-- One poll as Exec makes it: the raw request code REQ[2:0], whose size code may be the reserved one (R116, R122). -/
structure RawPoll where
  req : BitVec 3
  addr : Word
  wdata : Word
  deriving DecidableEq, Repr

/-- The value of a write of Exec: one it computed, or the word its completed access delivered, as it is or sign-extended
from the access width (R68: extending the loaded value is Exec's business). -/
inductive ExecVal where
  | const (w : Word)
  | loaded
  | loadedSigned (size : Size)
  deriving DecidableEq, Repr

/-- The special registers a write of Exec may name (R144). -/
inductive SpecialReg where
  | msr
  | ear
  | esr
  | btr
  | fsr
  | pvr (k : Nat)
  deriving DecidableEq, Repr

/-- The architectural writes of one step of Exec: general registers, special registers, and its calls of WritePC (R144). -/
structure ExecWrites (V : Type) where
  gprs : List (BitVec 5 × V)
  specials : List (SpecialReg × V)
  redirects : List V
  deriving DecidableEq, Repr, Inhabited

/-- No write. -/
def noWrites {V : Type} : ExecWrites V := ⟨[], [], []⟩

/-- What a step of Exec has written, and the raw outcome code and info word it returns, when its poll does not answer Ready.
Under the contract a wait and a fault write nothing, and a faulting response's address is the info (R146, R147). -/
structure ExecReturn where
  code : BitVec 4
  info : Word
  writes : ExecWrites Word
  deriving DecidableEq, Repr, Inhabited

/-- What one step of `Exec` does (R144 to R149), as plain data (log 4). `polls` are its calls of BusAccess, at most one under
the contract; `touchesOther` says that it touched state outside R144; `code` is its raw outcome code and `info` the outcome's
info word. When it polls, `writes`, `code` and `info` are what it does on Ready; `onBusy`, `onUnaligned` and `onUnmapped` are
what it does on the other responses (R147, log 6). `isImmPrefix` says that the instruction is an immediate prefix (R148). -/
structure ExecAnswer where
  polls : List RawPoll
  touchesOther : Bool
  writes : ExecWrites ExecVal
  onBusy : ExecReturn
  onUnaligned : ExecReturn
  onUnmapped : ExecReturn
  isImmPrefix : Bool
  code : BitVec 4
  info : Word
  deriving DecidableEq, Repr, Inhabited

/-- What Exec may read in a step (R144), the word its access has delivered once it has, and a count that stands for whatever
state the capability keeps of its own (log 4). Storage is no part of it: Exec reads storage by its poll alone. -/
structure ExecView where
  a : Word
  w : Word
  x : Vector Word 32
  pc : Word
  msr : Word
  ear : Word
  esr : Word
  btr : Word
  fsr : Word
  pvr : List Word
  immInFlight : Bool
  delivered : Option Word
  seq : Nat
  deriving DecidableEq, Repr

/-! ## Free values -/

/-- FREE VALUE (U14, log 4): the answer of the external execution capability where none was given. -/
opaque Config.execAnswer : ExecView → ExecAnswer

/-- FREE VALUE (U11, log 10): the word `Get_d` returns for the device at this address. -/
opaque Config.deviceWord : Word → Nat → Word

/-- FREE VALUE (R226, log 9): the level the host drives on the interrupt input for the next free-running clock. -/
opaque Config.irqLevel : Nat → Bool

end Sys2Proof
end

