-- ==== Sys2Proof/WellFormed.lean ====
section
/-!
DEFINITION. WellFormed.lean: which instructions the spec's rules can form. The decoder of the external instruction set is
applied to word addresses only (R143: `a mod 4 = 0`), so the fetched pc of a decoded variant, wrapped or not, is a multiple
of 4 (R84, R86, R87). An Unmapped marker or an interrupt jump may carry any address (R87, R154), and a host command or a
poll may carry any operand: a bad one has a meaning (a FAIL reply, an Unaligned or Unmapped response).
-/

namespace Sys2Proof

/-- The fetched pc of a decoded word (R141). -/
def Body.pc : Body → Word
  | .external a _ => a
  | .illegal a => a

/-- The decoded word under the exit mark, if any. -/
def Marked.body : Marked → Body
  | .plain b => b
  | .exit b => b

/-- A decoded word stands at a word address (R143). -/
def Body.wellFormed (b : Body) : Bool := wordAligned b.pc

/-- The check of an instruction, one arm per constructor. -/
def Instr.wellFormed : Instr → Bool
  | .empty => true
  | .external a _ => wordAligned a
  | .illegal a => wordAligned a
  | .unmapped _ => true
  | .intjump _ => true
  | .programExit e => e.wellFormed
  | .breakpoint e => e.body.wellFormed
  | .busRb _ => true
  | .busRh _ => true
  | .busRw _ => true
  | .busWb _ _ => true
  | .busWh _ _ => true
  | .busWw _ _ => true
  | .cycle _ => true
  | .reset => true
  | .regGet _ => true
  | .regSet _ _ => true
  | .dbgRegSet _ _ => true
  | .memGetW _ => true
  | .memGetH _ => true
  | .memGetB _ => true
  | .memSetW _ _ => true
  | .memSetH _ _ => true
  | .memSetB _ _ => true
  | .bpInsert _ => true
  | .bpRemove _ => true
  | .exitMark _ => true
  | .slotGet _ => true
  | .retiredGet => true

end Sys2Proof
end

