-- ==== Sys2Proof/Decode.lean ====
section
/-!
DEFINITION. Decode.lean: from bits to instructions and back. Three decoders, one per port (R112, R113; R116; R118), each
total and rejecting by name, then the encoder, and the numeric codes of the outcome, run status and failure sets; the
response codes stand beside the poll (Machine/Bus.lean).
The codes of the three ports overlap, so a decoder is chosen by the port the bits arrive at (log 12).
-/

namespace Sys2Proof

/-- Why bits are rejected: a CTL pattern outside R113, a field that R113 fixes at 0 and is not, a reserved size code
(R116), a bit above REQ[2:0] set in a request byte, a reserved command (R118, R122). -/
inductive DecodeError where
  | reservedControl
  | nonzeroField
  | reservedSize
  | reservedRequestBits
  | reservedCommand
  deriving DecidableEq, Repr

/-- `i` when the field that the variant fixes at 0 is 0 (R112: "0 for every other kind"). -/
def whenZero (field : Word) (i : Instr) : Except DecodeError Instr :=
  if field = 0 then .ok i else .error .nonzeroField

/-- The slot format: CTL, FPC, IW (R112, R113). -/
def decodeSlot (r : RawWord) : Except DecodeError Instr :=
  match r.code.toNat with
  | 0x00 => if r.a = 0 then whenZero r.b .empty else .error .nonzeroField
  | 0x80 => .ok (.external r.a r.b)
  | 0x81 => whenZero r.b (.illegal r.a)
  | 0x82 => whenZero r.b (.unmapped r.a)
  | 0x83 => whenZero r.b (.intjump r.a)
  | 0xA0 => .ok (.programExit (.external r.a r.b))
  | 0xA1 => whenZero r.b (.programExit (.illegal r.a))
  | 0xC0 => .ok (.breakpoint (.plain (.external r.a r.b)))
  | 0xC1 => whenZero r.b (.breakpoint (.plain (.illegal r.a)))
  | 0xE0 => .ok (.breakpoint (.exit (.external r.a r.b)))
  | 0xE1 => whenZero r.b (.breakpoint (.exit (.illegal r.a)))
  | _ => .error .reservedControl

/-- The size code SZ[1:0] (R116); 11 is reserved. -/
def decodeSize (sz : BitVec 2) : Option Size :=
  match sz.toNat with
  | 0 => some .byte
  | 1 => some .half
  | 2 => some .word
  | _ => none

/-- The request code REQ[2:0] = OP, SZ[1:0] (R116). -/
def decodeReq (req : BitVec 3) : Option (AccessOp × Size) :=
  (decodeSize (req.extractLsb' 0 2)).map fun sz =>
    (if req.getLsbD 2 then AccessOp.write else AccessOp.read, sz)

/-- The instruction of a request (the six legal ones of R116). -/
def busInstr (op : AccessOp) (size : Size) (addr wdata : Word) : Instr :=
  match op, size with
  | .read, .byte => .busRb addr
  | .read, .half => .busRh addr
  | .read, .word => .busRw addr
  | .write, .byte => .busWb addr wdata
  | .write, .half => .busWh addr wdata
  | .write, .word => .busWw addr wdata

/-- The request format: REQ[2:0] in the code byte, ADDR, WDATA (R116). A read's WDATA is not read (R75). -/
def decodeBus (r : RawWord) : Except DecodeError Instr :=
  if 8 ≤ r.code.toNat then .error .reservedRequestBits
  else
    match decodeReq (r.code.extractLsb' 0 3) with
    | some (op, size) => .ok (busInstr op size r.a r.b)
    | none => .error .reservedSize

/-- The host command format: CMD, A, B (R118). An operand the command does not take is not read. -/
def decodeHost (r : RawWord) : Except DecodeError Instr :=
  match r.code.toNat with
  | 0x01 => .ok (.cycle (r.a.getLsbD 0))
  | 0x02 => .ok .reset
  | 0x10 => .ok (.regGet r.a)
  | 0x11 => .ok (.regSet r.a r.b)
  | 0x12 => .ok (.dbgRegSet r.a r.b)
  | 0x20 => .ok (.memGetW r.a)
  | 0x21 => .ok (.memGetH r.a)
  | 0x22 => .ok (.memGetB r.a)
  | 0x24 => .ok (.memSetW r.a r.b)
  | 0x25 => .ok (.memSetH r.a r.b)
  | 0x26 => .ok (.memSetB r.a r.b)
  | 0x30 => .ok (.bpInsert r.a)
  | 0x31 => .ok (.bpRemove r.a)
  | 0x32 => .ok (.exitMark r.a)
  | 0x40 => .ok (.slotGet r.a)
  | 0x41 => .ok .retiredGet
  | _ => .error .reservedCommand

/-- The decoder: total on the bits of every port. -/
def decode (p : Port) (r : RawWord) : Except DecodeError Instr :=
  match p with
  | .slot => decodeSlot r
  | .bus => decodeBus r
  | .host => decodeHost r

/-! ## The encoder, from the same tables -/

/-- CTL[0] and the IW field of a decoded word (R112, R113: K bit 0 tells External from Illegal). -/
def Body.kindBit : Body → BitVec 8
  | .external _ _ => 0
  | .illegal _ => 1

/-- The IW field: the word of an External, 0 otherwise (R112). -/
def Body.iw : Body → Word
  | .external _ w => w
  | .illegal _ => 0

/-- CTL.EX of a Breakpoint's content (R113: the patterns with x = 1 wrap a ProgramExit). -/
def Marked.exitBits : Marked → BitVec 8
  | .plain _ => 0
  | .exit _ => 0x20

/-- The request code REQ[2:0] = OP, SZ[1:0] (R116). -/
def encodeReq (op : AccessOp) (size : Size) : BitVec 3 :=
  match op, size with
  | .read, .byte => 0b000
  | .read, .half => 0b001
  | .read, .word => 0b010
  | .write, .byte => 0b100
  | .write, .half => 0b101
  | .write, .word => 0b110

/-- The port an instruction is read from. -/
def Instr.port : Instr → Port
  | .empty | .external _ _ | .illegal _ | .unmapped _ | .intjump _ | .programExit _ | .breakpoint _ => .slot
  | .busRb _ | .busRh _ | .busRw _ | .busWb _ _ | .busWh _ _ | .busWw _ _ => .bus
  | .cycle _ | .reset | .regGet _ | .regSet _ _ | .dbgRegSet _ _ | .memGetW _ | .memGetH _ | .memGetB _
  | .memSetW _ _ | .memSetH _ _ | .memSetB _ _ | .bpInsert _ | .bpRemove _ | .exitMark _ | .slotGet _
  | .retiredGet => .host

/-- The bits of an instruction (R113, R116, R118); a field the instruction does not use is 0. -/
def encode : Instr → RawWord
  | .empty => ⟨0x00, 0, 0⟩
  | .external a w => ⟨0x80, a, w⟩
  | .illegal a => ⟨0x81, a, 0⟩
  | .unmapped a => ⟨0x82, a, 0⟩
  | .intjump a => ⟨0x83, a, 0⟩
  | .programExit e => ⟨0xA0 ||| e.kindBit, e.pc, e.iw⟩
  | .breakpoint e => ⟨0xC0 ||| e.exitBits ||| e.body.kindBit, e.body.pc, e.body.iw⟩
  | .busRb addr => ⟨0b000, addr, 0⟩
  | .busRh addr => ⟨0b001, addr, 0⟩
  | .busRw addr => ⟨0b010, addr, 0⟩
  | .busWb addr wdata => ⟨0b100, addr, wdata⟩
  | .busWh addr wdata => ⟨0b101, addr, wdata⟩
  | .busWw addr wdata => ⟨0b110, addr, wdata⟩
  | .cycle irq => ⟨0x01, if irq then 1 else 0, 0⟩
  | .reset => ⟨0x02, 0, 0⟩
  | .regGet n => ⟨0x10, n, 0⟩
  | .regSet n v => ⟨0x11, n, v⟩
  | .dbgRegSet n v => ⟨0x12, n, v⟩
  | .memGetW addr => ⟨0x20, addr, 0⟩
  | .memGetH addr => ⟨0x21, addr, 0⟩
  | .memGetB addr => ⟨0x22, addr, 0⟩
  | .memSetW addr v => ⟨0x24, addr, v⟩
  | .memSetH addr v => ⟨0x25, addr, v⟩
  | .memSetB addr v => ⟨0x26, addr, v⟩
  | .bpInsert addr => ⟨0x30, addr, 0⟩
  | .bpRemove addr => ⟨0x31, addr, 0⟩
  | .exitMark addr => ⟨0x32, addr, 0⟩
  | .slotGet sel => ⟨0x40, sel, 0⟩
  | .retiredGet => ⟨0x41, 0, 0⟩

/-- The slot variant as the instruction it is when it stands in slot.E. -/
def Slot.toInstr : Slot → Instr
  | .empty => .empty
  | .external a w => .external a w
  | .illegal a => .illegal a
  | .unmapped a => .unmapped a
  | .intJump a => .intjump a
  | .exit e => .programExit e
  | .bp e => .breakpoint e

/-- The slot variant an instruction of the slot format is, none for the other two formats. -/
def Instr.toSlot : Instr → Option Slot
  | .empty => some .empty
  | .external a w => some (.external a w)
  | .illegal a => some (.illegal a)
  | .unmapped a => some (.unmapped a)
  | .intjump a => some (.intJump a)
  | .programExit e => some (.exit e)
  | .breakpoint e => some (.bp e)
  | .busRb _ | .busRh _ | .busRw _ | .busWb _ _ | .busWh _ _ | .busWw _ _ => none
  | .cycle _ | .reset | .regGet _ | .regSet _ _ | .dbgRegSet _ _ | .memGetW _ | .memGetH _ | .memGetB _
  | .memSetW _ _ | .memSetH _ _ | .memSetB _ _ | .bpInsert _ | .bpRemove _ | .exitMark _ | .slotGet _
  | .retiredGet => none

/-- The 72 bits `CTL ++ FPC ++ IW` (R112). -/
def RawWord.bits (r : RawWord) : BitVec 72 := r.code ++ r.a ++ r.b

/-- The 72-bit encoding of a slot's content, as SLOT_GET returns it (R112, R223). -/
def Slot.bits (v : Slot) : BitVec 72 := (encode v.toInstr).bits

/-! ## Numeric codes of the closed sets -/

/-- The 4-bit outcome code (R114). -/
def OutcomeCode.bits : OutcomeCode → BitVec 4
  | .normal => 0x0
  | .memAccessInProgress => 0x1
  | .delaySlot => 0x2
  | .jumpTaken => 0x3
  | .empty => 0x4
  | .breakpoint => 0x5
  | .stop => 0x6
  | .divideByZero => 0x8
  | .unaligned => 0x9
  | .illegal => 0xA
  | .unmappedFetch => 0xB
  | .unmappedData => 0xC

/-- The outcome a 4-bit code names; 0x7 and 0xD to 0xF are reserved (R114). -/
def decodeOutcome (c : BitVec 4) : Option OutcomeCode :=
  match c.toNat with
  | 0x0 => some .normal
  | 0x1 => some .memAccessInProgress
  | 0x2 => some .delaySlot
  | 0x3 => some .jumpTaken
  | 0x4 => some .empty
  | 0x5 => some .breakpoint
  | 0x6 => some .stop
  | 0x8 => some .divideByZero
  | 0x9 => some .unaligned
  | 0xA => some .illegal
  | 0xB => some .unmappedFetch
  | 0xC => some .unmappedData
  | _ => none

/-- The 2-bit run status (R117). -/
def RunStatus.bits : RunStatus → BitVec 2
  | .normal => 0b00
  | .stopped => 0b01
  | .breakpointHit => 0b10

/-- The number of a failure reason (R118). -/
def FailReason.code : FailReason → Nat
  | .badRegister => 1
  | .badAddress => 2
  | .alreadySet => 3
  | .notSet => 4
  | .empty => 5
  | .readOnly => 6
  | .badSlot => 7
  | .badCommand => 8

/-! ## The opcode table's numbering -/

/-- The bits of an instruction as opcode_table.json numbers them: its code byte (CTL, REQ or CMD) is bits 7 to 0 and its
two fields follow; the bits the table gives no number are 0 (log 12, log 13). -/
def rawOfTable (nbits w : Nat) : RawWord :=
  let v := w % 2 ^ nbits
  ⟨BitVec.ofNat 8 v, BitVec.ofNat 32 (v / 2 ^ 8), BitVec.ofNat 32 (v / 2 ^ 40)⟩

/-- The port the table's bits are taken to arrive at. The table's formats overlap: a code the slot decoder knows is read as
a slot, else one the host decoder knows as a command, else one of three bits as a bus request, else as a command (DESIGN
CHOICE, log 12). Fewer bits than a byte can only be a request. -/
def tablePort (nbits w : Nat) : Port :=
  let r := rawOfTable nbits w
  if nbits < 8 then .bus
  else
    match decodeSlot r, decodeHost r with
    | .ok _, _ => .slot
    | .error _, .ok _ => .host
    | .error _, .error _ => if r.code.toNat < 8 then .bus else .host

/-- The instruction the decoder reads from bits numbered as the opcode table numbers them. -/
def decodeTableWord (nbits w : Nat) : Option Instr :=
  match decode (tablePort nbits w) (rawOfTable nbits w) with
  | .ok i => some i
  | .error _ => none

end Sys2Proof
end

