-- ==== Sys2Proof/Machine/State.lean ====
section
/-!
DEFINITION. Machine/State.lean: everything the spec gives the machine (10_state.md), as plain data, with the model's own
fields beside it (what waits at the ports, what the outside was asked and what it answered). INVENTORY.md, heading State,
lists each field with its rule.
-/

namespace Sys2Proof.Machine

/-- Storage bytes (R66): addresses strictly rising, no entry 0, an unlisted address reading 0 ("uninitialized reads as
0"). -/
abbrev Memory := List Host.Cell

/-- What an address resolves to (R64). -/
inductive Region where
  | localBus
  | peripheralBus
  | device (d : Device)
  | none
  deriving DecidableEq, Repr

/-- The device class of a data access (R73). -/
inductive AccessClass where
  | localBus
  | peripheralBus
  | device (d : Device)
  | unmapped
  | unaligned
  deriving DecidableEq, Repr

/-- The Access State (R73): `polls` counts the polls made so far, from 1. `left` is R73's Pending too, of an access whose
instruction faulted out of slot.E over its writes before the access completed (a breach of R146 and R147; log 20). -/
inductive AccessState where
  | idle
  | pending (cls : AccessClass) (polls : Nat) (req : BusReq)
  | left (cls : AccessClass) (polls : Nat) (req : BusReq)
  deriving DecidableEq, Repr

/-- What a poll returns (R115): `ready` carries read data, or 0 for a write; the faults carry the target address. -/
inductive BusResp where
  | ready (v : Word)
  | busy
  | unaligned (a : Word)
  | unmapped (a : Word)
  deriving DecidableEq, Repr

/-- A call the block made on the device at this word address (R81, R97). -/
inductive DevCall where
  | get (addr : Word)
  | put (addr v : Word)
  deriving DecidableEq, Repr

/-- The last reply on the host port: nothing yet, OK with its result (none, a word, the 64-bit counter, a 72-bit slot),
the run status of a clock, or FAIL with its reason (R117, R118). -/
inductive Reply where
  | none
  | ok
  | okWord (v : Word)
  | okCount (c : BitVec 64)
  | okSlot (e : BitVec 72)
  | status (rs : RunStatus)
  | fail (reason : FailReason)
  deriving DecidableEq, Repr

/-- The reasons the machine stops with a fault. There is none: the spec's five synchronous faults are outcomes of a step
that the pipeline handles (R250 to R257), a failing host command gets a FAIL reply (R210), and an address outside every
region has a response of its own (R79, R89). So no step of this machine faults (log 16; safe). -/
inductive Fault where
  deriving DecidableEq, Repr

/-- The reasons there is no step. -/
inductive Refusal where
  /-- `exec`, for an instruction whose meaning is not written; no arm uses it. Safe. -/
  | notModelled (mnemonic : String)
  /-- `step`, when the configuration fails R9: "A model has no machine for such a configuration; it refuses it". Safe. -/
  | illFormedConfiguration
  /-- The step of an External instruction, when the answer of Exec breaks the contract of R144, R145, R147 or R149 where
  the spec gives the breach no effect (R122, U4, U5; DEDUCED for the others, log 5). Safe. -/
  | execProtocolViolation
  /-- A poll of Exec with the reserved size code 11, or a continuation poll whose request differs from the one in flight
  (R77, R122, U7, U8). Safe. -/
  | busProtocolViolation
  deriving DecidableEq, Repr

/-- The machine. -/
structure State where
  /-- The configuration (R8); no step changes it (R39). -/
  cfg : Config
  /-- The general registers x[0..31] (R20). -/
  x : Vector Word 32
  /-- The fetch program counter (R24). -/
  pc : Word
  /-- The next-PC (R24). -/
  npc : Word
  /-- The machine-status register (R28, R29). -/
  msr : Word
  /-- The exception-address register (R31). -/
  ear : Word
  /-- The exception-status register (R31). -/
  esr : Word
  /-- The branch-target register (R31). -/
  btr : Word
  /-- The floating-point-status register (R31). -/
  fsr : Word
  /-- The fetch slot (R33). -/
  slotF : Slot
  /-- The decode slot (R33). -/
  slotD : Slot
  /-- The execute slot (R33). -/
  slotE : Slot
  /-- An immediate prefix has executed and the instruction it prefixes has not (R34). -/
  immInFlight : Bool
  /-- The data Access State (R35, R73). -/
  acc : AccessState
  /-- The retired-instruction counter (R36). -/
  retired : BitVec 64
  /-- Storage (R37, R66). -/
  mem : Memory
  /-- The word addresses whose store entry is wrapped in Breakpoint, strictly rising (R84). -/
  breakMarks : List Nat
  /-- The word addresses whose store entry is wrapped in ProgramExit, strictly rising (R84). -/
  exitMarks : List Nat
  /-- Model: the commands waiting at the host port as raw bits, oldest first (R118, R226; log 8). -/
  port : List RawWord
  /-- Model: the level on the interrupt input in this clock (R38, R258; log 9). -/
  irq : Bool
  /-- Model: answers of Exec given from outside, oldest first (log 4). -/
  execQ : List ExecAnswer
  /-- Model: the calls made on devices so far, newest first (R97; log 10). -/
  devCalls : List DevCall
  /-- Model: the last reply on the host port (log 15). -/
  reply : Reply
  /-- Model: the response of the last poll, if any (log 15). -/
  busResp : Option BusResp
  /-- Model: how many free values have been drawn (log 9). -/
  seq : Nat
  deriving DecidableEq, Repr

/-- The machine at construction, which is the machine right after reset with storage never written (R40, R290, R292), with
CFG0 as its configuration (log 2) and nothing waiting at its ports (log 8). -/
def State.reset : State where
  cfg := Config.cfg0
  x := Vector.replicate 32 0
  pc := 0
  npc := 0
  msr := 0
  ear := 0
  esr := 0
  btr := 0
  fsr := 0
  slotF := .empty
  slotD := .empty
  slotE := .empty
  immInFlight := false
  acc := .idle
  retired := 0
  mem := []
  breakMarks := []
  exitMarks := []
  port := []
  irq := false
  execQ := []
  devCalls := []
  reply := .none
  busResp := none
  seq := 0

end Sys2Proof.Machine
end

