-- ==== Sys2Proof/Machine/Flags.lean ====
section
/-!
DEFINITION. Machine/Flags.lean: the MSR fields (R28, R120), the classification of the fault outcomes and what exception
entry records for each (R114, R121, R250, R255), the fault-enable condition (R252) and the interrupt check (R259). The bit
positions and the cause codes are the spec's decisions D6 and D8 (log 17).
-/

namespace Sys2Proof.Machine

/-- Interrupt-enable (R28). -/
def msrIE : Nat := 1

/-- Carry, the block's only condition flag; the controller never reads or writes it (R28, R30). -/
def msrC : Nat := 2

/-- Break-in-progress; the controller never reads or writes it (R28). -/
def msrBIP : Nat := 3

/-- Fault-enable (R28). -/
def msrEE : Nat := 8

/-- Exception-in-progress; set at exception entry, never read by the controller (R28). -/
def msrEIP : Nat := 9

/-- Bit `i` of a status word. -/
def getFlag (m : Word) (i : Nat) : Bool := m.getLsbD i

/-- A status word with bit `i` written and every other bit kept. -/
def setFlag (m : Word) (i : Nat) (b : Bool) : Word :=
  if b then m ||| BitVec.twoPow 32 i else m &&& ~~~(BitVec.twoPow 32 i)

/-- The fault outcomes: "exactly those with OC[3] = 1" (R114). -/
def isFaultCode (oc : OutcomeCode) : Bool := oc.bits.getLsbD 3

/-- The cause EC of a fault outcome (R121, R250); 0 for an outcome that is no fault. -/
def causeCode : OutcomeCode → BitVec 5
  | .unaligned => 0x01
  | .illegal => 0x02
  | .unmappedFetch => 0x03
  | .unmappedData => 0x04
  | .divideByZero => 0x05
  | .normal | .memAccessInProgress | .delaySlot | .jumpTaken | .empty | .breakpoint | .stop => 0

/-- The faults whose entry writes EAR (R250, R255). -/
def writesEar : OutcomeCode → Bool
  | .unaligned | .unmappedFetch | .unmappedData => true
  | .divideByZero | .illegal => false
  | .normal | .memAccessInProgress | .delaySlot | .jumpTaken | .empty | .breakpoint | .stop => false

/-- `FaultEnabled() = (MSR.EE = 1)` (R252). -/
def faultEnabled (s : State) : Bool := getFlag s.msr msrEE

/-- The interrupt check: MSR.IE set, the input asserted, no immediate prefix in flight, decode not a bubble (R259). -/
def interruptCondition (irq : Bool) (s : State) : Bool :=
  getFlag s.msr msrIE && irq && !s.immInFlight && !(s.slotD == .empty)

end Sys2Proof.Machine
end

