-- ==== Sys2Proof/Machine/Operands.lean ====
section
/-!
DEFINITION. Machine/Operands.lean: the operand forms: register numbers (R119), slot selectors (R223), alignment (R72), the
byte lanes of a word in big-endian order (R67, R68, R69), the value a write of Exec stores, and an Exec poll's request.
-/

namespace Sys2Proof.Machine

/-- What a register number selects (R119, R211). -/
inductive RegSel where
  | gpr (i : BitVec 5)
  | pc
  | msr
  | ear
  | esr
  | fsr
  | btr
  | pvr (k : Nat)
  | invalid
  deriving DecidableEq, Repr

/-- Register selection by number, with `numPvr` registers in the PVR bank (R119, R211). -/
def selectReg (numPvr : Nat) (n : Word) : RegSel :=
  if n.toNat < 32 then .gpr (n.extractLsb' 0 5)
  else if n.toNat = 32 then .pc
  else if n.toNat = 33 then .msr
  else if n.toNat = 34 then .ear
  else if n.toNat = 35 then .esr
  else if n.toNat = 36 then .fsr
  else if n.toNat = 37 then .btr
  else if n.toNat < 38 + numPvr then .pvr (n.toNat - 38)
  else .invalid

/-- The slot a selector names: 0 fetch, 1 decode, 2 execute (R223). -/
def selectSlot (sel : Word) (s : State) : Option Slot :=
  if sel = 0 then some s.slotF
  else if sel = 1 then some s.slotD
  else if sel = 2 then some s.slotE
  else none

/-- The number of bytes an access of this width moves (R72, R116). -/
def sizeBytes : Size → Nat
  | .byte => 1
  | .half => 2
  | .word => 4

/-- `Aligned(a, n)` (R72). -/
def aligned (a : Word) (size : Size) : Bool :=
  match size with
  | .byte => true
  | .half => !a.getLsbD 0
  | .word => !a.getLsbD 0 && !a.getLsbD 1

/-- The bits an access of this width covers, at the low end. -/
def sizeMask : Size → Word
  | .byte => 0x000000FF
  | .half => 0x0000FFFF
  | .word => 0xFFFFFFFF

/-- How far the accessed lane lies from the low end of its word: with k = a[1:0], a half-word is bits [31-8k : 16-8k] and a
byte bits [31-8k : 24-8k] (R67, R68, R69). -/
def laneShift (a : Word) (size : Size) : Nat :=
  match size with
  | .byte => 24 - 8 * (a.toNat % 4)
  | .half => 16 - 8 * (a.toNat % 4)
  | .word => 0

/-- `Extract(w, a, n)`: the lane of `w`, zero-extended (R68). -/
def extract (w a : Word) (size : Size) : Word := (w >>> laneShift a size) &&& sizeMask size

/-- `Merge(w, a, n, v)`: `w` with the lane replaced by the low bits of `v` (R69). -/
def merge (w a : Word) (size : Size) (v : Word) : Word :=
  (w &&& ~~~(sizeMask size <<< laneShift a size)) ||| ((v &&& sizeMask size) <<< laneShift a size)

/-- The address of the storage word that holds the byte at `a`: `a - a[1:0]` (R70, R71). -/
def wordAddr (a : Word) : Nat := a.toNat - a.toNat % 4

/-- A loaded value sign-extended from the access width (Exec's business, R68). -/
def signExtendFrom (size : Size) (v : Word) : Word :=
  match size with
  | .byte => (v.setWidth 8).signExtend 32
  | .half => (v.setWidth 16).signExtend 32
  | .word => v

/-- The value a write of Exec stores, `loaded` being what its completed access delivered. -/
def execValue (loaded : Word) : ExecVal → Word
  | .const w => w
  | .loaded => loaded
  | .loadedSigned size => signExtendFrom size loaded

/-- The writes of an answer with their values, `loaded` being what its completed access delivered. -/
def resolveWrites (loaded : Word) (w : ExecWrites ExecVal) : ExecWrites Word where
  gprs := w.gprs.map fun (i, v) => (i, execValue loaded v)
  specials := w.specials.map fun (r, v) => (r, execValue loaded v)
  redirects := w.redirects.map (execValue loaded)

/-- The request as the arbiter keeps it: a read carries no write data (R73, R75). -/
def mkReq (op : AccessOp) (size : Size) (addr wdata : Word) : BusReq :=
  match op with
  | .read => ⟨.read, size, addr, 0⟩
  | .write => ⟨.write, size, addr, wdata⟩

/-- The request of a poll of Exec; none for the reserved size code (R116, R122). -/
def pollReq (p : RawPoll) : Option BusReq :=
  (decodeReq p.req).map fun (op, size) => mkReq op size p.addr p.wdata

end Sys2Proof.Machine
end

