-- ==== Sys2Proof/Machine/Ops.lean ====
section
/-!
DEFINITION. Machine/Ops.lean: the operations the meanings share: registers (R21, R25), storage and its marks (R66 to R71,
R84, R85), the arbiter's latency state machine (R74 to R82), instruction fetch (R86), the slot movements (R173, R174),
exception entry and interrupt entry (R253, R260), the transition each outcome selects (R175 to R182), and reset (R290).
-/

namespace Sys2Proof.Machine

/-! ## Registers -/

/-- A general register; register 0 reads 0 (R21). -/
def readGpr (s : State) (i : BitVec 5) : Word := if i = 0 then 0 else s.x.get i.toFin

/-- `WriteGPR(i, v)`: register 0 stores 0 whatever `v` is (R21). -/
def writeGpr (s : State) (i : BitVec 5) (v : Word) : State :=
  { s with x := s.x.set i.toNat (if i = 0 then 0 else v) i.isLt }

/-- `WritePC(t)`: `pc <- t`, `npc <- t + 4` (R25). -/
def writePC (t : Word) (s : State) : State := { s with pc := t, npc := t + 4 }

/-- A write of Exec to a special register; a write to the PVR bank has no effect (R31, R32, R144). -/
def writeSpecial (s : State) (r : SpecialReg) (v : Word) : State :=
  match r with
  | .msr => { s with msr := v }
  | .ear => { s with ear := v }
  | .esr => { s with esr := v }
  | .btr => { s with btr := v }
  | .fsr => { s with fsr := v }
  | .pvr _ => s

/-! ## Storage -/

/-- The byte at an address; what is not listed reads 0 (R66). -/
def readByte : Memory → Nat → Byte
  | [], _ => 0
  | (k, b) :: rest, a => if k = a then b else readByte rest a

/-- A byte put where a canonical list has no smaller address: nothing for a 0 (an unlisted address reads 0). -/
def consByte (a : Nat) (v : Byte) (m : Memory) : Memory := if v = 0 then m else (a, v) :: m

/-- Storage with one byte written, in the canonical form. -/
def writeByte : Memory → Nat → Byte → Memory
  | [], a, v => consByte a v []
  | (k, b) :: rest, a, v =>
    if a < k then consByte a v ((k, b) :: rest)
    else if a = k then consByte a v rest
    else (k, b) :: writeByte rest a v

/-- The canonical form of storage: addresses strictly rising, no listed byte 0 (an unlisted address reads 0). -/
def Memory.wf : Memory → Bool
  | [] => true
  | (k, b) :: rest => !(b == 0) && rest.all (fun c => decide (k < c.1)) && Memory.wf rest

/-- `word[wa]`, its byte at the lowest address the most significant (R67). -/
def readWord (m : Memory) (wa : Nat) : Word :=
  readByte m wa ++ readByte m (wa + 1) ++ readByte m (wa + 2) ++ readByte m (wa + 3)

/-- Storage with `word[wa] <- w` (R67). -/
def writeWord (m : Memory) (wa : Nat) (w : Word) : Memory :=
  writeByte (writeByte (writeByte (writeByte m wa (w.extractLsb' 24 8)) (wa + 1) (w.extractLsb' 16 8))
    (wa + 2) (w.extractLsb' 8 8)) (wa + 3) (w.extractLsb' 0 8)

/-- `MemRead(a, n)` (R70). -/
def memRead (s : State) (a : Word) (size : Size) : Word := extract (readWord s.mem (wordAddr a)) a size

/-- `MemWrite(a, n, v)` (R71). The store entry is computed from the word and its marks (`entryAt`), so it is regenerated
with the word and keeps its wrappers (R85; log 14). -/
def memWrite (s : State) (a : Word) (size : Size) (v : Word) : State :=
  { s with mem := writeWord s.mem (wordAddr a) (merge (readWord s.mem (wordAddr a)) a size v) }

/-- A strictly rising list of addresses with one more in it. -/
def addMark : List Nat → Nat → List Nat
  | [], a => [a]
  | k :: rest, a => if a < k then a :: k :: rest else if a = k then k :: rest else k :: addMark rest a

/-- The canonical form of a set of marked addresses: strictly rising. -/
def rising : List Nat → Bool
  | [] => true
  | k :: rest => rest.all (fun a => decide (k < a)) && rising rest

/-- A list of addresses without one. -/
def dropMark (l : List Nat) (a : Nat) : List Nat := l.filter (· ≠ a)

/-! ## Address map -/

/-- An address lies in a storage region's inclusive range (R61, R62). -/
def inBank (b : Bank) (a : Word) : Bool := decide (b.lo.toNat ≤ a.toNat) && decide (a.toNat ≤ b.hi.toNat)

/-- An address lies in a device's word (R63). -/
def inDevice (d : Device) (a : Word) : Bool :=
  decide (d.addr.toNat ≤ a.toNat) && decide (a.toNat ≤ d.addr.toNat + 3)

/-- `Region(a)` (R64). -/
def region (c : Config) (a : Word) : Region :=
  if inBank c.localBus a then .localBus
  else if c.peripheralBus.toList.any (inBank · a) then .peripheralBus
  else
    match c.devices.find? (inDevice · a) with
    | some d => .device d
    | none => .none

/-- `Region(a)` is LB or PB: the address is backed by storage (R61, R62). -/
def isStorage (c : Config) (a : Word) : Bool :=
  match region c a with
  | .localBus | .peripheralBus => true
  | .device _ | .none => false

/-- A storage word's address: a multiple of 4 in LB or PB. Only these are fetched (R86) and marked (R220 to R222). -/
def fetchable (c : Config) (a : Word) : Bool := aligned a .word && isStorage c a

/-! ## The decoder and the instruction store -/

/-- A pattern names this (address, word) pair. -/
def patternMatches (p : WordPattern) (a w : Word) : Bool :=
  a &&& p.addrMask == p.addrValue &&& p.addrMask && w &&& p.wordMask == p.wordValue &&& p.wordMask

/-- `Decode(a, w)`: External, or the Illegal marker (R143; log 3). -/
def decodeWord (c : Config) (a w : Word) : Body :=
  if c.illegalWords.any (patternMatches · a w) then .illegal a else .external a w

/-- A decoded word as a slot variant. -/
def bodySlot : Body → Slot
  | .external a w => .external a w
  | .illegal a => .illegal a

/-- A decoded word under the wrappers its marks say, ProgramExit inside Breakpoint (R84, R113). -/
def wrapBody (isBreak isExit : Bool) (b : Body) : Slot :=
  if isBreak then .bp (if isExit then .exit b else .plain b)
  else if isExit then .exit b
  else bodySlot b

/-- `entry[a]` (R84): the decoded word under its marks. -/
def entryAt (s : State) (a : Word) : Slot :=
  wrapBody (s.breakMarks.contains a.toNat) (s.exitMarks.contains a.toNat)
    (decodeWord s.cfg a (readWord s.mem a.toNat))

/-- `Fetch(a)`: never fails; an address that is not fetchable gives the Unmapped marker (R86, R87). -/
def fetch (s : State) (a : Word) : Slot := if fetchable s.cfg a then entryAt s a else .unmapped a

/-- `program_counter(s)` (R141). -/
def programCounter : Slot → Word
  | .empty => 0
  | .external a _ => a
  | .illegal a => a
  | .unmapped a => a
  | .intJump a => a
  | .exit e => e.pc
  | .bp e => e.body.pc

/-! ## The arbiter -/

/-- `Classify(op, size, addr)`: alignment first, then the region; a sub-word access to a device word is unmapped (R74). -/
def classify (c : Config) (r : BusReq) : AccessClass :=
  if !aligned r.addr r.size then .unaligned
  else
    match region c r.addr with
    | .localBus => .localBus
    | .peripheralBus => .peripheralBus
    | .device d => if r.size = .word then .device d else .unmapped
    | .none => .unmapped

/-- A region's latency for a direction. -/
def bankLat (b : Bank) (op : AccessOp) : Nat :=
  match op with
  | .read => b.rlat
  | .write => b.wlat

/-- `Lat(cls, op)` (R74). With no peripheral bus the class PB does not arise; its latency is then 1. -/
def latency (c : Config) (cls : AccessClass) (op : AccessOp) : Nat :=
  match cls with
  | .localBus => bankLat c.localBus op
  | .peripheralBus => (c.peripheralBus.map (bankLat · op)).getD 1
  | .device d =>
    match op with
    | .read => d.rlat
    | .write => d.wlat
  | .unmapped => c.unmappedPenalty
  | .unaligned => c.unalignedPoll

/-- `Get_d()`: one call, recorded, answered with a free value (R81, R89, U11; log 10). -/
def deviceGet (d : Device) (s : State) : Word × State :=
  (Config.deviceWord d.addr s.seq, { s with devCalls := .get d.addr :: s.devCalls, seq := s.seq + 1 })

/-- `Put_d(v)`: one call, recorded, with no effect on the block (R81, R90, U12; log 10). -/
def devicePut (d : Device) (v : Word) (s : State) : State :=
  { s with devCalls := .put d.addr v :: s.devCalls }

/-- `Complete(cls, req)`: what the last poll does and returns (R80). -/
def complete (cls : AccessClass) (r : BusReq) (s : State) : BusResp × State :=
  match cls, r.op with
  | .unaligned, _ => (.unaligned r.addr, s)
  | .unmapped, _ => (.unmapped r.addr, s)
  | .localBus, .read | .peripheralBus, .read => (.ready (memRead s r.addr r.size), s)
  | .localBus, .write | .peripheralBus, .write => (.ready 0, memWrite s r.addr r.size r.wdata)
  | .device d, .read => let (v, s') := deviceGet d s; (.ready v, s')
  | .device d, .write => (.ready 0, devicePut d r.wdata s)

/-- The poll numbered `polls` of an access of this class: Busy below the latency, completion from it on (R75, R76). -/
def pollAt (cls : AccessClass) (polls : Nat) (r : BusReq) (s : State) : BusResp × State :=
  if polls < latency s.cfg cls r.op then (.busy, { s with acc := .pending cls polls r })
  else complete cls r { s with acc := .idle }

/-- The access in flight: R73's Pending with its fields, none when Idle. -/
def AccessState.inFlight : AccessState → Option (AccessClass × Nat × BusReq)
  | .idle => none
  | .pending cls polls r | .left cls polls r => some (cls, polls, r)

/-- The Access State when its instruction goes without completing it: an access in flight stays so, since only the debug refill
and reset abandon one (R83). -/
def AccessState.leave : AccessState → AccessState
  | .idle => .idle
  | .pending cls polls r | .left cls polls r => .left cls polls r

/-- The state when the instruction in slot.E goes without completing the access in flight, if there is one (R83, log 20). -/
def leaveAccess (s : State) : State := { s with acc := s.acc.leave }

/-- `BusAccess`: one poll (R75). A continuation poll must carry the request in flight (R77). -/
def busAccess (r : BusReq) (s : State) : Except Refusal (BusResp × State) :=
  match s.acc.inFlight with
  | none => .ok (pollAt (classify s.cfg r) 1 r s)
  | some (cls, polls, r') =>
    if r = r' then .ok (pollAt cls (polls + 1) r s) else .error .busProtocolViolation

/-! ## Slot movements -/

/-- `Advance()`: the ordinary shift (R173). -/
def advance (s : State) : State :=
  { s with pc := s.npc, npc := s.npc + 4, slotE := s.slotD, slotD := s.slotF, slotF := fetch s s.npc }

/-- `FetchSideAdvance()`: fetch goes on while slot.E is held (R174). -/
def fetchSideAdvance (s : State) : State :=
  { s with pc := s.npc, npc := s.npc + 4, slotD := s.slotF, slotF := fetch s s.npc }

/-- The pipeline behind a redirect: `e` in slot.E, a bubble in slot.D, slot.F fetched at pc (R178, R179, R214, R253). -/
def refill (e : Slot) (s : State) : State :=
  { s with slotE := e, slotD := .empty, slotF := fetch s s.pc }

/-- `retired <- retired + 1`, modulo 2^64 (R36). -/
def retire (s : State) : State := { s with retired := s.retired + 1 }

/-! ## Exceptions and interrupts

A return from a handler is no operation of the block (R264): an External instruction redirects the pc and restores the MSR
through the writes its Exec makes. -/

/-- `ExceptionEntry(oc, info)` (R253): link, cause, EAR, EIP set, EE cleared, redirect, flush, fetch. -/
def exceptionEntry (oc : OutcomeCode) (info : Word) (s : State) : State :=
  let linked := writeGpr s s.cfg.excLink (programCounter s.slotE + 4)
  let caused := { linked with esr := (causeCode oc).setWidth 32 }
  let addressed := if writesEar oc then { caused with ear := info } else caused
  let masked :=
    { addressed with msr := setFlag (setFlag addressed.msr msrEIP true) msrEE false, immInFlight := false }
  refill .empty (writePC masked.cfg.excVector masked)

/-- `InterruptEntry()` (R260): link, IE cleared, the interrupt jump installed in slot.E, fetch side shifted. -/
def interruptEntry (s : State) : State :=
  let a := programCounter s.slotD
  let linked := writeGpr s s.cfg.intLink a
  let masked := { linked with msr := setFlag linked.msr msrIE false }
  { fetchSideAdvance masked with slotE := .intJump a }

/-- The interrupt check, then interrupt entry or the ordinary shift (R175, R176). -/
def interruptOrAdvance (irq : Bool) (s : State) : State :=
  if interruptCondition irq s then interruptEntry s else advance s

/-! ## One transition per outcome -/

/-- NORMAL (R175). -/
def normalCycle (irq : Bool) (s : State) : State := interruptOrAdvance irq (retire s)

/-- EMPTY: as NORMAL, without retiring (R176). -/
def emptyCycle (irq : Bool) (s : State) : State := interruptOrAdvance irq s

/-- MEM_ACCESS_IN_PROGRESS: hold, or let fetch move into an Empty decode slot (R177). -/
def stallCycle (s : State) : State := if s.slotD = .empty then fetchSideAdvance s else s

/-- DELAY_SLOT (R178). -/
def delaySlotCycle (s : State) : State := refill s.slotD (retire s)

/-- JUMP_TAKEN (R179). -/
def jumpTakenCycle (s : State) : State := refill .empty (retire s)

/-- BREAKPOINT: no state mutation (R180). -/
def breakpointCycle (s : State) : State := s

/-- STOP (R181). -/
def stopCycle (s : State) : State := retire s

/-- A fault outcome: exception entry when enabled, else exactly NORMAL (R251, R257). -/
def faultCycle (irq : Bool) (oc : OutcomeCode) (info : Word) (s : State) : State :=
  if faultEnabled s then exceptionEntry oc info s else normalCycle irq s

/-- The transition the outcome selects (R172). -/
def transition (irq : Bool) (oc : OutcomeCode) (info : Word) (s : State) : State :=
  match oc with
  | .normal => normalCycle irq s
  | .empty => emptyCycle irq s
  | .memAccessInProgress => stallCycle s
  | .delaySlot => delaySlotCycle s
  | .jumpTaken => jumpTakenCycle s
  | .breakpoint => breakpointCycle s
  | .stop => stopCycle s
  | .divideByZero | .unaligned | .illegal | .unmappedFetch | .unmappedData => faultCycle irq oc info s

/-- What `cycle` returns for the outcome: STOPPED on STOP, BREAKPOINT_HIT on BREAKPOINT, else NORMAL (R182, R183). -/
def runStatus : OutcomeCode → RunStatus
  | .stop => .stopped
  | .breakpoint => .breakpointHit
  | .normal | .memAccessInProgress | .delaySlot | .jumpTaken | .empty | .divideByZero | .unaligned | .illegal
  | .unmappedFetch | .unmappedData => .normal

/-! ## Reset, replies, inputs -/

/-- `Reset()` (R290): what it does not name stays, storage, marks and configuration among it (R291). -/
def resetBlock (s : State) : State :=
  { s with
    x := Vector.replicate 32 0, pc := 0, npc := 0, msr := 0, ear := 0, esr := 0, btr := 0, fsr := 0,
    slotF := .empty, slotD := .empty, slotE := .empty, immInFlight := false, acc := .idle, retired := 0 }

/-- The state with a reply on the host port (R118). -/
def answer (r : Reply) (s : State) : State := { s with reply := r }

/-- A command that fails: FAIL(reason) and no other change (R210). -/
def failWith (reason : FailReason) (s : State) : State := answer (.fail reason) s

/-- The interrupt input for the next free-running clock: the host's choice, a free value (R226; log 9). -/
def sampleInput (s : State) : State := { s with irq := Config.irqLevel s.seq, seq := s.seq + 1 }

/-- An outcome with a change made to its next state, if it has one. -/
def onNext (f : State → State) (o : Host.Outcome State Fault Refusal) : Host.Outcome State Fault Refusal :=
  match o with
  | .next t => .next (f t)
  | .fault r => .fault r
  | .refused r => .refused r

/-- An outcome of a machine that has this configuration: none when it is ill formed, "it refuses it" (R9). -/
def whenWellFormed (c : Config) (o : Host.Outcome State Fault Refusal) : Host.Outcome State Fault Refusal :=
  if c.wf then o else .refused .illFormedConfiguration

end Sys2Proof.Machine
end

