-- ==== Sys2Proof/Machine/Bus.lean ====
section
/-!
DEFINITION. Machine/Bus.lean: the six bus requests (R116): each is one poll of BusAccess (R75), its response left on the
arbiter's response port (R115), and the response's codes. No step runs one alone: the poll is made by the External
instruction in slot.E (R83), by the shared operation `pollAndRecord` (Slots.lean; log 11).
-/

namespace Sys2Proof.Machine

/-- The 2-bit response code BR[1:0] (R115). -/
def BusResp.bits : BusResp → BitVec 2
  | .ready _ => 0b00
  | .busy => 0b01
  | .unaligned _ => 0b10
  | .unmapped _ => 0b11

/-- The 32-bit value beside the code: read data, or the target address of a fault; 0 for Busy (R115). -/
def BusResp.value : BusResp → Word
  | .ready v => v
  | .busy => 0
  | .unaligned a => a
  | .unmapped a => a

/-- One poll as it leaves the arbiter's response on its port (R75, R115; log 15). -/
def pollAndRecord (r : BusReq) (s : State) : Except Refusal (BusResp × State) :=
  match busAccess r s with
  | .ok (resp, t) => .ok (resp, { t with busResp := some resp })
  | .error e => .error e

/-- The poll alone, as the meaning of a request. -/
def pollRequest (r : BusReq) (s : State) : Host.Outcome State Fault Refusal :=
  match pollAndRecord r s with
  | .ok (_, t) => .next t
  | .error e => .refused e

/-- BUS_RB (R75, R116). -/
def execBusRb (addr : Word) (s : State) : Host.Outcome State Fault Refusal :=
  pollRequest (mkReq .read .byte addr 0) s

/-- BUS_RH (R75, R116). -/
def execBusRh (addr : Word) (s : State) : Host.Outcome State Fault Refusal :=
  pollRequest (mkReq .read .half addr 0) s

/-- BUS_RW (R75, R116). -/
def execBusRw (addr : Word) (s : State) : Host.Outcome State Fault Refusal :=
  pollRequest (mkReq .read .word addr 0) s

/-- BUS_WB (R75, R116). -/
def execBusWb (addr wdata : Word) (s : State) : Host.Outcome State Fault Refusal :=
  pollRequest (mkReq .write .byte addr wdata) s

/-- BUS_WH (R75, R116). -/
def execBusWh (addr wdata : Word) (s : State) : Host.Outcome State Fault Refusal :=
  pollRequest (mkReq .write .half addr wdata) s

/-- BUS_WW (R75, R116). -/
def execBusWw (addr wdata : Word) (s : State) : Host.Outcome State Fault Refusal :=
  pollRequest (mkReq .write .word addr wdata) s

end Sys2Proof.Machine
end

