-- ==== Sys2Proof/Machine/Slots.lean ====
section
/-!
DEFINITION. Machine/Slots.lean: the slot variants. `Step` of each (R150 to R156), the external instruction under the contract
on Exec (R144 to R149), the clock `cycle` (R170 to R172), and the meaning of each slot instruction: the clock in which it is
the instruction stepped.
-/

namespace Sys2Proof.Machine

/-- What a step returns: an outcome code, its info word and the state it leaves, or no step (R142). -/
abbrev StepResult := Except Refusal (OutcomeCode × Word × State)

/-! ## The external execution capability -/

/-- What Exec may read (R144), and what its access has delivered; register 0 reads 0 (R21). -/
def execView (delivered : Option Word) (a w : Word) (s : State) : ExecView where
  a := a
  w := w
  x := s.x.set 0 0
  pc := s.pc
  msr := s.msr
  ear := s.ear
  esr := s.esr
  btr := s.btr
  fsr := s.fsr
  pvr := s.cfg.pvr
  immInFlight := s.immInFlight
  delivered := delivered
  seq := s.seq

/-- At most one BusAccess, at most one WritePC, nothing outside R144 touched (R144, U5). -/
def keepsToItsState (ans : ExecAnswer) : Bool :=
  decide (ans.polls.length ≤ 1) && decide (ans.writes.redirects.length ≤ 1) &&
    decide (ans.onBusy.writes.redirects.length ≤ 1) && decide (ans.onUnaligned.writes.redirects.length ≤ 1) &&
    decide (ans.onUnmapped.writes.redirects.length ≤ 1) && !ans.touchesOther

/-- The outcomes by which a step completes: NORMAL, or DELAY_SLOT or JUMP_TAKEN with a WritePC (R147, R149). -/
def completes (ans : ExecAnswer) (oc : OutcomeCode) : Bool :=
  match oc with
  | .normal => true
  | .delaySlot | .jumpTaken => !ans.writes.redirects.isEmpty
  | .memAccessInProgress | .empty | .breakpoint | .stop | .divideByZero | .unaligned | .illegal | .unmappedFetch
  | .unmappedData => false

/-- The faults Exec may report (R145). UNALIGNED and UNMAPPED_DATA are among them, though R250 names no source of the two but
a response: R145 allows the codes and no rule treats such a step, so it runs, with the answer's own info word (DEDUCED,
log 5). -/
def mayFault (oc : OutcomeCode) : Bool :=
  match oc with
  | .divideByZero | .unaligned | .illegal | .unmappedData => true
  | .normal | .memAccessInProgress | .delaySlot | .jumpTaken | .empty | .breakpoint | .stop | .unmappedFetch => false

/-- Some write is made. One with no effect counts too: to a PVR register (R32), to register 0 (R21), of the value already held
(DESIGN CHOICE, log 21: no rule says whether it is a write in the sense of R146 and R147). -/
def writesAny {V : Type} (w : ExecWrites V) : Bool := !w.gprs.isEmpty || !w.specials.isEmpty || !w.redirects.isEmpty

/-- The step has written something when its access is Ready: what a write stored or put to a device (that the latter counts is
a DESIGN CHOICE, log 21), or the answer's own writes. -/
def hasWritten (r : BusReq) (ans : ExecAnswer) : Bool := r.op == .write || writesAny ans.writes

/-- The outcomes Exec may return from a step that made no access, or whose access `ready` is Ready with a word: those of R145
without MEM_ACCESS_IN_PROGRESS, "returned only after Busy" (R147). On Ready R147 leaves no fault; one after something was
written is the breach to which R146 and U6 give an effect (entry over the writes), one after no write has none. The rest is
refused (R122, U4; DEDUCED where U4 does not name the outcome, log 5). -/
def mayReturn (ready : Option (BusReq × Word)) (ans : ExecAnswer) (oc : OutcomeCode) : Bool :=
  completes ans oc ||
    mayFault oc &&
      match ready with
      | none => true
      | some (r, _) => hasWritten r ans

/-- What a step of Exec does that has written `w` and returns this outcome on its poll's response. -/
def returning (oc : OutcomeCode) (w : ExecWrites Word) : ExecReturn := ⟨oc.bits, 0, w⟩

/-- The outcome code an answer gives is one for which `ok` holds. -/
def codeIs (ok : OutcomeCode → Bool) (ans : ExecAnswer) : Bool :=
  match decodeOutcome ans.code with
  | some oc => ok oc
  | none => false

/-- An access of the External's own in flight is polled (R147: "it polls again with the same request"). The spec names no
treatment for a step that leaves it alone: refused (DEDUCED, log 5), but for a fault after writes, to which R146 and U6 give an
effect. An access that an earlier instruction left is not this one's to poll (log 20). -/
def pollsOn (acc : AccessState) (ans : ExecAnswer) : Bool :=
  match acc with
  | .idle | .left _ _ _ => true
  | .pending _ _ _ => !ans.polls.isEmpty || (codeIs mayFault ans && writesAny ans.writes)

/-- The poll that carries this request. -/
def pollOf (r : BusReq) : RawPoll := ⟨encodeReq r.op r.size, r.addr, r.wdata⟩

/-- One call of WritePC at most. -/
def oneRedirect {V : Type} (w : ExecWrites V) : ExecWrites V := { w with redirects := w.redirects.take 1 }

/-- An answer with NORMAL for its outcome, unless its outcome is one for which `ok` holds. -/
def orNormal (ok : ExecAnswer → OutcomeCode → Bool) (ans : ExecAnswer) : ExecAnswer :=
  if codeIs (ok ans) ans then ans else { ans with code := OutcomeCode.normal.bits }

/-- What Exec does on a faulting response, brought within the contract: the outcome R147 pairs with it, one WritePC at most. -/
def pairing (oc : OutcomeCode) (ret : ExecReturn) : ExecReturn :=
  { ret with code := oc.bits, writes := oneRedirect ret.writes }

/-- The polls of an answer brought within the contract: the request of its own access again (R147), else its first legal one.
With an access in flight that an earlier instruction left, its poll can only be of that request (R77). -/
def polledUnder (acc : AccessState) (ans : ExecAnswer) : List RawPoll :=
  match acc with
  | .pending _ _ r => [pollOf r]
  | .idle => (ans.polls.filter fun p => (pollReq p).isSome).take 1
  | .left _ _ r => if ans.polls.isEmpty then [] else [pollOf r]

/-- An answer with its calls within the contract: nothing else touched, one poll and one WritePC at most, and for each response
but Ready the outcome R147 pairs with it. -/
def keepCalls (acc : AccessState) (ans : ExecAnswer) : ExecAnswer :=
  { ans with
    touchesOther := false
    polls := polledUnder acc ans
    writes := oneRedirect ans.writes
    onBusy := { ans.onBusy with code := OutcomeCode.memAccessInProgress.bits, writes := noWrites }
    onUnaligned := pairing .unaligned ans.onUnaligned
    onUnmapped := pairing .unmappedData ans.onUnmapped }

/-- An answer brought within the contract, its outcome one that Exec may return. An answer within it is unchanged, so a free
answer stands for every Exec that keeps its contract (ASSUMED, R144 to R149; log 4). R146 alone is not imposed: U6 makes it a
premise of the claims that need it. -/
def keepContract (acc : AccessState) (ans : ExecAnswer) : ExecAnswer := orNormal (mayReturn none) (keepCalls acc ans)

/-- A completion brought within the contract: one WritePC at most, and an outcome of R147's Ready. One within it is
unchanged. -/
def keepCompletion (ans : ExecAnswer) : ExecAnswer :=
  orNormal completes { ans with writes := oneRedirect ans.writes }

/-- What Exec does in this step: its answer, and the answer it completes with once its access has delivered a word. They are
the next answer given from outside; else free values that keep the contract, the second depending on the word too (log 4). -/
def drawAnswer (a w : Word) (s : State) : ExecAnswer × (Word → ExecAnswer) × State :=
  match s.execQ with
  | ans :: rest => (ans, fun _ => ans, { s with execQ := rest })
  | [] =>
    (keepContract s.acc (Config.execAnswer (execView none a w s)),
      fun v => keepCompletion (Config.execAnswer (execView (some v) a w s)),
      { s with seq := s.seq + 1 })

/-- imm_in_flight after a step of Exec that has completed, which is one that returns anything but MEM_ACCESS_IN_PROGRESS: 1
for an immediate prefix that returns NORMAL, else 0 (R34, R148, D16), a fault among them (DEDUCED against R146, log 7). -/
def immAfter (ans : ExecAnswer) (oc : OutcomeCode) : Bool := ans.isImmPrefix && oc == .normal

/-- The writes made: general registers, special registers, the redirect (R144). -/
def applyWrites (w : ExecWrites Word) (s : State) : State :=
  let regs := w.gprs.foldl (fun t (i, v) => writeGpr t i v) s
  let specials := w.specials.foldl (fun t (r, v) => writeSpecial t r v) regs
  w.redirects.foldl (fun t v => writePC v t) specials

/-- The writes of a step of Exec that returns this outcome, imm_in_flight among them (R144, R148). -/
def execWrites (ans : ExecAnswer) (oc : OutcomeCode) (w : ExecWrites Word) (s : State) : State :=
  { applyWrites w s with immInFlight := immAfter ans oc }

/-- The word a step's access has delivered; 0 for a step that made none (log 4). -/
def deliveredWord (ready : Option (BusReq × Word)) : Word :=
  match ready with
  | none => 0
  | some (_, v) => v

/-- A step of Exec that made no access, or whose access is Ready: its outcome and its writes (R145, R146, R147, R149). -/
def finishExec (ready : Option (BusReq × Word)) (ans : ExecAnswer) (s : State) : StepResult :=
  match decodeOutcome ans.code with
  | some oc =>
    if mayReturn ready ans oc then
      .ok (oc, ans.info, execWrites ans oc (resolveWrites (deliveredWord ready) ans.writes) s)
    else .error .execProtocolViolation
  | none => .error .execProtocolViolation

/-- A response that is not Ready, met with an outcome R147 does not pair with it: a fault after writes is taken over them
(R146, U6). A reserved outcome and those of the markers are refused (R122, R145, U4), and so is any other breach, for which
the spec names no treatment (DEDUCED, log 5). -/
def breachedReturn (ans : ExecAnswer) (ret : ExecReturn) (oc : OutcomeCode) (s : State) : StepResult :=
  if mayFault oc && writesAny ret.writes then .ok (oc, ret.info, execWrites ans oc ret.writes (leaveAccess s))
  else .error .execProtocolViolation

/-- A step of Exec whose poll is Busy: it waits, with no architectural write (R147). -/
def waitedAccess (ans : ExecAnswer) (ret : ExecReturn) (s : State) : StepResult :=
  match decodeOutcome ret.code with
  | some oc =>
    if oc = .memAccessInProgress && !writesAny ret.writes then .ok (.memAccessInProgress, 0, s)
    else breachedReturn ans ret oc s
  | none => .error .execProtocolViolation

/-- A step of Exec whose access faulted: the outcome `fault` that R147 pairs with the response and the target address, over
whatever it has written, which is nothing under R146's contract (U6). -/
def faultedAccess (ans : ExecAnswer) (ret : ExecReturn) (fault : OutcomeCode) (x : Word) (s : State) : StepResult :=
  match decodeOutcome ret.code with
  | some oc =>
    if oc = fault then .ok (fault, x, execWrites ans fault ret.writes s) else breachedReturn ans ret oc s
  | none => .error .execProtocolViolation

/-- What a step of Exec does with the response to its poll of `r`, `done` being how it completes (R147). -/
def afterPoll (ans : ExecAnswer) (done : Word → ExecAnswer) (r : BusReq) (resp : BusResp) (s : State) : StepResult :=
  match resp with
  | .busy => waitedAccess ans ans.onBusy s
  | .unaligned x => faultedAccess ans ans.onUnaligned .unaligned x s
  | .unmapped x => faultedAccess ans ans.onUnmapped .unmappedData x s
  | .ready v => finishExec (some (r, v)) (done v) s

/-- A step of Exec that polls: its poll is the poll a bus request is the meaning of (log 11). -/
def runPoll (ans : ExecAnswer) (done : Word → ExecAnswer) (p : RawPoll) (s : State) : StepResult :=
  match pollReq p with
  | none => .error .busProtocolViolation
  | some r =>
    match pollAndRecord r s with
    | .ok (resp, t) => afterPoll ans done r resp t
    | .error e => .error e

/-- A step of Exec that makes this answer. -/
def runAnswer (ans : ExecAnswer) (done : Word → ExecAnswer) (s : State) : StepResult :=
  if keepsToItsState ans && pollsOn s.acc ans then
    match ans.polls with
    | [] => finishExec none ans (leaveAccess s)
    | p :: _ => runPoll ans done p s
  else .error .execProtocolViolation

/-- The answer of an Exec that makes this poll and otherwise does nothing (log 11). -/
def pollingAnswer (p : RawPoll) : ExecAnswer where
  polls := [p]
  touchesOther := false
  writes := noWrites
  onBusy := returning .memAccessInProgress noWrites
  onUnaligned := returning .unaligned noWrites
  onUnmapped := returning .unmappedData noWrites
  isImmPrefix := false
  code := OutcomeCode.normal.bits
  info := 0

/-! ## Step -/

/-- `Step(Empty)` (R152). -/
def stepEmpty (s : State) : StepResult := .ok (.empty, 0, s)

/-- `Step(External(a, w))`: Exec under its contract (R156). -/
def stepExternal (a w : Word) (s : State) : StepResult :=
  let (ans, done, t) := drawAnswer a w s
  runAnswer ans done t

/-- `Step(Illegal(a))` (R150). -/
def stepIllegal (a : Word) (s : State) : StepResult := .ok (.illegal, a, s)

/-- `Step(Unmapped(a))` (R151). -/
def stepUnmapped (a : Word) (s : State) : StepResult := .ok (.unmappedFetch, a, s)

/-- `Step(IntJump(a))` (R154). -/
def stepIntJump (s : State) : StepResult := .ok (.jumpTaken, 0, writePC s.cfg.intVector s)

/-- `Step(Exit(e))`: the wrapped variant is not executed (R155). -/
def stepExit (s : State) : StepResult := .ok (.stop, 0, s)

/-- `Step(Bp(e))`: the wrapped variant is not stepped (R153). -/
def stepBreakpoint (s : State) : StepResult := .ok (.breakpoint, 0, s)

/-- `Step(s)`, exhaustive over the variants (R142). -/
def stepSlot (v : Slot) (s : State) : StepResult :=
  match v with
  | .empty => stepEmpty s
  | .external a w => stepExternal a w s
  | .illegal a => stepIllegal a s
  | .unmapped a => stepUnmapped a s
  | .intJump _ => stepIntJump s
  | .exit _ => stepExit s
  | .bp _ => stepBreakpoint s

/-! ## The clock -/

/-- The rest of a clock after its step: the transition, and the run status as the reply (R172, R183). -/
def finishCycle (irq : Bool) (r : StepResult) : Host.Outcome State Fault Refusal :=
  match r with
  | .ok (oc, info, t) => .next (answer (.status (runStatus oc)) (transition irq oc info t))
  | .error e => .refused e

/-- `cycle(irq)`: one clock, stepping the instruction in slot.E once (R170, R171, R172). -/
def clock (irq : Bool) (s : State) : Host.Outcome State Fault Refusal := finishCycle irq (stepSlot s.slotE s)

/-! ## Meanings: the clock in which the variant is stepped, the interrupt input being `s.irq` -/

/-- EMPTY (R152). -/
def execEmpty (s : State) : Host.Outcome State Fault Refusal := finishCycle s.irq (stepEmpty s)

/-- EXTERNAL (R156). -/
def execExternal (a w : Word) (s : State) : Host.Outcome State Fault Refusal :=
  finishCycle s.irq (stepExternal a w s)

/-- ILLEGAL (R150). -/
def execIllegal (a : Word) (s : State) : Host.Outcome State Fault Refusal := finishCycle s.irq (stepIllegal a s)

/-- UNMAPPED (R151). -/
def execUnmapped (a : Word) (s : State) : Host.Outcome State Fault Refusal := finishCycle s.irq (stepUnmapped a s)

/-- INTJUMP (R154). The saved address is its program counter only. -/
def execIntjump (_a : Word) (s : State) : Host.Outcome State Fault Refusal := finishCycle s.irq (stepIntJump s)

/-- PROGRAM_EXIT (R155). -/
def execProgramExit (_e : Body) (s : State) : Host.Outcome State Fault Refusal := finishCycle s.irq (stepExit s)

/-- BREAKPOINT (R153). -/
def execBreakpoint (_e : Marked) (s : State) : Host.Outcome State Fault Refusal :=
  finishCycle s.irq (stepBreakpoint s)

end Sys2Proof.Machine
end

