-- ==== Sys2Proof/Machine/HostPort.lean ====
section
/-!
DEFINITION. Machine/HostPort.lean: the host and debug commands (R118, 42_host_debug.md), RESET (R290) and CYCLE (R170). A
command that fails leaves its reason on the reply port and changes nothing else (R210).
-/

namespace Sys2Proof.Machine

/-! ## Clock and reset -/

/-- CYCLE: one clock with A[0] on the interrupt input (R118, R170). -/
def execCycle (irq : Bool) (s : State) : Host.Outcome State Fault Refusal := clock irq s

/-- RESET (R290). -/
def execReset (s : State) : Host.Outcome State Fault Refusal := .next (answer .ok (resetBlock s))

/-! ## Registers -/

/-- The value of a selected register, none for an invalid number (R119, R212). A PVR number selects an existing register,
since `selectReg` is given the bank's length. -/
def readReg (s : State) (r : RegSel) : Option Word :=
  match r with
  | .gpr i => some (readGpr s i)
  | .pc => some s.pc
  | .msr => some s.msr
  | .ear => some s.ear
  | .esr => some s.esr
  | .fsr => some s.fsr
  | .btr => some s.btr
  | .pvr k => s.cfg.pvr[k]?
  | .invalid => none

/-- REG_GET (R212). -/
def execRegGet (n : Word) (s : State) : Host.Outcome State Fault Refusal :=
  match readReg s (selectReg s.cfg.pvr.length n) with
  | some v => .next (answer (.okWord v) s)
  | none => .next (failWith .badRegister s)

/-- The normal-mode register write (R213). -/
def setReg (r : RegSel) (v : Word) (s : State) : State :=
  match r with
  | .gpr i => answer .ok (writeGpr s i v)
  | .pc => answer .ok (writePC v s)
  | .msr => answer .ok { s with msr := v }
  | .ear => answer .ok { s with ear := v }
  | .esr => answer .ok { s with esr := v }
  | .fsr => answer .ok { s with fsr := v }
  | .btr => answer .ok { s with btr := v }
  | .pvr _ => failWith .readOnly s
  | .invalid => failWith .badRegister s

/-- The debug write of the pc: redirect, refill, and abandon the access in flight (R214). -/
def debugWritePC (v : Word) (s : State) : State :=
  let t := refill .empty (writePC v s)
  { t with acc := .idle, immInFlight := false }

/-- REG_SET (R213). -/
def execRegSet (n v : Word) (s : State) : Host.Outcome State Fault Refusal :=
  .next (setReg (selectReg s.cfg.pvr.length n) v s)

/-- DBG_REG_SET: the pc refills the pipeline, every other number is as REG_SET (R214). -/
def execDbgRegSet (n v : Word) (s : State) : Host.Outcome State Fault Refusal :=
  match selectReg s.cfg.pvr.length n with
  | .pc => .next (answer .ok (debugWritePC v s))
  | r => .next (setReg r v s)

/-! ## Memory -/

/-- `DbgRead(a, n)` (R89). -/
def dbgRead (a : Word) (size : Size) (s : State) : State :=
  if !aligned a size then failWith .badAddress s
  else
    match region s.cfg a with
    | .none => failWith .badAddress s
    | .localBus | .peripheralBus => answer (.okWord (memRead s a size)) s
    | .device d =>
      if size = .word then
        let (v, t) := deviceGet d s
        answer (.okWord v) t
      else failWith .badAddress s

/-- `DbgWrite(a, n, v)` (R90). -/
def dbgWrite (a : Word) (size : Size) (v : Word) (s : State) : State :=
  if !aligned a size then failWith .badAddress s
  else
    match region s.cfg a with
    | .none => failWith .badAddress s
    | .localBus | .peripheralBus => answer .ok (memWrite s a size v)
    | .device d => if size = .word then answer .ok (devicePut d v s) else failWith .badAddress s

/-- MEM_GET_W (R215). -/
def execMemGetW (addr : Word) (s : State) : Host.Outcome State Fault Refusal := .next (dbgRead addr .word s)

/-- MEM_GET_H (R216). -/
def execMemGetH (addr : Word) (s : State) : Host.Outcome State Fault Refusal := .next (dbgRead addr .half s)

/-- MEM_GET_B (R216). -/
def execMemGetB (addr : Word) (s : State) : Host.Outcome State Fault Refusal := .next (dbgRead addr .byte s)

/-- MEM_SET_W (R217). -/
def execMemSetW (addr v : Word) (s : State) : Host.Outcome State Fault Refusal := .next (dbgWrite addr .word v s)

/-- MEM_SET_H (R218). -/
def execMemSetH (addr v : Word) (s : State) : Host.Outcome State Fault Refusal := .next (dbgWrite addr .half v s)

/-- MEM_SET_B (R219). -/
def execMemSetB (addr v : Word) (s : State) : Host.Outcome State Fault Refusal := .next (dbgWrite addr .byte v s)

/-! ## Breakpoints and exit marks -/

/-- A change made to every pipeline slot. -/
def mapSlots (f : Slot → Slot) (s : State) : State :=
  { s with slotF := f s.slotF, slotD := f s.slotD, slotE := f s.slotE }

/-- A slot's copy of the entry at `a`, wrapped in Breakpoint: only External, Illegal and ProgramExit are wrapped (R220). -/
def wrapBreak (a : Word) (v : Slot) : Slot :=
  if programCounter v = a then
    match v with
    | .external b w => .bp (.plain (.external b w))
    | .illegal b => .bp (.plain (.illegal b))
    | .exit e => .bp (.exit e)
    | .empty | .unmapped _ | .intJump _ | .bp _ => v
  else v

/-- The content of a Breakpoint as a slot variant (R153, R221). -/
def markedSlot : Marked → Slot
  | .plain b => bodySlot b
  | .exit b => .exit b

/-- A slot's copy of the entry at `a`, unwrapped from Breakpoint (R221). -/
def unwrapBreak (a : Word) (v : Slot) : Slot :=
  match v with
  | .bp e => if e.body.pc = a then markedSlot e else v
  | .empty | .external _ _ | .illegal _ | .unmapped _ | .intJump _ | .exit _ => v

/-- A slot's copy of the entry at `a`, marked ProgramExit, inside its Breakpoint if it has one (R222). A copy that has the
mark already keeps it: no variant holds two. The External in slot.E is wrapped even while its access is in flight, so STOP may
be stepped with the access pending, which R296 says cannot be (DEDUCED: R222 is followed, log 19). -/
def wrapExit (a : Word) (v : Slot) : Slot :=
  if programCounter v = a then
    match v with
    | .external b w => .exit (.external b w)
    | .illegal b => .exit (.illegal b)
    | .bp (.plain e) => .bp (.exit e)
    | .empty | .unmapped _ | .intJump _ | .exit _ | .bp (.exit _) => v
  else v

/-- BP_INSERT (R220). The failure Empty is kept although no store entry is Empty (C7). -/
def execBpInsert (addr : Word) (s : State) : Host.Outcome State Fault Refusal :=
  if !fetchable s.cfg addr then .next (failWith .badAddress s)
  else
    match entryAt s addr with
    | .bp _ => .next (failWith .alreadySet s)
    | .empty => .next (failWith .empty s)
    | .external _ _ | .illegal _ | .unmapped _ | .intJump _ | .exit _ =>
      .next (answer .ok (mapSlots (wrapBreak addr) { s with breakMarks := addMark s.breakMarks addr.toNat }))

/-- BP_REMOVE (R221). -/
def execBpRemove (addr : Word) (s : State) : Host.Outcome State Fault Refusal :=
  if !fetchable s.cfg addr then .next (failWith .badAddress s)
  else
    match entryAt s addr with
    | .bp _ =>
      .next (answer .ok (mapSlots (unwrapBreak addr) { s with breakMarks := dropMark s.breakMarks addr.toNat }))
    | .empty | .external _ _ | .illegal _ | .unmapped _ | .intJump _ | .exit _ => .next (failWith .notSet s)

/-- EXIT_MARK (R222). -/
def execExitMark (addr : Word) (s : State) : Host.Outcome State Fault Refusal :=
  if !fetchable s.cfg addr then .next (failWith .badAddress s)
  else
    match entryAt s addr with
    | .exit _ | .bp (.exit _) => .next (failWith .alreadySet s)
    | .empty | .external _ _ | .illegal _ | .unmapped _ | .intJump _ | .bp (.plain _) =>
      .next (answer .ok (mapSlots (wrapExit addr) { s with exitMarks := addMark s.exitMarks addr.toNat }))

/-! ## Observation -/

/-- SLOT_GET (R223). -/
def execSlotGet (sel : Word) (s : State) : Host.Outcome State Fault Refusal :=
  match selectSlot sel s with
  | some v => .next (answer (.okSlot v.bits) s)
  | none => .next (failWith .badSlot s)

/-- RETIRED_GET (R224). -/
def execRetiredGet (s : State) : Host.Outcome State Fault Refusal := .next (answer (.okCount s.retired) s)

/-- The instruction of a waiting command. -/
def decodeRequest (r : RawWord) : Except DecodeError Instr := decode .host r

/-- A reserved command: it fails with BadCommand and changes nothing (R122, R225). -/
def rejectRequest (s : State) : Host.Outcome State Fault Refusal := .next (failWith .badCommand s)

end Sys2Proof.Machine
end

