-- ==== Sys2Proof/Machine/Dispatch.lean ====
section
/-!
DEFINITION. Machine/Dispatch.lean: one arm per instruction, each one call of its meaning.
-/

namespace Sys2Proof.Machine

def exec (i : Instr) (s : State) : Host.Outcome State Fault Refusal :=
  match i with
  | .empty => Sys2Proof.Machine.execEmpty s
  | .external a w => Sys2Proof.Machine.execExternal a w s
  | .illegal a => Sys2Proof.Machine.execIllegal a s
  | .unmapped a => Sys2Proof.Machine.execUnmapped a s
  | .intjump a => Sys2Proof.Machine.execIntjump a s
  | .programExit e => Sys2Proof.Machine.execProgramExit e s
  | .breakpoint e => Sys2Proof.Machine.execBreakpoint e s
  | .busRb addr => Sys2Proof.Machine.execBusRb addr s
  | .busRh addr => Sys2Proof.Machine.execBusRh addr s
  | .busRw addr => Sys2Proof.Machine.execBusRw addr s
  | .busWb addr wdata => Sys2Proof.Machine.execBusWb addr wdata s
  | .busWh addr wdata => Sys2Proof.Machine.execBusWh addr wdata s
  | .busWw addr wdata => Sys2Proof.Machine.execBusWw addr wdata s
  | .cycle irq => Sys2Proof.Machine.execCycle irq s
  | .reset => Sys2Proof.Machine.execReset s
  | .regGet n => Sys2Proof.Machine.execRegGet n s
  | .regSet n v => Sys2Proof.Machine.execRegSet n v s
  | .dbgRegSet n v => Sys2Proof.Machine.execDbgRegSet n v s
  | .memGetW addr => Sys2Proof.Machine.execMemGetW addr s
  | .memGetH addr => Sys2Proof.Machine.execMemGetH addr s
  | .memGetB addr => Sys2Proof.Machine.execMemGetB addr s
  | .memSetW addr v => Sys2Proof.Machine.execMemSetW addr v s
  | .memSetH addr v => Sys2Proof.Machine.execMemSetH addr v s
  | .memSetB addr v => Sys2Proof.Machine.execMemSetB addr v s
  | .bpInsert addr => Sys2Proof.Machine.execBpInsert addr s
  | .bpRemove addr => Sys2Proof.Machine.execBpRemove addr s
  | .exitMark addr => Sys2Proof.Machine.execExitMark addr s
  | .slotGet sel => Sys2Proof.Machine.execSlotGet sel s
  | .retiredGet => Sys2Proof.Machine.execRetiredGet s

end Sys2Proof.Machine
end

