-- ==== Sys2Proof/Machine/Step.lean ====
section
/-!
DEFINITION. Machine/Step.lean: one step of the machine. The outside drives the block (R226): the oldest command waiting at
the host port is run, between two clocks (R210); with none waiting, the driver clocks the block, which runs the instruction
in slot.E (R171), and then drives the interrupt input for the next clock (log 8, log 9). A bus request runs as the poll of the
External instruction in slot.E (R83, log 11). An ill-formed configuration has no machine (R9).
-/

namespace Sys2Proof.Machine

/-- One step. -/
def step (s : State) : Host.Outcome State Fault Refusal :=
  match s.port with
  | [] => whenWellFormed s.cfg (onNext sampleInput (exec s.slotE.toInstr s))
  | r :: rest =>
    whenWellFormed s.cfg <|
      match decodeRequest r with
      | .ok i => exec i { s with port := rest }
      | .error _ => rejectRequest { s with port := rest }

/-- The state with an instruction placed where `step` takes its next one: a slot variant in slot.E with no command waiting, a
command at the head of the waiting ones, a bus request as the poll of an External instruction in slot.E whose Exec does
nothing else. Bits are numbered as opcode_table.json numbers them (log 8, log 11, log 12). -/
def State.withFetchWord (s : State) (nbits w : Nat) : State :=
  let r := rawOfTable nbits w
  match tablePort nbits w with
  | .host => { s with port := r :: s.port }
  | .bus =>
    { s with
      slotE := .external 0 0, port := [],
      execQ := pollingAnswer ⟨r.code.extractLsb' 0 3, r.a, r.b⟩ :: s.execQ }
  | .slot =>
    match decodeSlot r with
    | .ok i =>
      match i.toSlot with
      | some v => { s with slotE := v, port := [] }
      | none => s
    | .error _ => s

end Sys2Proof.Machine
end

