-- ==== Sys2Proof/Safety.lean ====
section
/-!
DEFINITION. Safety.lean: the predicates claims are stated in: the canonical forms, what the slots and the Access State can
hold, and the whole-machine invariant made of them; the fetch-slot invariant of R186, which one command breaks.
-/

namespace Sys2Proof.Machine

/-- Register 0 holds 0 (R21). -/
def zeroRegisterHolds (s : State) : Bool := s.x.get 0 == 0

/-- Storage is canonical and lists only bytes of LB or PB (R66). -/
def storageHolds (s : State) : Bool :=
  Memory.wf s.mem && s.mem.all fun c => decide (c.1 < 2 ^ 32) && isStorage s.cfg (BitVec.ofNat 32 c.1)

/-- A set of marks is canonical and marks only word addresses of LB or PB (R84, R220, R222). -/
def marksHold (c : Config) (marks : List Nat) : Bool :=
  rising marks && marks.all fun a => decide (a < 2 ^ 32) && fetchable c (BitVec.ofNat 32 a)

/-- A decoded word stands at a fetchable address, and an External is what Decode makes of its word (R84, R143). -/
def bodyHolds (c : Config) (b : Body) : Bool :=
  fetchable c b.pc &&
    match b with
    | .external a w => decodeWord c a w == .external a w
    | .illegal _ => true

/-- What a slot can hold: decoded words as Decode and Fetch make them, Unmapped only at an unfetchable address (R84, R86,
R140). -/
def slotHolds (c : Config) (v : Slot) : Bool :=
  match v with
  | .empty => true
  | .external a w => bodyHolds c (.external a w)
  | .illegal a => bodyHolds c (.illegal a)
  | .unmapped a => !fetchable c a
  | .intJump _ => true
  | .exit e => bodyHolds c e
  | .bp e => bodyHolds c e.body

/-- Whether a decoded word's copy is wrapped as the marks of its address say. -/
def wrappedAs (s : State) (a : Word) (isBreak isExit : Bool) : Bool :=
  s.breakMarks.contains a.toNat == isBreak && s.exitMarks.contains a.toNat == isExit

/-- A slot's copy of a store entry carries the wrappers of that entry: commands change the copies with the entry (R220 to
R222), and a fetch copies it (R86). Its word may be an old one (R95). -/
def slotMarksAgree (s : State) (v : Slot) : Bool :=
  match v with
  | .empty | .unmapped _ | .intJump _ => true
  | .external a _ | .illegal a => wrappedAs s a false false
  | .exit e => wrappedAs s e.pc false true
  | .bp (.plain e) => wrappedAs s e.pc true false
  | .bp (.exit e) => wrappedAs s e.pc true true

/-- The interrupt jump is installed straight into slot.E: never fetched, never in slot.F or slot.D (R154). -/
def notIntJump (v : Slot) : Bool :=
  match v with
  | .intJump _ => false
  | .empty | .external _ _ | .illegal _ | .unmapped _ | .exit _ | .bp _ => true

/-- An access in flight has its own class, has made at least one poll and fewer than its latency, and a read carries no
write data (R73, R75, R76). -/
def accessHolds (s : State) : Bool :=
  match s.acc.inFlight with
  | none => true
  | some (cls, polls, r) =>
    r == mkReq r.op r.size r.addr r.wdata && cls == classify s.cfg r && decide (1 ≤ polls) &&
      decide (polls < latency s.cfg cls r.op)

/-- An External instruction, under whatever marks (R83, R113). -/
def heldByExternal (v : Slot) : Bool :=
  match v with
  | .external _ _ | .exit (.external _ _) | .bp (.plain (.external _ _)) | .bp (.exit (.external _ _)) => true
  | .empty | .illegal _ | .unmapped _ | .intJump _ | .exit (.illegal _) | .bp (.plain (.illegal _))
  | .bp (.exit (.illegal _)) => false

/-- An access in flight belongs to the External instruction in slot.E: "Only the instruction in `slot.E` polls" and it stays
there until completion (R83, R177), unless it faulted out of it over its writes (`left`, log 20). -/
def accessOwned (s : State) : Bool :=
  match s.acc with
  | .idle | .left _ _ _ => true
  | .pending _ _ _ => heldByExternal s.slotE

/-- The invariant of the whole machine. -/
def Inv (s : State) : Bool :=
  zeroRegisterHolds s && storageHolds s && marksHold s.cfg s.breakMarks && marksHold s.cfg s.exitMarks &&
    slotHolds s.cfg s.slotF && slotHolds s.cfg s.slotD && slotHolds s.cfg s.slotE &&
    slotMarksAgree s s.slotF && slotMarksAgree s s.slotD && slotMarksAgree s s.slotE &&
    notIntJump s.slotF && notIntJump s.slotD && accessHolds s && accessOwned s

/-- `program_counter(slot.F) = pc` (R186). -/
def fetchSlotAtPc (s : State) : Bool := programCounter s.slotF == s.pc

/-- The next step is a normal-mode write of the pc, the one command that breaks R186. -/
def writesPcNormally (s : State) : Bool :=
  match s.port with
  | [] => false
  | r :: _ =>
    match decodeRequest r with
    | .ok (.regSet n _) => n == 32
    | .ok _ | .error _ => false

end Sys2Proof.Machine
end

