-- ==== Sys2Proof/Certificates/Slice0/Obligations.lean ====
section
/-!
DEFINITION. Certificates/Slice0/Obligations.lean: the statements about the model. A next state is written as an update of the
state before, so each equation is also the instruction's frame: what the update does not name is unchanged, storage and every
special register among it. `reply` and `busResp` are the model's output ports (log 15), `execQ` its input of Exec's answers
(log 4). Numeric codes and layouts are the spec's decisions D6, D8, D35, D41 (log 17).
-/

open Sys2Proof Sys2Proof.Machine

namespace Sys2Proof.Claims

/-! ## Words the statements use -/

/-- The request a bus instruction makes (R116). -/
def requestOf : Instr → Option BusReq
  | .busRb a => some ⟨.read, .byte, a, 0⟩
  | .busRh a => some ⟨.read, .half, a, 0⟩
  | .busRw a => some ⟨.read, .word, a, 0⟩
  | .busWb a v => some ⟨.write, .byte, a, v⟩
  | .busWh a v => some ⟨.write, .half, a, v⟩
  | .busWw a v => some ⟨.write, .word, a, v⟩
  | _ => none

/-- The debug store of a width (R217, R218, R219). -/
def memSetOf : Size → Word → Word → Instr
  | .word => .memSetW
  | .half => .memSetH
  | .byte => .memSetB

/-- The debug load of a width (R215, R216). -/
def memGetOf : Size → Word → Instr
  | .word => .memGetW
  | .half => .memGetH
  | .byte => .memGetB

/-- The next poll of `r` is poll number `n` of an access of class `cls` (R75). -/
def nextPollIs (s : State) (r : BusReq) (cls : AccessClass) (n : Nat) : Prop :=
  (s.acc.inFlight = none ∧ cls = classify s.cfg r ∧ n = 1) ∨ ∃ k, s.acc.inFlight = some (cls, k, r) ∧ n = k + 1

/-- No interrupt is taken in this clock (R259): one of the four conditions fails. -/
def noInterrupt (irq : Bool) (s : State) : Prop :=
  irq = false ∨ getFlag s.msr 1 = false ∨ s.immInFlight = true ∨ s.slotD = .empty

/-- `s` after the ordinary shift, the fetch made in the state `u` (R173). -/
def shiftedIn (u s : State) : State :=
  { s with pc := s.npc, npc := s.npc + 4, slotE := s.slotD, slotD := s.slotF, slotF := fetch u s.npc }

/-- `s` with the reply of a clock that returns NORMAL (R117). -/
def returnsNormal (s : State) : State := { s with reply := .status .normal }

/-- What the clock answers, `u` being the state after its step, is that of NORMAL (R175): retired + 1, and the ordinary shift
when no interrupt is taken, interrupt entry when one is (R259, R260). -/
def goesOnAsNormal (irq : Bool) (u : State) (o : Host.Outcome State Fault Refusal) : Prop :=
  (noInterrupt irq u →
    o = .next
      { u with
        retired := u.retired + 1, pc := u.npc, npc := u.npc + 4, slotE := u.slotD, slotD := u.slotF,
        slotF := fetch u u.npc, reply := .status .normal }) ∧
  (¬noInterrupt irq u →
    o = .next
      { u with
        retired := u.retired + 1, x := (writeGpr u u.cfg.intLink (programCounter u.slotD)).x,
        msr := u.msr &&& 0xFFFFFFFD, pc := u.npc, npc := u.npc + 4, slotE := .intJump (programCounter u.slotD),
        slotD := u.slotF, slotF := fetch u u.npc, reply := .status .normal })

/-- An answer of Exec with one redirect at most, whatever its access answers, that touches no other state (R144). -/
def withinR144 (ans : ExecAnswer) : Prop :=
  ans.writes.redirects.length ≤ 1 ∧ ans.onBusy.writes.redirects.length ≤ 1 ∧
    ans.onUnaligned.writes.redirects.length ≤ 1 ∧ ans.onUnmapped.writes.redirects.length ≤ 1 ∧ ans.touchesOther = false

/-- An answer of Exec that makes no poll, no access of the instruction's own being in flight, and keeps to the state R144
lists. -/
def noAccess (s : State) (ans : ExecAnswer) : Prop :=
  (∀ cls n r, s.acc ≠ .pending cls n r) ∧ ans.polls = [] ∧ withinR144 ans

/-- What Exec does on a response: it returns the outcome of this code and has written nothing. -/
def returnsOnly (ret : ExecReturn) (code : BitVec 4) : Prop := ret.code = code ∧ ret.writes = noWrites

/-- An answer of Exec that makes one poll, of request `r`, writes the registers `writes` when it is Ready and returns NORMAL; on
any other response it writes nothing and returns the outcome of R147 (R146). -/
def accessAnswer (ans : ExecAnswer) (r : BusReq) (writes : List (BitVec 5 × ExecVal)) : Prop :=
  ans.polls = [pollOf r] ∧ pollReq (pollOf r) = some r ∧ ans.writes = ⟨writes, [], []⟩ ∧
    returnsOnly ans.onBusy 0x1 ∧ returnsOnly ans.onUnaligned 0x9 ∧ returnsOnly ans.onUnmapped 0xC ∧
    ans.touchesOther = false ∧ ans.code = 0x0

/-- The outcome codes Exec may not return in a step that is not waiting: MEM_ACCESS_IN_PROGRESS, those of the markers, and the
reserved ones (R114, R145, R147). -/
def forbiddenCodes : List (BitVec 4) := [0x1, 0x4, 0x5, 0x6, 0x7, 0xB, 0xD, 0xE, 0xF]

/-- The codes of the faults Exec may report: DIVIDE_BY_ZERO, UNALIGNED, ILLEGAL, UNMAPPED_DATA (R114, R145). -/
def faultCodes : List (BitVec 4) := [0x8, 0x9, 0xA, 0xC]

/-- What the clock answers, `u` being the state after the writes of its step, is that of this fault of Exec (R121, R253, R255,
R257). -/
def faultsOver (irq : Bool) (u : State) (code : BitVec 4) (info : Word) (o : Host.Outcome State Fault Refusal) : Prop :=
  (getFlag u.msr 8 = true →
    o = .next
      { u with
        x := (writeGpr u u.cfg.excLink (programCounter u.slotE + 4)).x,
        esr := if code = 0x8 then 0x05 else if code = 0x9 then 0x01 else if code = 0xA then 0x02 else 0x04,
        ear := if code = 0x9 ∨ code = 0xC then info else u.ear,
        msr := (u.msr ||| 0x00000200) &&& 0xFFFFFEFF, immInFlight := false, pc := u.cfg.excVector,
        npc := u.cfg.excVector + 4, slotE := .empty, slotD := .empty, slotF := fetch u u.cfg.excVector,
        reply := .status .normal }) ∧
  (getFlag u.msr 8 = false → goesOnAsNormal irq { u with immInFlight := false } o)

/-- A breach with no treatment: another outcome than the one R147 pairs with the response, that is no fault over writes. -/
def unpaired (ret : ExecReturn) (code : BitVec 4) : Prop :=
  ret.code ≠ code ∧ (ret.code ∉ faultCodes ∨ ret.writes = noWrites)

/-- The same instruction run again and again, as the execute slot polls (R76). -/
def repeatExec : Nat → Instr → State → Host.Outcome State Fault Refusal
  | 0, _, s => .next s
  | k + 1, i, s =>
    match exec i s with
    | .next t => repeatExec k i t
    | .fault e => .fault e
    | .refused e => .refused e

/-- The host command codes that are not reserved (R118). -/
def commandCodes : List (BitVec 8) :=
  [0x01, 0x02, 0x10, 0x11, 0x12, 0x20, 0x21, 0x22, 0x24, 0x25, 0x26, 0x30, 0x31, 0x32, 0x40, 0x41]

/-- The CTL patterns that are not reserved (R113). -/
def controlCodes : List (BitVec 8) :=
  [0x00, 0x80, 0x81, 0x82, 0x83, 0xA0, 0xA1, 0xC0, 0xC1, 0xE0, 0xE1]

end Sys2Proof.Claims

open Sys2Proof.Claims

/-! ## Steps, reset, invariants -/

/-- R9, R75, R83, R171, R210, R226. A step runs the oldest waiting command, decoded, and with none waiting the instruction in
slot.E, after which the interrupt input takes its next level (log 8, log 9 are the model's choices). A bus request runs as the
poll of the External instruction in slot.E: the poll is exec of it, and the instruction goes on with its response (log 11). An
ill-formed configuration has no step: "A model has no machine for such a configuration; it refuses it". -/
def Obligations.StepRunsTheDecodedInstruction : Prop :=
  ∀ s : State,
    (s.cfg.wf = true →
      (s.port = [] → step s = onNext sampleInput (exec s.slotE.toInstr s)) ∧
      (∀ r rest i, s.port = r :: rest → decodeRequest r = .ok i → step s = exec i { s with port := rest }) ∧
      (∀ a w ans rest p i r, s.port = [] → s.slotE = .external a w → s.execQ = ans :: rest → ans.polls = [p] →
        withinR144 ans → decodeBus ⟨p.req.setWidth 8, p.addr, p.wdata⟩ = .ok i → requestOf i = some r →
        (∀ t, exec i { s with execQ := rest } = .next t →
          ∃ resp, t.busResp = some resp ∧
            step s = onNext sampleInput (finishCycle s.irq (afterPoll ans (fun _ => ans) r resp t))) ∧
        ∀ e, exec i { s with execQ := rest } = .refused e → step s = .refused e)) ∧
    (s.cfg.wf = false → step s = .refused .illFormedConfiguration)

/-- R40, R292. What the construction state holds: the reset values, npc, imm_in_flight, the Access State and retired being the
spec's decision D34, storage all 0 and unmarked. -/
def Obligations.ConstructionStateHoldsResetValues : Prop :=
  (∀ i : BitVec 5, readGpr State.reset i = 0) ∧ State.reset.pc = 0 ∧ State.reset.npc = 0 ∧ State.reset.msr = 0 ∧
    State.reset.ear = 0 ∧ State.reset.esr = 0 ∧ State.reset.btr = 0 ∧ State.reset.fsr = 0 ∧
    State.reset.slotF = .empty ∧ State.reset.slotD = .empty ∧ State.reset.slotE = .empty ∧
    State.reset.immInFlight = false ∧ State.reset.acc = .idle ∧ State.reset.retired = 0 ∧
    (∀ a, readByte State.reset.mem a = 0) ∧ State.reset.breakMarks = [] ∧ State.reset.exitMarks = []

/-- R21, R66, R73, R83, R84, R140. The invariant holds at construction, and so does R186. -/
def Obligations.InvariantHoldsAtConstruction : Prop :=
  Inv State.reset = true ∧ fetchSlotAtPc State.reset = true

/-- R21, R66, R73, R83, R84 to R86, R140, R154, R220 to R222. Every step keeps the invariant: register 0 is 0, storage is
canonical and lies in LB and PB, the marks are word addresses of storage, each slot holds what Decode and Fetch can make,
under the wrappers its address is marked with, the interrupt jump stands in slot.E alone, an access in flight is of its own
class and short of its latency, and it belongs to an External instruction that stands in slot.E, or one whose Exec has faulted
out of it over its writes, a breach (log 20). -/
def Obligations.EveryStepKeepsTheInvariant : Prop :=
  ∀ s t : State, Inv s = true → step s = .next t → Inv t = true

/-- R186 (the spec's derivation). Every step keeps program_counter(slot.F) = pc, but a normal-mode write of the pc. -/
def Obligations.EveryStepKeepsFetchSlotAtPc : Prop :=
  ∀ s t : State, fetchSlotAtPc s = true → writesPcNormally s = false → step s = .next t → fetchSlotAtPc t = true

/-- R39. "The configuration ... does not change after construction". -/
def Obligations.NoStepChangesTheConfiguration : Prop :=
  ∀ s t : State, step s = .next t → t.cfg = s.cfg

/-- R142, R144 to R149 (ASSUMED contract, D45), R172. With nothing given from outside, a well-formed block in a state that
meets the invariant always has a next step (the free answer of Exec keeps its contract: log 4, a choice of the model). -/
def Obligations.FreeRunningBlockAlwaysSteps : Prop :=
  ∀ s : State, s.cfg.wf = true → Inv s = true → s.port = [] → s.execQ = [] → ∃ t, step s = .next t

/-! ## Encodings -/

/-- R112, R113, R116, R118. Decoding what the encoder writes gives the instruction back, at its own port. -/
def Obligations.DecodeOfEncodeIsTheInstruction : Prop :=
  ∀ i : Instr, decode i.port (encode i) = .ok i

/-- R112, R113. The 72 bits "determine the slot variant completely" and each variant has one encoding: bits that decode to a
variant are the bits the encoder writes for it. -/
def Obligations.SlotBitsHaveOneMeaning : Prop :=
  (∀ r i, decodeSlot r = .ok i → encode i = r ∧ ∃ v : Slot, v.toInstr = i) ∧
    ∀ v u : Slot, v.bits = u.bits → v = u

/-- R112, R113, R116, R118, R122. The reserved patterns are rejected by name, and only they: a CTL byte outside the table; a
nonzero FPC or IW where R113 has 0; a command outside the table; SZ = 11 in a three-bit REQ. -/
def Obligations.ReservedBitsAreRejected : Prop :=
  (∀ r, decodeSlot r = .error .reservedControl ↔ r.code ∉ controlCodes) ∧
    (∀ r, decodeSlot r = .error .nonzeroField ↔
      (r.code = 0x00 ∧ (r.a ≠ 0 ∨ r.b ≠ 0)) ∨ (r.code ∈ [0x81, 0x82, 0x83, 0xA1, 0xC1, 0xE1] ∧ r.b ≠ 0)) ∧
    (∀ r, (∃ e, decodeHost r = .error e) ↔ r.code ∉ commandCodes) ∧
    (∀ r, decodeBus r = .error .reservedSize ↔ r.code = 0b011 ∨ r.code = 0b111)

/-- R113, R116, R118. Words written out from the tables decode to the instructions they stand for. -/
def Obligations.TableWordsDecode : Prop :=
  decodeSlot ⟨0b10000000, 0x8, 0x04600005⟩ = .ok (.external 0x8 0x04600005) ∧
    decodeSlot ⟨0b11100001, 0x40, 0⟩ = .ok (.breakpoint (.exit (.illegal 0x40))) ∧
    decodeBus ⟨0b101, 0x102, 0xBEEF⟩ = .ok (.busWh 0x102 0xBEEF) ∧
    decodeHost ⟨0b00010010, 32, 0x100⟩ = .ok (.dbgRegSet 32 0x100)

/-! ## Address map and storage -/

/-- R64. "Every address resolves to exactly one class, because the regions are disjoint": under a well-formed configuration the
class of an address is the one region that holds it, whatever the order of the tests. -/
def Obligations.RegionIsTheOneThatHoldsTheAddress : Prop :=
  ∀ (c : Config) (a : Word), c.wf = true →
    (region c a = .localBus ↔ c.localBus.lo.toNat ≤ a.toNat ∧ a.toNat ≤ c.localBus.hi.toNat) ∧
    (region c a = .peripheralBus ↔
      ∃ b, c.peripheralBus = some b ∧ b.lo.toNat ≤ a.toNat ∧ a.toNat ≤ b.hi.toNat) ∧
    (∀ d, region c a = .device d ↔ d ∈ c.devices ∧ d.addr.toNat ≤ a.toNat ∧ a.toNat ≤ d.addr.toNat + 3) ∧
    (region c a = .none ↔
      ¬(c.localBus.lo.toNat ≤ a.toNat ∧ a.toNat ≤ c.localBus.hi.toNat) ∧
      (∀ b, c.peripheralBus = some b → ¬(b.lo.toNat ≤ a.toNat ∧ a.toNat ≤ b.hi.toNat)) ∧
      ∀ d ∈ c.devices, ¬(d.addr.toNat ≤ a.toNat ∧ a.toNat ≤ d.addr.toNat + 3))

/-- R67, R68, R70 (big-endian order is the spec's decision D18, zero-extension D19). A read returns its bytes with the one at
the lowest address most significant, zero-extended. -/
def Obligations.ReadsAreBigEndianAndZeroExtended : Prop :=
  ∀ (s : State) (a : Word),
    memRead s a .byte = (readByte s.mem a.toNat).setWidth 32 ∧
    (aligned a .half = true →
      memRead s a .half = (readByte s.mem a.toNat ++ readByte s.mem (a.toNat + 1)).setWidth 32) ∧
    (aligned a .word = true →
      memRead s a .word =
        readByte s.mem a.toNat ++ readByte s.mem (a.toNat + 1) ++ readByte s.mem (a.toNat + 2) ++
          readByte s.mem (a.toNat + 3))

/-- R69, R70, R71, R217 to R219 (big-endian lanes are D18). A debug store of a width to aligned storage: nothing but storage (and
the reply) changes, of storage no byte outside the `n` bytes at `a`, and the debug load of that width reads the low bits of
the stored value back. -/
def Obligations.DebugStoreIsReadBackAndTouchesOnlyItsBytes : Prop :=
  ∀ (s : State) (size : Size) (a v : Word), Memory.wf s.mem = true → isStorage s.cfg a = true →
    aligned a size = true →
    ∃ t, exec (memSetOf size a v) s = .next t ∧ t = { s with mem := t.mem, reply := .ok } ∧
      (∀ b : Nat, b < a.toNat ∨ a.toNat + sizeBytes size ≤ b → readByte t.mem b = readByte s.mem b) ∧
      exec (memGetOf size a) t = .next { t with reply := .okWord (v &&& sizeMask size) }

/-- R85, R90. The debug write, in every case: misaligned and NONE and a sub-word on a device fail (D31); storage is written and
the store entries are those its words decode to, under the marks they had (D30, log 14); a device word calls Put_d once, which
the model records (log 10). "It does not read or change the Access State", and the slots are not changed. -/
def Obligations.DebugWriteByRegion : Prop :=
  ∀ (s : State) (size : Size) (a v : Word),
    (aligned a size = false → exec (memSetOf size a v) s = .next { s with reply := .fail .badAddress }) ∧
    (aligned a size = true →
      (region s.cfg a = .none → exec (memSetOf size a v) s = .next { s with reply := .fail .badAddress }) ∧
      (region s.cfg a = .localBus ∨ region s.cfg a = .peripheralBus →
        ∃ t, exec (memSetOf size a v) s = .next t ∧
          t = { s with
            mem := writeWord s.mem (wordAddr a) (merge (readWord s.mem (wordAddr a)) a size v), reply := .ok } ∧
          ∀ b, fetchable s.cfg b = true →
            fetch t b = wrapBody (s.breakMarks.contains b.toNat) (s.exitMarks.contains b.toNat)
              (decodeWord s.cfg b (readWord t.mem b.toNat))) ∧
      (∀ d, region s.cfg a = .device d →
        exec (memSetOf size a v) s = .next
          (if size = .word then { s with devCalls := .put d.addr v :: s.devCalls, reply := .ok }
           else { s with reply := .fail .badAddress })))

/-- R89 (rejecting a misaligned or sub-word device access is D31, calling Get_d D53). The debug read, in every case; the word of
a device is a free value (log 10). -/
def Obligations.DebugReadByRegion : Prop :=
  ∀ (s : State) (size : Size) (a : Word),
    (aligned a size = false → exec (memGetOf size a) s = .next { s with reply := .fail .badAddress }) ∧
    (aligned a size = true →
      (region s.cfg a = .none → exec (memGetOf size a) s = .next { s with reply := .fail .badAddress }) ∧
      (region s.cfg a = .localBus ∨ region s.cfg a = .peripheralBus →
        exec (memGetOf size a) s = .next { s with reply := .okWord (memRead s a size) }) ∧
      (∀ d, region s.cfg a = .device d →
        (size ≠ .word → exec (memGetOf size a) s = .next { s with reply := .fail .badAddress }) ∧
        (size = .word →
          ∃ v, exec (memGetOf size a) s =
            .next { s with devCalls := .get d.addr :: s.devCalls, seq := s.seq + 1, reply := .okWord v })))

/-- R217. MEM_SET_W: storage is written and its entry regenerated ("a subsequent fetch at `addr` decodes `v`"), wrappers kept; the
copies in the slots are not changed; BadAddress when misaligned or outside every region; a device word is put. -/
def Obligations.WordStoreIsWhatTheNextFetchDecodes : Prop :=
  ∀ (s : State) (a v : Word), Memory.wf s.mem = true →
    (aligned a .word = false ∨ region s.cfg a = .none →
      exec (.memSetW a v) s = .next { s with reply := .fail .badAddress }) ∧
    (∀ d, aligned a .word = true → region s.cfg a = .device d →
      exec (.memSetW a v) s = .next { s with devCalls := .put d.addr v :: s.devCalls, reply := .ok }) ∧
    (aligned a .word = true → isStorage s.cfg a = true →
      ∃ t, exec (.memSetW a v) s = .next t ∧ t = { s with mem := t.mem, reply := .ok } ∧
        fetch t a = wrapBody (s.breakMarks.contains a.toNat) (s.exitMarks.contains a.toNat) (decodeWord s.cfg a v))

/-- R86, R87 (a misaligned fetch is D26). Fetch never fails: it gives the store entry of a storage word, the variant it gives has
the fetched address as its pc, and it is the Unmapped marker exactly at a misaligned address or one outside LB and PB. -/
def Obligations.FetchGivesEntryOrUnmapped : Prop :=
  ∀ (s : State) (a : Word), programCounter (fetch s a) = a ∧
    (fetchable s.cfg a = true → fetch s a = entryAt s a) ∧
    (fetch s a = .unmapped a ↔ a.getLsbD 0 = true ∨ a.getLsbD 1 = true ∨ isStorage s.cfg a = false)

/-! ## The arbiter -/

/-- R75, R76, R78, R79, R115. "An access whose class has latency L returns Busy on polls 1 to L-1 and completes on poll L": each of the
six requests, polled from Idle, whatever its class (storage, device, unmapped, unaligned). Busy is the code 01 with value 0. -/
def Obligations.AccessIsBusyThenCompletesAtItsLatency : Prop :=
  ∀ (s : State) (i : Instr) (r : BusReq), s.cfg.wf = true → requestOf i = some r → s.acc = .idle →
    (∀ k, 1 ≤ k → k < latency s.cfg (classify s.cfg r) r.op →
      repeatExec k i s =
        .next { s with acc := .pending (classify s.cfg r) k r, busResp := some .busy }) ∧
    repeatExec (latency s.cfg (classify s.cfg r) r.op) i s =
      .next { (complete (classify s.cfg r) r s).2 with busResp := some (complete (classify s.cfg r) r s).1 } ∧
    BusResp.busy.bits = 0b01 ∧ BusResp.busy.value = 0

/-- R70, R80, R115. BUS_RB, BUS_RH, BUS_RW on storage: the last poll answers Ready, the code 00, with the lane read, and only the
Access State changes (sampling on the last poll is D23). -/
def Obligations.StorageReadIsReadyWithTheLane : Prop :=
  ∀ (s : State) (size : Size) (a : Word) (cls : AccessClass) (n : Nat) (i : Instr),
    requestOf i = some ⟨.read, size, a, 0⟩ → nextPollIs s ⟨.read, size, a, 0⟩ cls n →
    latency s.cfg cls .read ≤ n → (cls = .localBus ∨ cls = .peripheralBus) →
    ∃ resp : BusResp, exec i s = .next { s with acc := .idle, busResp := some resp } ∧
      resp = .ready (memRead s a size) ∧ resp.bits = 0b00 ∧ resp.value = memRead s a size

/-- R71, R80. BUS_WB, BUS_WH, BUS_WW on storage: the last poll answers Ready(0); of the state only the Access State and storage
change, of storage only the `n` bytes at the target address, and the bytes read back are the low bits of the data. -/
def Obligations.StorageWriteStoresItsLane : Prop :=
  ∀ (s : State) (size : Size) (a v : Word) (cls : AccessClass) (n : Nat) (i : Instr),
    Memory.wf s.mem = true → aligned a size = true →
    requestOf i = some ⟨.write, size, a, v⟩ → nextPollIs s ⟨.write, size, a, v⟩ cls n →
    latency s.cfg cls .write ≤ n → (cls = .localBus ∨ cls = .peripheralBus) →
    ∃ t, exec i s = .next t ∧ t = { s with acc := .idle, mem := t.mem, busResp := some (.ready 0) } ∧
      memRead t a size = v &&& sizeMask size ∧
      ∀ b : Nat, b < a.toNat ∨ a.toNat + sizeBytes size ≤ b → readByte t.mem b = readByte s.mem b

/-- R80, R81 (D23, D25). BUS_RW and BUS_WW on a device word: Get_d or Put_d is called exactly once, on the last poll. The word of
Get_d is a free value (log 10). -/
def Obligations.DeviceIsCalledOnceOnTheLastPoll : Prop :=
  ∀ (s : State) (d : Device) (a v : Word) (n : Nat),
    (nextPollIs s ⟨.read, .word, a, 0⟩ (.device d) n → d.rlat ≤ n →
      ∃ g, exec (.busRw a) s = .next
        { s with
          acc := .idle, devCalls := .get d.addr :: s.devCalls, seq := s.seq + 1, busResp := some (.ready g) }) ∧
    (nextPollIs s ⟨.write, .word, a, v⟩ (.device d) n → d.wlat ≤ n →
      exec (.busWw a v) s = .next
        { s with acc := .idle, devCalls := .put d.addr v :: s.devCalls, busResp := some (.ready 0) })

/-- R74, R78, R79, R82, R115 (alignment first is D20, a sub-word on a device D25). The class of a request that is misaligned, whatever
its region, and of an aligned one outside every region or a sub-word on a device word; and the last poll of such an access, of
any of the six requests: the fault, the code 10 or 11 with the target address, and no storage or device action. -/
def Obligations.FaultingPollTakesNoAction : Prop :=
  ∀ (s : State) (i : Instr) (r : BusReq) (cls : AccessClass) (n : Nat), requestOf i = some r →
    (aligned r.addr r.size = false → classify s.cfg r = .unaligned) ∧
    (aligned r.addr r.size = true →
      (region s.cfg r.addr = .none ∨ (∃ d, region s.cfg r.addr = .device d ∧ r.size ≠ .word)) →
      classify s.cfg r = .unmapped) ∧
    (nextPollIs s r cls n → latency s.cfg cls r.op ≤ n →
      (cls = .unaligned ∨ cls = .unmapped →
        ∃ resp : BusResp, exec i s = .next { s with acc := .idle, busResp := some resp } ∧
          resp.bits = (if cls = .unaligned then 0b10 else 0b11) ∧ resp.value = r.addr))

/-- R77, R122 (D24). A continuation poll with a different request is refused, of a request by itself and of an External
instruction; so is an External instruction's poll with the reserved size code. -/
def Obligations.PollsOutsideTheProtocolAreRefused : Prop :=
  (∀ (s : State) (i : Instr) (r r' : BusReq) (cls : AccessClass) (n : Nat), requestOf i = some r →
    s.acc.inFlight = some (cls, n, r') → r ≠ r' → exec i s = .refused .busProtocolViolation) ∧
  ∀ (s : State) (a w : Word) (ans : ExecAnswer) (rest : List ExecAnswer) (p : RawPoll), s.execQ = ans :: rest →
    withinR144 ans → ans.polls = [p] →
    (∀ r r' cls n, pollReq p = some r → s.acc.inFlight = some (cls, n, r') → r ≠ r' →
      exec (.external a w) s = .refused .busProtocolViolation) ∧
    (p.req = 0b011 ∨ p.req = 0b111 → exec (.external a w) s = .refused .busProtocolViolation)

/-! ## Slot variants and transitions -/

/-- R173. The ordinary shift: "PC←next-PC; next-PC←PC+4; execute←decode; decode←fetch; fetch←arbiter.fetch(PC)", shown on the
bubble, which does nothing else, in a clock that takes no interrupt. -/
def Obligations.BubbleMakesTheOrdinaryShift : Prop :=
  ∀ s : State, noInterrupt s.irq s →
    exec .empty s = .next
      { s with
        pc := s.npc, npc := s.npc + 4, slotE := s.slotD, slotD := s.slotF, slotF := fetch s s.npc,
        reply := .status .normal }

/-- R176, R259, R260 (D15). A bubble's clock with the interrupt pending, enabled, no prefix in flight and decode no bubble takes
the interrupt: link, IE alone cleared, the interrupt jump in slot.E, the fetch side shifted, nothing retired. -/
def Obligations.InterruptEntryFromABubble : Prop :=
  ∀ s : State, s.irq = true → getFlag s.msr 1 = true → s.immInFlight = false → s.slotD ≠ .empty →
    exec .empty s = .next
      { s with
        x := (writeGpr s s.cfg.intLink (programCounter s.slotD)).x, msr := s.msr &&& 0xFFFFFFFD,
        pc := s.npc, npc := s.npc + 4, slotE := .intJump (programCounter s.slotD), slotD := s.slotF,
        slotF := fetch s s.npc, reply := .status .normal }

/-- R150, R151, R251 to R255 (EE and the cleared bit are D7, the cause codes D8, EAR D9, no count D11). A taken fault of a marker:
link f + 4, ESR, EAR only for the unmapped fetch, EIP set, EE cleared, imm_in_flight cleared, redirect to EXC_VECTOR, flush. -/
def Obligations.MarkerFaultEntersTheHandler : Prop :=
  ∀ (s : State) (a : Word), getFlag s.msr 8 = true →
    exec (.illegal a) s = .next
      { s with
        x := (writeGpr s s.cfg.excLink (programCounter s.slotE + 4)).x, esr := 0x02,
        msr := (s.msr ||| 0x00000200) &&& 0xFFFFFEFF, immInFlight := false, pc := s.cfg.excVector,
        npc := s.cfg.excVector + 4, slotE := .empty, slotD := .empty, slotF := fetch s s.cfg.excVector,
        reply := .status .normal } ∧
    exec (.unmapped a) s = .next
      { s with
        x := (writeGpr s s.cfg.excLink (programCounter s.slotE + 4)).x, esr := 0x03, ear := a,
        msr := (s.msr ||| 0x00000200) &&& 0xFFFFFEFF, immInFlight := false, pc := s.cfg.excVector,
        npc := s.cfg.excVector + 4, slotE := .empty, slotD := .empty, slotF := fetch s s.cfg.excVector,
        reply := .status .normal }

/-- R257, R175, R34, R148 (D12, D16). A masked fault is NORMAL, of a marker and of an Exec that made no write: it retires, and the
pipeline shifts or takes an interrupt; no register, ESR, EAR or MSR bit is written for the fault. The Exec has completed, so it
clears imm_in_flight (DEDUCED against R146, log 7); that it may report codes 0x9 and 0xC with no access is log 5. -/
def Obligations.MaskedFaultIsNormal : Prop :=
  ∀ s : State, getFlag s.msr 8 = false →
    (∀ (i : Instr) (a : Word), i = .illegal a ∨ i = .unmapped a → goesOnAsNormal s.irq s (exec i s)) ∧
    ∀ (a w : Word) (ans : ExecAnswer) (rest : List ExecAnswer), s.execQ = ans :: rest → noAccess s ans →
      ans.writes = noWrites → ans.code ∈ faultCodes →
      goesOnAsNormal s.irq { s with execQ := rest, immInFlight := false } (exec (.external a w) s)

/-- R154, R179 (D15). The interrupt jump redirects to INT_VECTOR, flushes and retires. -/
def Obligations.InterruptJumpGoesToItsVector : Prop :=
  ∀ (s : State) (a : Word),
    exec (.intjump a) s = .next
      { s with
        retired := s.retired + 1, pc := s.cfg.intVector, npc := s.cfg.intVector + 4, slotE := .empty,
        slotD := .empty, slotF := fetch s s.cfg.intVector, reply := .status .normal }

/-- R155, R181 (a further cycle does the same: D40). ProgramExit returns STOPPED; it retires and changes nothing else, whatever
it wraps. -/
def Obligations.ProgramExitStopsAndOnlyRetires : Prop :=
  ∀ (s : State) (e : Body),
    exec (.programExit e) s = .next { s with retired := s.retired + 1, reply := .status .stopped }

/-- R180. BREAKPOINT returns BREAKPOINT_HIT with "no state mutation", whatever it wraps: retired, the slots, pc, npc and all
registers are unchanged, so a further cycle does the same. -/
def Obligations.BreakpointChangesNothing : Prop :=
  ∀ (s : State) (e : Marked),
    exec (.breakpoint e) s = .next { s with reply := .status .breakpointHit } ∧
    exec (.breakpoint e) { s with reply := .status .breakpointHit } =
      .next { s with reply := .status .breakpointHit }

/-- R21, R25, R31, R32, R144, R148, R149, R175 (D16, D45). An External instruction whose Exec writes a register, and perhaps a
special register and perhaps the pc, and returns NORMAL. Register 0 stays 0, any other holds the value, no other register
changes; the special register named holds its value, one of the PVR bank does not change; a WritePC shows in npc, from which
the shift goes on. It then retires and shifts, or takes the interrupt, an MSR just written deciding with the rest; an immediate
prefix leaves imm_in_flight set, which by itself keeps the interrupt out. -/
def Obligations.ExternalWritesItsRegisterAndAdvances : Prop :=
  ∀ (s : State) (a w v x : Word) (i : BitVec 5) (sp : Option SpecialReg) (tgt : Option Word) (ans : ExecAnswer)
    (rest : List ExecAnswer),
    s.execQ = ans :: rest → noAccess s ans → ans.code = 0x0 →
    ans.writes = ⟨[(i, .const v)], sp.toList.map fun r => (r, .const x), tgt.toList.map .const⟩ →
    ∃ u : State,
      u = { s with
        execQ := rest, x := u.x, immInFlight := ans.isImmPrefix,
        msr := if sp = some .msr then x else s.msr, ear := if sp = some .ear then x else s.ear,
        esr := if sp = some .esr then x else s.esr, btr := if sp = some .btr then x else s.btr,
        fsr := if sp = some .fsr then x else s.fsr, pc := tgt.getD s.pc,
        npc := (tgt.map (· + 4)).getD s.npc } ∧
      (∀ j, readGpr u j = if j = i then (if i = 0 then 0 else v) else readGpr s j) ∧
      goesOnAsNormal s.irq u (exec (.external a w) s)

/-- R179. JUMP_TAKEN, reported by an Exec that redirected to `tgt`: it retires, the two instructions behind it are discarded, fetch
continues at the redirected pc, no interrupt is checked. -/
def Obligations.JumpTakenFlushesAndRefetches : Prop :=
  ∀ (s : State) (a w tgt : Word) (ans : ExecAnswer) (rest : List ExecAnswer),
    s.execQ = ans :: rest → noAccess s ans → ans.writes = ⟨[], [], [.const tgt]⟩ →
    ans.code = 0x3 →
    exec (.external a w) s = .next
      { s with
        execQ := rest, immInFlight := false, retired := s.retired + 1, pc := tgt, npc := tgt + 4, slotE := .empty,
        slotD := .empty, slotF := fetch s tgt, reply := .status .normal }

/-- R178, R299 (the next clock is R259's derivation). DELAY_SLOT: the delay-slot instruction moves into slot.E, a bubble follows
it, the fetch is at the target, pc is not advanced; and the next clock takes no interrupt, whatever stands in the delay
slot. -/
def Obligations.DelaySlotRunsBeforeTheTarget : Prop :=
  ∀ (s : State) (a w tgt : Word) (ans : ExecAnswer) (rest : List ExecAnswer),
    s.execQ = ans :: rest → noAccess s ans → ans.writes = ⟨[], [], [.const tgt]⟩ →
    ans.code = 0x2 →
    ∃ t, exec (.external a w) s = .next t ∧
      t = { s with
        execQ := rest, immInFlight := false, retired := s.retired + 1, pc := tgt, npc := tgt + 4,
        slotE := s.slotD, slotD := .empty, slotF := fetch s tgt, reply := .status .normal } ∧
      ∀ (irq : Bool) (u : State) (b : Word), exec (.cycle irq) t = .next u → notIntJump s.slotD = true →
        u.slotE ≠ .intJump b

/-- R147, R177 (R174 is D14). A data access that is not ready: no architectural write, nothing retired, slot.E held; the fetch
side moves one place exactly when slot.D is a bubble. -/
def Obligations.BusyAccessStallsThePipeline : Prop :=
  ∀ (s : State) (a w : Word) (ans : ExecAnswer) (rest : List ExecAnswer) (r : BusReq)
    (wr : List (BitVec 5 × ExecVal)) (cls : AccessClass) (n : Nat),
    s.execQ = ans :: rest → accessAnswer ans r wr → nextPollIs s r cls n → n < latency s.cfg cls r.op →
    exec (.external a w) s = .next
      (if s.slotD = .empty then
        { s with
          execQ := rest, acc := .pending cls n r, busResp := some .busy, pc := s.npc, npc := s.npc + 4,
          slotD := s.slotF, slotF := fetch s s.npc, reply := .status .normal }
       else
        { s with execQ := rest, acc := .pending cls n r, busResp := some .busy, reply := .status .normal })

/-- R80, R147, R175, R298 (D23). A load on its last poll: the register named gets the lane read, in this very clock; storage is
unchanged. -/
def Obligations.LoadWritesItsRegisterOnTheLastPoll : Prop :=
  ∀ (s : State) (a w addr : Word) (size : Size) (i : BitVec 5) (ans : ExecAnswer) (rest : List ExecAnswer)
    (cls : AccessClass) (n : Nat),
    s.execQ = ans :: rest → accessAnswer ans ⟨.read, size, addr, 0⟩ [(i, .loaded)] →
    nextPollIs s ⟨.read, size, addr, 0⟩ cls n → latency s.cfg cls .read ≤ n →
    (cls = .localBus ∨ cls = .peripheralBus) → s.irq = false →
    ∃ t, exec (.external a w) s = .next t ∧
      t = { s with
        execQ := rest, x := t.x, acc := .idle, busResp := some (.ready (memRead s addr size)),
        immInFlight := ans.isImmPrefix, retired := s.retired + 1, pc := s.npc, npc := s.npc + 4,
        slotE := s.slotD, slotD := s.slotF, slotF := fetch s s.npc, reply := .status .normal } ∧
      readGpr t i = (if i = 0 then 0 else memRead s addr size) ∧ ∀ j, j ≠ i → readGpr t j = readGpr s j

/-- R12, R80, R95, R300 (D23). A store on its last poll: its lane is written, no other byte, and the fetch made in the same clock
sees the new word; the instructions already in slot.D and slot.F move on as they are. -/
def Obligations.StoreIsSeenByTheFetchOfItsClock : Prop :=
  ∀ (s : State) (a w addr v : Word) (size : Size) (ans : ExecAnswer) (rest : List ExecAnswer)
    (cls : AccessClass) (n : Nat),
    Memory.wf s.mem = true → aligned addr size = true →
    s.execQ = ans :: rest → accessAnswer ans ⟨.write, size, addr, v⟩ [] →
    nextPollIs s ⟨.write, size, addr, v⟩ cls n → latency s.cfg cls .write ≤ n →
    (cls = .localBus ∨ cls = .peripheralBus) → s.irq = false →
    ∃ t, exec (.external a w) s = .next t ∧
      t = { s with
        execQ := rest, mem := t.mem, acc := .idle, busResp := some (.ready 0), immInFlight := ans.isImmPrefix,
        retired := s.retired + 1, pc := s.npc, npc := s.npc + 4, slotE := s.slotD, slotD := s.slotF,
        slotF := fetch { s with mem := t.mem } s.npc, reply := .status .normal } ∧
      memRead t addr size = v &&& sizeMask size ∧
      ∀ b : Nat, b < addr.toNat ∨ addr.toNat + sizeBytes size ≤ b → readByte t.mem b = readByte s.mem b

/-- R145, R146, R147, R250, R253, R255, R257 (D7, D8, D9, D16, D45; U6). A fault an Exec reports, over whatever it has written:
`u` is the state with those writes. With faults enabled there, entry is taken: DIVIDE_BY_ZERO and ILLEGAL leave EAR, UNALIGNED
and UNMAPPED_DATA write it with the info address; masked, the clock is that of NORMAL, imm_in_flight cleared (DEDUCED, log 7).
First of a step that makes no poll, which may report codes 0x9 and 0xC too (log 5): with no access of its own in flight, or with
one, which it then leaves in flight (log 20). Then of a step that has written something when it polls: on Busy, the access
again left in flight; on Unaligned and Unmapped, with the outcome R147 pairs with the response (the info is its address) or
another fault (the info is the answer's own); and on Ready. That a write with no effect and a device write on Ready count as
written is the model's choice (log 21). -/
def Obligations.ExternalFaultEntersTheHandler : Prop :=
  ∀ (s : State) (a w : Word) (ans : ExecAnswer) (rest : List ExecAnswer), s.execQ = ans :: rest →
    (∀ u : State, withinR144 ans → ans.polls = [] →
      ((∀ cls n r, s.acc ≠ .pending cls n r) ∨ ans.writes ≠ noWrites) → ans.code ∈ faultCodes →
      u = applyWrites (resolveWrites 0 ans.writes) { s with execQ := rest, acc := s.acc.leave } →
      faultsOver s.irq u ans.code ans.info (exec (.external a w) s)) ∧
    (∀ (r : BusReq) (cls : AccessClass) (n : Nat) (resp : BusResp) (acc : AccessState) (ret : ExecReturn)
      (info : Word) (u : State),
      withinR144 ans → ans.polls = [pollOf r] → pollReq (pollOf r) = some r → nextPollIs s r cls n →
      ((n < latency s.cfg cls r.op ∧ resp = .busy ∧ ret = ans.onBusy ∧ acc = .left cls n r ∧ info = ret.info) ∨
        (latency s.cfg cls r.op ≤ n ∧ cls = .unaligned ∧ resp = .unaligned r.addr ∧ ret = ans.onUnaligned ∧
          acc = .idle ∧ info = if ret.code = 0x9 then r.addr else ret.info) ∨
        (latency s.cfg cls r.op ≤ n ∧ cls = .unmapped ∧ resp = .unmapped r.addr ∧ ret = ans.onUnmapped ∧
          acc = .idle ∧ info = if ret.code = 0xC then r.addr else ret.info)) →
      ret.writes ≠ noWrites → ret.code ∈ faultCodes →
      u = applyWrites ret.writes { s with execQ := rest, acc := acc, busResp := some resp } →
      faultsOver s.irq u ret.code info (exec (.external a w) s)) ∧
    ∀ (r : BusReq) (cls : AccessClass) (n : Nat) (d : Word) (v u : State),
      withinR144 ans → ans.polls = [pollOf r] → pollReq (pollOf r) = some r → nextPollIs s r cls n →
      latency s.cfg cls r.op ≤ n → complete cls r { s with execQ := rest, acc := .idle } = (.ready d, v) →
      (r.op = .write ∨ ans.writes ≠ noWrites) → ans.code ∈ faultCodes →
      u = applyWrites (resolveWrites d ans.writes) { v with busResp := some (.ready d) } →
      faultsOver s.irq u ans.code ans.info (exec (.external a w) s)

/-- R78, R79, R147, R253, R257 (D20, D21). The reporting poll of an External instruction's access of class unaligned or unmapped,
whichever poll that is: with faults enabled UNALIGNED or UNMAPPED_DATA is taken with EAR the target address, whatever the width
and direction; masked, the clock is that of NORMAL, imm_in_flight cleared (R34, R148; DEDUCED against R146, log 7). -/
def Obligations.FaultingAccessIsTakenWithItsAddress : Prop :=
  ∀ (s : State) (a w : Word) (ans : ExecAnswer) (rest : List ExecAnswer) (r : BusReq)
    (wr : List (BitVec 5 × ExecVal)) (cls : AccessClass) (n : Nat) (resp : BusResp) (ec : Word),
    s.execQ = ans :: rest → accessAnswer ans r wr → nextPollIs s r cls n → latency s.cfg cls r.op ≤ n →
    ((cls = .unaligned ∧ resp = .unaligned r.addr ∧ ec = 0x01) ∨
      (cls = .unmapped ∧ resp = .unmapped r.addr ∧ ec = 0x04)) →
    (getFlag s.msr 8 = true →
      exec (.external a w) s = .next
        { s with
          execQ := rest, acc := .idle, busResp := some resp,
          x := (writeGpr s s.cfg.excLink (programCounter s.slotE + 4)).x, esr := ec, ear := r.addr,
          msr := (s.msr ||| 0x00000200) &&& 0xFFFFFEFF, immInFlight := false, pc := s.cfg.excVector,
          npc := s.cfg.excVector + 4, slotE := .empty, slotD := .empty, slotF := fetch s s.cfg.excVector,
          reply := .status .normal }) ∧
    (getFlag s.msr 8 = false →
      goesOnAsNormal s.irq
        { s with execQ := rest, acc := .idle, busResp := some resp, immInFlight := false }
        (exec (.external a w) s))

/-- R122, R144, R145, R147, R149 (D45; U4, U5, and log 5 for the breaches these do not name). The breaches that are refused: two
polls, two redirects, other state touched; no poll while an access of its own is in flight; with no access or with one Ready, an
outcome that waits, that belongs to a marker or is reserved, and a branch outcome with no redirect; a fault after a Ready read
with nothing written; on Busy, any outcome but MEM_ACCESS_IN_PROGRESS, and a write before that; on Unaligned and Unmapped, any
outcome but the one R147 pairs with the response. A fault after writes is none of them, but runs whatever the response (R146,
U6; ExternalFaultEntersTheHandler). That a write with no effect counts as a write is the model's choice (log 21). -/
def Obligations.ListedContractBreachesAreRefused : Prop :=
  ∀ (s : State) (a w : Word) (ans : ExecAnswer) (rest : List ExecAnswer), s.execQ = ans :: rest →
    ((2 ≤ ans.polls.length ∨ 2 ≤ ans.writes.redirects.length ∨
        2 ≤ ans.onBusy.writes.redirects.length ∨ 2 ≤ ans.onUnaligned.writes.redirects.length ∨
        2 ≤ ans.onUnmapped.writes.redirects.length ∨
        ans.touchesOther = true ∨
        (ans.polls = [] ∧ (∃ cls n r, s.acc = .pending cls n r) ∧
          (ans.code ∉ faultCodes ∨ ans.writes = noWrites)) ∨
        (ans.polls = [] ∧
          (ans.code ∈ forbiddenCodes ∨ (ans.code ∈ [0x2, 0x3] ∧ ans.writes.redirects = [])))) →
      exec (.external a w) s = .refused .execProtocolViolation) ∧
    ∀ (r : BusReq) (cls : AccessClass) (n : Nat), withinR144 ans → ans.polls = [pollOf r] →
      pollReq (pollOf r) = some r → nextPollIs s r cls n →
      ((n < latency s.cfg cls r.op ∧
          (unpaired ans.onBusy 0x1 ∨ (ans.onBusy.code = 0x1 ∧ ans.onBusy.writes ≠ noWrites))) ∨
        (latency s.cfg cls r.op ≤ n ∧ cls = .unaligned ∧ unpaired ans.onUnaligned 0x9) ∨
        (latency s.cfg cls r.op ≤ n ∧ cls = .unmapped ∧ unpaired ans.onUnmapped 0xC) ∨
        (latency s.cfg cls r.op ≤ n ∧ cls ≠ .unaligned ∧ cls ≠ .unmapped ∧
          (ans.code ∈ forbiddenCodes ∨ (ans.code ∈ [0x2, 0x3] ∧ ans.writes.redirects = []) ∨
            (ans.code ∈ faultCodes ∧ r.op = .read ∧ ans.writes = noWrites)))) →
      exec (.external a w) s = .refused .execProtocolViolation

/-- R144. What no External instruction can touch, whatever its Exec does (`drawAnswer` is the answer it makes, given or free).
In its clock: the configuration, the marks, the waiting commands and the interrupt input. In its step: the slots, the counter,
and npc but by WritePC. Storage, the Access State and the devices only by its poll; and of storage a poll changes nothing but
the bytes of its own write. -/
def Obligations.ExternalKeepsToItsState : Prop :=
  ∀ (s : State) (a w : Word),
    (∀ oc info u, stepExternal a w s = .ok (oc, info, u) →
      u.slotF = s.slotF ∧ u.slotD = s.slotD ∧ u.slotE = s.slotE ∧ u.retired = s.retired ∧
        ((u.pc = s.pc ∧ u.npc = s.npc) ∨ u.npc = u.pc + 4)) ∧
    ∀ t, exec (.external a w) s = .next t →
      t.cfg = s.cfg ∧ t.breakMarks = s.breakMarks ∧ t.exitMarks = s.exitMarks ∧ t.port = s.port ∧ t.irq = s.irq ∧
      ((drawAnswer a w s).1.polls = [] → t.mem = s.mem ∧ t.acc.inFlight = s.acc.inFlight ∧ t.devCalls = s.devCalls) ∧
      (∀ p r, (drawAnswer a w s).1.polls = [p] → pollReq p = some r →
        (r.op = .read → t.mem = s.mem) ∧
        (r.op = .write → Inv s = true →
          ∀ b : Nat, b < r.addr.toNat ∨ r.addr.toNat + sizeBytes r.size ≤ b → readByte t.mem b = readByte s.mem b))

/-! ## The clock command -/

/-- R170, R171, R172. CYCLE steps the instruction in slot.E with A[0] on the interrupt input: it is that instruction's own clock,
the input's level being this command's. -/
def Obligations.CycleIsTheClockOfTheExecuteSlot : Prop :=
  ∀ (s : State) (irq : Bool),
    exec (.cycle irq) s = onNext (fun t => { t with irq := s.irq }) (exec s.slotE.toInstr { s with irq := irq })

/-- R170, R173, R176. CYCLE on a bubble, with no interrupt taken: the ordinary shift, nothing retired. -/
def Obligations.CycleOnABubbleShifts : Prop :=
  ∀ (s : State) (irq : Bool), s.slotE = .empty → noInterrupt irq s →
    exec (.cycle irq) s = .next (returnsNormal (shiftedIn s s))

/-- R184, R259 (the spec's derivation). Whatever stands in slot.E, a clock puts the interrupt jump into it only when the interrupt
is pending, decode held an instruction, and after the step (u) the interrupt is enabled, no prefix is in flight and the outcome
is NORMAL, EMPTY or a masked fault. So it was enabled before, unless an External instruction has just written the MSR. -/
def Obligations.InterruptOnlyInItsWindow : Prop :=
  ∀ (s t : State) (irq : Bool) (a : Word), notIntJump s.slotD = true → exec (.cycle irq) s = .next t →
    t.slotE = .intJump a →
    irq = true ∧ s.slotD ≠ .empty ∧ a = programCounter s.slotD ∧ t.immInFlight = false ∧
      (∃ oc info u, stepSlot s.slotE s = .ok (oc, info, u) ∧ getFlag u.msr 1 = true ∧ u.immInFlight = false ∧
        (oc = .normal ∨ oc = .empty ∨ (isFaultCode oc = true ∧ getFlag u.msr 8 = false))) ∧
      ((∀ b w, s.slotE ≠ .external b w) → getFlag s.msr 1 = true ∧ s.immInFlight = false) ∧
      ∀ b w ans rest, s.slotE = .external b w → s.execQ = ans :: rest →
        (∀ p ∈ ans.writes.specials, p.1 ≠ .msr) → (∀ p ∈ ans.onBusy.writes.specials, p.1 ≠ .msr) →
        (∀ p ∈ ans.onUnaligned.writes.specials, p.1 ≠ .msr) →
        (∀ p ∈ ans.onUnmapped.writes.specials, p.1 ≠ .msr) → getFlag s.msr 1 = true

/-- R36, R175 to R181, R253, R257 (D11). What a clock adds to the retired counter: 1 for the interrupt jump, an exit marker and a
masked marker fault; 0 for a bubble, a breakpoint and a taken marker fault; and for an External instruction by the outcome of its
step, 0 on MEM_ACCESS_IN_PROGRESS and on a fault taken (EE as its step left it), else 1. -/
def Obligations.RetiredCountsByOutcome : Prop :=
  ∀ (s t : State) (irq : Bool), exec (.cycle irq) s = .next t →
    match s.slotE with
    | .empty | .bp _ => t.retired = s.retired
    | .intJump _ | .exit _ => t.retired = s.retired + 1
    | .illegal _ | .unmapped _ => t.retired = if getFlag s.msr 8 then s.retired else s.retired + 1
    | .external a w =>
      ∃ oc info u, stepExternal a w s = .ok (oc, info, u) ∧
        t.retired =
          if oc = .memAccessInProgress ∨ (isFaultCode oc = true ∧ getFlag u.msr 8 = true) then s.retired
          else s.retired + 1

/-- R28, R29, R30, R31 (D10, D43). The controller writes no MSR bit but IE, EE and EIP, and never BTR or FSR: in a clock of any
variant but an External one, carry, BIP and every unnamed bit stay. -/
def Obligations.ControllerWritesOnlyItsStatusBits : Prop :=
  ∀ (s t : State) (irq : Bool), (∀ a w, s.slotE ≠ .external a w) → exec (.cycle irq) s = .next t →
    t.btr = s.btr ∧ t.fsr = s.fsr ∧ ∀ k, k ≠ 1 → k ≠ 8 → k ≠ 9 → t.msr.getLsbD k = s.msr.getLsbD k

/-- R187, R262, R302 (the spec's derivation). The handler's first instruction stands in slot.E, to be stepped, three clocks after
the one that took a marker's fault, interrupts being away: two bubbles are stepped in between. -/
def Obligations.HandlerIsSteppedThreeClocksAfterTheFault : Prop :=
  ∀ (s : State) (a : Word), getFlag s.msr 8 = true → (s.slotE = .illegal a ∨ s.slotE = .unmapped a) →
    ∃ t, repeatExec 3 (.cycle false) s = .next t ∧ t.slotE = fetch s s.cfg.excVector ∧
      t.slotD = fetch s (s.cfg.excVector + 4) ∧ t.slotF = fetch s (s.cfg.excVector + 8) ∧
      t.pc = s.cfg.excVector + 8 ∧ t.retired = s.retired

/-! ## Host commands -/

/-- R290, R291 (npc, imm_in_flight, the Access State and retired: D34). RESET, in full: what the update does not name, storage,
marks and configuration among it, is unchanged, and no device is called. -/
def Obligations.ResetClearsTheRegisterFileAndSlots : Prop :=
  ∀ s : State,
    ∃ t, exec .reset s = .next t ∧ (∀ i : BitVec 5, readGpr t i = 0) ∧
      t = { s with
        x := t.x, pc := 0, npc := 0, msr := 0, ear := 0, esr := 0, btr := 0, fsr := 0, slotF := .empty,
        slotD := .empty, slotE := .empty, immInFlight := false, acc := .idle, retired := 0, reply := .ok }

/-- R26, R119, R211, R212 (the numbers are D35, what a PC read returns D50). REG_GET by number; it changes nothing. -/
def Obligations.RegGetReadsByNumber : Prop :=
  ∀ (s : State) (n : Word),
    (n.toNat < 32 → exec (.regGet n) s = .next { s with reply := .okWord (readGpr s (n.extractLsb' 0 5)) }) ∧
    (n = 32 → exec (.regGet n) s = .next { s with reply := .okWord s.pc }) ∧
    (n = 33 → exec (.regGet n) s = .next { s with reply := .okWord s.msr }) ∧
    (n = 34 → exec (.regGet n) s = .next { s with reply := .okWord s.ear }) ∧
    (n = 35 → exec (.regGet n) s = .next { s with reply := .okWord s.esr }) ∧
    (n = 36 → exec (.regGet n) s = .next { s with reply := .okWord s.fsr }) ∧
    (n = 37 → exec (.regGet n) s = .next { s with reply := .okWord s.btr }) ∧
    (∀ k v, n.toNat = 38 + k → s.cfg.pvr[k]? = some v → exec (.regGet n) s = .next { s with reply := .okWord v }) ∧
    (38 + s.cfg.pvr.length ≤ n.toNat → exec (.regGet n) s = .next { s with reply := .fail .badRegister })

/-- R21, R25, R31, R119, R211, R213 (the numbers are D35; no refill of the slots D33; the PVR failure D37). REG_SET by number:
register 0 stays 0, the pc write sets npc and leaves the slots, a PVR register is read-only. -/
def Obligations.RegSetWritesByNumber : Prop :=
  ∀ (s : State) (n v : Word),
    (n.toNat < 32 →
      ∃ t, exec (.regSet n v) s = .next t ∧ t = { s with x := t.x, reply := .ok } ∧
        readGpr t (n.extractLsb' 0 5) = (if n = 0 then 0 else v) ∧
        ∀ j, j ≠ n.extractLsb' 0 5 → readGpr t j = readGpr s j) ∧
    (n = 32 → exec (.regSet n v) s = .next { s with pc := v, npc := v + 4, reply := .ok }) ∧
    (n = 33 → exec (.regSet n v) s = .next { s with msr := v, reply := .ok }) ∧
    (n = 34 → exec (.regSet n v) s = .next { s with ear := v, reply := .ok }) ∧
    (n = 35 → exec (.regSet n v) s = .next { s with esr := v, reply := .ok }) ∧
    (n = 36 → exec (.regSet n v) s = .next { s with fsr := v, reply := .ok }) ∧
    (n = 37 → exec (.regSet n v) s = .next { s with btr := v, reply := .ok }) ∧
    (38 ≤ n.toNat → n.toNat < 38 + s.cfg.pvr.length →
      exec (.regSet n v) s = .next { s with reply := .fail .readOnly }) ∧
    (38 + s.cfg.pvr.length ≤ n.toNat → exec (.regSet n v) s = .next { s with reply := .fail .badRegister })

/-- R83, R214 (D32). DBG_REG_SET of the pc refills the pipeline and abandons the access in flight; of any other number it is
REG_SET. -/
def Obligations.DebugPcWriteRefillsThePipeline : Prop :=
  ∀ (s : State) (n v : Word),
    (n = 32 →
      exec (.dbgRegSet n v) s = .next
        { s with
          pc := v, npc := v + 4, slotE := .empty, slotD := .empty, slotF := fetch s v, acc := .idle,
          immInFlight := false, reply := .ok }) ∧
    (n ≠ 32 → exec (.dbgRegSet n v) s = exec (.regSet n v) s)

/-- R84, R220 (wrapping the copies in slots is D28). BP_INSERT: rejected at an address that is not a storage word and at one
already marked; else the entry there is wrapped and no other, and so are its copies in the slots. -/
def Obligations.BreakpointInsertWrapsEntryAndCopies : Prop :=
  ∀ (s : State) (a : Word),
    (fetchable s.cfg a = false → exec (.bpInsert a) s = .next { s with reply := .fail .badAddress }) ∧
    (fetchable s.cfg a = true → a.toNat ∈ s.breakMarks →
      exec (.bpInsert a) s = .next { s with reply := .fail .alreadySet }) ∧
    (fetchable s.cfg a = true → a.toNat ∉ s.breakMarks →
      ∃ t e, exec (.bpInsert a) s = .next t ∧
        t = { s with
          breakMarks := t.breakMarks, slotF := wrapBreak a s.slotF, slotD := wrapBreak a s.slotD,
          slotE := wrapBreak a s.slotE, reply := .ok } ∧
        fetch t a = .bp e ∧ markedSlot e = fetch s a ∧ ∀ b, b ≠ a → fetch t b = fetch s b)

/-- R221 (S3; that the slots come back too is the spec's derivation). Insert then remove at an unmarked storage word restores the
machine: store, slots and everything else; removing without an insert is rejected. -/
def Obligations.InsertThenRemoveRestoresTheMachine : Prop :=
  ∀ (s : State) (a : Word), Inv s = true → fetchable s.cfg a = true → a.toNat ∉ s.breakMarks →
    exec (.bpRemove a) s = .next { s with reply := .fail .notSet } ∧
    ∃ t, exec (.bpInsert a) s = .next t ∧ exec (.bpRemove a) t = .next { s with reply := .ok }

/-- R221. BP_REMOVE: rejected at an address that is not a storage word; at a marked one the entry is unwrapped and no other, and
so are its copies in the slots. -/
def Obligations.BreakpointRemoveUnwrapsEntryAndCopies : Prop :=
  ∀ (s : State) (a : Word),
    (fetchable s.cfg a = false → exec (.bpRemove a) s = .next { s with reply := .fail .badAddress }) ∧
    (fetchable s.cfg a = true → a.toNat ∈ s.breakMarks →
      ∃ t e, exec (.bpRemove a) s = .next t ∧
        t = { s with
          breakMarks := t.breakMarks, slotF := unwrapBreak a s.slotF, slotD := unwrapBreak a s.slotD,
          slotE := unwrapBreak a s.slotE, reply := .ok } ∧
        fetch s a = .bp e ∧ fetch t a = markedSlot e ∧ ∀ b, b ≠ a → fetch t b = fetch s b)

/-- R222 (D29). EXIT_MARK: rejected at an address that is not a storage word and at one already marked; else the entry is wrapped,
inside its Breakpoint if it has one, and no other entry, and so are its copies in the slots. -/
def Obligations.ExitMarkWrapsEntryAndCopies : Prop :=
  ∀ (s : State) (a : Word),
    (fetchable s.cfg a = false → exec (.exitMark a) s = .next { s with reply := .fail .badAddress }) ∧
    (fetchable s.cfg a = true → a.toNat ∈ s.exitMarks →
      exec (.exitMark a) s = .next { s with reply := .fail .alreadySet }) ∧
    (fetchable s.cfg a = true → a.toNat ∉ s.exitMarks →
      ∃ t, exec (.exitMark a) s = .next t ∧
        t = { s with
          exitMarks := t.exitMarks, slotF := wrapExit a s.slotF, slotD := wrapExit a s.slotD,
          slotE := wrapExit a s.slotE, reply := .ok } ∧
        (∃ e, fetch t a = .exit e ∨ fetch t a = .bp (.exit e)) ∧ fetch t a = wrapExit a (fetch s a) ∧
        ∀ b, b ≠ a → fetch t b = fetch s b)

/-- R223. SLOT_GET returns the 72 bits CTL, FPC, IW of the slot named, 0 fetch, 1 decode, 2 execute, and BadSlot for a selector
above 2; it changes nothing. -/
def Obligations.SlotGetReturnsTheEncoding : Prop :=
  ∀ (s : State) (n : Word),
    (n = 0 → exec (.slotGet n) s = .next { s with reply := .okSlot s.slotF.bits }) ∧
    (n = 1 → exec (.slotGet n) s = .next { s with reply := .okSlot s.slotD.bits }) ∧
    (n = 2 → exec (.slotGet n) s = .next { s with reply := .okSlot s.slotE.bits }) ∧
    (2 < n.toNat → exec (.slotGet n) s = .next { s with reply := .fail .badSlot })

/-- R224, R268. RETIRED_GET returns the 64-bit counter and changes nothing. -/
def Obligations.RetiredGetReturnsTheCounter : Prop :=
  ∀ s : State, exec .retiredGet s = .next { s with reply := .okCount s.retired }

/-- R225. "A reserved `CMD` returns `FAIL(BadCommand)` and changes nothing": the step only takes the request off the port. -/
def Obligations.ReservedCommandFailsAndChangesNothing : Prop :=
  ∀ (s : State) (r : RawWord) (rest : List RawWord), s.cfg.wf = true → s.port = r :: rest →
    r.code ∉ commandCodes → step s = .next { s with port := rest, reply := .fail .badCommand }

/-- R210. A command that fails "changes no state". -/
def Obligations.FailingCommandChangesNothing : Prop :=
  ∀ (s t : State) (i : Instr) (reason : FailReason), i.port = .host → exec i s = .next t →
    t.reply = .fail reason → t = { s with reply := .fail reason }

/-- R210. "No command other than `CYCLE` and `RESET` touches `retired`", and every one of them has a next state: none is refused. -/
def Obligations.CommandsAlwaysAnswerAndKeepRetired : Prop :=
  ∀ (s : State) (i : Instr), i.port = .host → (∀ irq, i ≠ .cycle irq) →
    ∃ t, exec i s = .next t ∧ (i ≠ .reset → t.retired = s.retired)
end

