-- ==== Sys2Proof/Laws/State.lean ====
section
/-!
SUPPORT. Laws/State.lean: for each update of the state, one lemma per field: the field after it. Fetch reads the
configuration, storage and the marks only.
-/

namespace Sys2Proof.Machine

/-- Fetch depends on the configuration, storage and the marks alone (R86: it reads no Access State). -/
theorem fetch_congr {s t : State} (hc : t.cfg = s.cfg) (hm : t.mem = s.mem) (hb : t.breakMarks = s.breakMarks)
    (he : t.exitMarks = s.exitMarks) (a : Word) : fetch t a = fetch s a := by
  simp only [fetch, entryAt, hc, hm, hb, he]

/-! ### writeGpr -/

@[simp] theorem writeGpr_cfg (s : State) (i : BitVec 5) (v : Word) : (writeGpr s i v).cfg = s.cfg := rfl

@[simp] theorem writeGpr_x (s : State) (i : BitVec 5) (v : Word) :
    (writeGpr s i v).x = s.x.set i.toNat (if i = 0 then 0 else v) i.isLt := rfl

@[simp] theorem writeGpr_pc (s : State) (i : BitVec 5) (v : Word) : (writeGpr s i v).pc = s.pc := rfl

@[simp] theorem writeGpr_npc (s : State) (i : BitVec 5) (v : Word) : (writeGpr s i v).npc = s.npc := rfl

@[simp] theorem writeGpr_msr (s : State) (i : BitVec 5) (v : Word) : (writeGpr s i v).msr = s.msr := rfl

@[simp] theorem writeGpr_ear (s : State) (i : BitVec 5) (v : Word) : (writeGpr s i v).ear = s.ear := rfl

@[simp] theorem writeGpr_esr (s : State) (i : BitVec 5) (v : Word) : (writeGpr s i v).esr = s.esr := rfl

@[simp] theorem writeGpr_btr (s : State) (i : BitVec 5) (v : Word) : (writeGpr s i v).btr = s.btr := rfl

@[simp] theorem writeGpr_fsr (s : State) (i : BitVec 5) (v : Word) : (writeGpr s i v).fsr = s.fsr := rfl

@[simp] theorem writeGpr_slotF (s : State) (i : BitVec 5) (v : Word) : (writeGpr s i v).slotF = s.slotF := rfl

@[simp] theorem writeGpr_slotD (s : State) (i : BitVec 5) (v : Word) : (writeGpr s i v).slotD = s.slotD := rfl

@[simp] theorem writeGpr_slotE (s : State) (i : BitVec 5) (v : Word) : (writeGpr s i v).slotE = s.slotE := rfl

@[simp] theorem writeGpr_immInFlight (s : State) (i : BitVec 5) (v : Word) :
    (writeGpr s i v).immInFlight = s.immInFlight := rfl

@[simp] theorem writeGpr_acc (s : State) (i : BitVec 5) (v : Word) : (writeGpr s i v).acc = s.acc := rfl

@[simp] theorem writeGpr_retired (s : State) (i : BitVec 5) (v : Word) : (writeGpr s i v).retired = s.retired := rfl

@[simp] theorem writeGpr_mem (s : State) (i : BitVec 5) (v : Word) : (writeGpr s i v).mem = s.mem := rfl

@[simp] theorem writeGpr_breakMarks (s : State) (i : BitVec 5) (v : Word) :
    (writeGpr s i v).breakMarks = s.breakMarks := rfl

@[simp] theorem writeGpr_exitMarks (s : State) (i : BitVec 5) (v : Word) :
    (writeGpr s i v).exitMarks = s.exitMarks := rfl

@[simp] theorem writeGpr_port (s : State) (i : BitVec 5) (v : Word) : (writeGpr s i v).port = s.port := rfl

@[simp] theorem writeGpr_irq (s : State) (i : BitVec 5) (v : Word) : (writeGpr s i v).irq = s.irq := rfl

@[simp] theorem writeGpr_execQ (s : State) (i : BitVec 5) (v : Word) : (writeGpr s i v).execQ = s.execQ := rfl

@[simp] theorem writeGpr_devCalls (s : State) (i : BitVec 5) (v : Word) :
    (writeGpr s i v).devCalls = s.devCalls := rfl

@[simp] theorem writeGpr_reply (s : State) (i : BitVec 5) (v : Word) : (writeGpr s i v).reply = s.reply := rfl

@[simp] theorem writeGpr_busResp (s : State) (i : BitVec 5) (v : Word) : (writeGpr s i v).busResp = s.busResp := rfl

@[simp] theorem writeGpr_seq (s : State) (i : BitVec 5) (v : Word) : (writeGpr s i v).seq = s.seq := rfl

/-! ### writePC -/

@[simp] theorem writePC_cfg (t : Word) (s : State) : (writePC t s).cfg = s.cfg := rfl

@[simp] theorem writePC_x (t : Word) (s : State) : (writePC t s).x = s.x := rfl

@[simp] theorem writePC_pc (t : Word) (s : State) : (writePC t s).pc = t := rfl

@[simp] theorem writePC_npc (t : Word) (s : State) : (writePC t s).npc = t + 4 := rfl

@[simp] theorem writePC_msr (t : Word) (s : State) : (writePC t s).msr = s.msr := rfl

@[simp] theorem writePC_ear (t : Word) (s : State) : (writePC t s).ear = s.ear := rfl

@[simp] theorem writePC_esr (t : Word) (s : State) : (writePC t s).esr = s.esr := rfl

@[simp] theorem writePC_btr (t : Word) (s : State) : (writePC t s).btr = s.btr := rfl

@[simp] theorem writePC_fsr (t : Word) (s : State) : (writePC t s).fsr = s.fsr := rfl

@[simp] theorem writePC_slotF (t : Word) (s : State) : (writePC t s).slotF = s.slotF := rfl

@[simp] theorem writePC_slotD (t : Word) (s : State) : (writePC t s).slotD = s.slotD := rfl

@[simp] theorem writePC_slotE (t : Word) (s : State) : (writePC t s).slotE = s.slotE := rfl

@[simp] theorem writePC_immInFlight (t : Word) (s : State) : (writePC t s).immInFlight = s.immInFlight := rfl

@[simp] theorem writePC_acc (t : Word) (s : State) : (writePC t s).acc = s.acc := rfl

@[simp] theorem writePC_retired (t : Word) (s : State) : (writePC t s).retired = s.retired := rfl

@[simp] theorem writePC_mem (t : Word) (s : State) : (writePC t s).mem = s.mem := rfl

@[simp] theorem writePC_breakMarks (t : Word) (s : State) : (writePC t s).breakMarks = s.breakMarks := rfl

@[simp] theorem writePC_exitMarks (t : Word) (s : State) : (writePC t s).exitMarks = s.exitMarks := rfl

@[simp] theorem writePC_port (t : Word) (s : State) : (writePC t s).port = s.port := rfl

@[simp] theorem writePC_irq (t : Word) (s : State) : (writePC t s).irq = s.irq := rfl

@[simp] theorem writePC_execQ (t : Word) (s : State) : (writePC t s).execQ = s.execQ := rfl

@[simp] theorem writePC_devCalls (t : Word) (s : State) : (writePC t s).devCalls = s.devCalls := rfl

@[simp] theorem writePC_reply (t : Word) (s : State) : (writePC t s).reply = s.reply := rfl

@[simp] theorem writePC_busResp (t : Word) (s : State) : (writePC t s).busResp = s.busResp := rfl

@[simp] theorem writePC_seq (t : Word) (s : State) : (writePC t s).seq = s.seq := rfl

/-! ### memWrite -/

@[simp] theorem memWrite_cfg (s : State) (a : Word) (size : Size) (v : Word) :
    (memWrite s a size v).cfg = s.cfg := rfl

@[simp] theorem memWrite_x (s : State) (a : Word) (size : Size) (v : Word) : (memWrite s a size v).x = s.x := rfl

@[simp] theorem memWrite_pc (s : State) (a : Word) (size : Size) (v : Word) : (memWrite s a size v).pc = s.pc := rfl

@[simp] theorem memWrite_npc (s : State) (a : Word) (size : Size) (v : Word) :
    (memWrite s a size v).npc = s.npc := rfl

@[simp] theorem memWrite_msr (s : State) (a : Word) (size : Size) (v : Word) :
    (memWrite s a size v).msr = s.msr := rfl

@[simp] theorem memWrite_ear (s : State) (a : Word) (size : Size) (v : Word) :
    (memWrite s a size v).ear = s.ear := rfl

@[simp] theorem memWrite_esr (s : State) (a : Word) (size : Size) (v : Word) :
    (memWrite s a size v).esr = s.esr := rfl

@[simp] theorem memWrite_btr (s : State) (a : Word) (size : Size) (v : Word) :
    (memWrite s a size v).btr = s.btr := rfl

@[simp] theorem memWrite_fsr (s : State) (a : Word) (size : Size) (v : Word) :
    (memWrite s a size v).fsr = s.fsr := rfl

@[simp] theorem memWrite_slotF (s : State) (a : Word) (size : Size) (v : Word) :
    (memWrite s a size v).slotF = s.slotF := rfl

@[simp] theorem memWrite_slotD (s : State) (a : Word) (size : Size) (v : Word) :
    (memWrite s a size v).slotD = s.slotD := rfl

@[simp] theorem memWrite_slotE (s : State) (a : Word) (size : Size) (v : Word) :
    (memWrite s a size v).slotE = s.slotE := rfl

@[simp] theorem memWrite_immInFlight (s : State) (a : Word) (size : Size) (v : Word) :
    (memWrite s a size v).immInFlight = s.immInFlight := rfl

@[simp] theorem memWrite_acc (s : State) (a : Word) (size : Size) (v : Word) :
    (memWrite s a size v).acc = s.acc := rfl

@[simp] theorem memWrite_retired (s : State) (a : Word) (size : Size) (v : Word) :
    (memWrite s a size v).retired = s.retired := rfl

@[simp] theorem memWrite_mem (s : State) (a : Word) (size : Size) (v : Word) :
    (memWrite s a size v).mem = writeWord s.mem (wordAddr a) (merge (readWord s.mem (wordAddr a)) a size v) := rfl

@[simp] theorem memWrite_breakMarks (s : State) (a : Word) (size : Size) (v : Word) :
    (memWrite s a size v).breakMarks = s.breakMarks := rfl

@[simp] theorem memWrite_exitMarks (s : State) (a : Word) (size : Size) (v : Word) :
    (memWrite s a size v).exitMarks = s.exitMarks := rfl

@[simp] theorem memWrite_port (s : State) (a : Word) (size : Size) (v : Word) :
    (memWrite s a size v).port = s.port := rfl

@[simp] theorem memWrite_irq (s : State) (a : Word) (size : Size) (v : Word) :
    (memWrite s a size v).irq = s.irq := rfl

@[simp] theorem memWrite_execQ (s : State) (a : Word) (size : Size) (v : Word) :
    (memWrite s a size v).execQ = s.execQ := rfl

@[simp] theorem memWrite_devCalls (s : State) (a : Word) (size : Size) (v : Word) :
    (memWrite s a size v).devCalls = s.devCalls := rfl

@[simp] theorem memWrite_reply (s : State) (a : Word) (size : Size) (v : Word) :
    (memWrite s a size v).reply = s.reply := rfl

@[simp] theorem memWrite_busResp (s : State) (a : Word) (size : Size) (v : Word) :
    (memWrite s a size v).busResp = s.busResp := rfl

@[simp] theorem memWrite_seq (s : State) (a : Word) (size : Size) (v : Word) :
    (memWrite s a size v).seq = s.seq := rfl

/-! ### deviceGet -/

@[simp] theorem deviceGet_cfg (d : Device) (s : State) : ((deviceGet d s).2).cfg = s.cfg := rfl

@[simp] theorem deviceGet_x (d : Device) (s : State) : ((deviceGet d s).2).x = s.x := rfl

@[simp] theorem deviceGet_pc (d : Device) (s : State) : ((deviceGet d s).2).pc = s.pc := rfl

@[simp] theorem deviceGet_npc (d : Device) (s : State) : ((deviceGet d s).2).npc = s.npc := rfl

@[simp] theorem deviceGet_msr (d : Device) (s : State) : ((deviceGet d s).2).msr = s.msr := rfl

@[simp] theorem deviceGet_ear (d : Device) (s : State) : ((deviceGet d s).2).ear = s.ear := rfl

@[simp] theorem deviceGet_esr (d : Device) (s : State) : ((deviceGet d s).2).esr = s.esr := rfl

@[simp] theorem deviceGet_btr (d : Device) (s : State) : ((deviceGet d s).2).btr = s.btr := rfl

@[simp] theorem deviceGet_fsr (d : Device) (s : State) : ((deviceGet d s).2).fsr = s.fsr := rfl

@[simp] theorem deviceGet_slotF (d : Device) (s : State) : ((deviceGet d s).2).slotF = s.slotF := rfl

@[simp] theorem deviceGet_slotD (d : Device) (s : State) : ((deviceGet d s).2).slotD = s.slotD := rfl

@[simp] theorem deviceGet_slotE (d : Device) (s : State) : ((deviceGet d s).2).slotE = s.slotE := rfl

@[simp] theorem deviceGet_immInFlight (d : Device) (s : State) :
    ((deviceGet d s).2).immInFlight = s.immInFlight := rfl

@[simp] theorem deviceGet_acc (d : Device) (s : State) : ((deviceGet d s).2).acc = s.acc := rfl

@[simp] theorem deviceGet_retired (d : Device) (s : State) : ((deviceGet d s).2).retired = s.retired := rfl

@[simp] theorem deviceGet_mem (d : Device) (s : State) : ((deviceGet d s).2).mem = s.mem := rfl

@[simp] theorem deviceGet_breakMarks (d : Device) (s : State) : ((deviceGet d s).2).breakMarks = s.breakMarks := rfl

@[simp] theorem deviceGet_exitMarks (d : Device) (s : State) : ((deviceGet d s).2).exitMarks = s.exitMarks := rfl

@[simp] theorem deviceGet_port (d : Device) (s : State) : ((deviceGet d s).2).port = s.port := rfl

@[simp] theorem deviceGet_irq (d : Device) (s : State) : ((deviceGet d s).2).irq = s.irq := rfl

@[simp] theorem deviceGet_execQ (d : Device) (s : State) : ((deviceGet d s).2).execQ = s.execQ := rfl

@[simp] theorem deviceGet_devCalls (d : Device) (s : State) :
    ((deviceGet d s).2).devCalls = .get d.addr :: s.devCalls := rfl

@[simp] theorem deviceGet_reply (d : Device) (s : State) : ((deviceGet d s).2).reply = s.reply := rfl

@[simp] theorem deviceGet_busResp (d : Device) (s : State) : ((deviceGet d s).2).busResp = s.busResp := rfl

@[simp] theorem deviceGet_seq (d : Device) (s : State) : ((deviceGet d s).2).seq = s.seq + 1 := rfl

/-! ### devicePut -/

@[simp] theorem devicePut_cfg (d : Device) (v : Word) (s : State) : (devicePut d v s).cfg = s.cfg := rfl

@[simp] theorem devicePut_x (d : Device) (v : Word) (s : State) : (devicePut d v s).x = s.x := rfl

@[simp] theorem devicePut_pc (d : Device) (v : Word) (s : State) : (devicePut d v s).pc = s.pc := rfl

@[simp] theorem devicePut_npc (d : Device) (v : Word) (s : State) : (devicePut d v s).npc = s.npc := rfl

@[simp] theorem devicePut_msr (d : Device) (v : Word) (s : State) : (devicePut d v s).msr = s.msr := rfl

@[simp] theorem devicePut_ear (d : Device) (v : Word) (s : State) : (devicePut d v s).ear = s.ear := rfl

@[simp] theorem devicePut_esr (d : Device) (v : Word) (s : State) : (devicePut d v s).esr = s.esr := rfl

@[simp] theorem devicePut_btr (d : Device) (v : Word) (s : State) : (devicePut d v s).btr = s.btr := rfl

@[simp] theorem devicePut_fsr (d : Device) (v : Word) (s : State) : (devicePut d v s).fsr = s.fsr := rfl

@[simp] theorem devicePut_slotF (d : Device) (v : Word) (s : State) : (devicePut d v s).slotF = s.slotF := rfl

@[simp] theorem devicePut_slotD (d : Device) (v : Word) (s : State) : (devicePut d v s).slotD = s.slotD := rfl

@[simp] theorem devicePut_slotE (d : Device) (v : Word) (s : State) : (devicePut d v s).slotE = s.slotE := rfl

@[simp] theorem devicePut_immInFlight (d : Device) (v : Word) (s : State) :
    (devicePut d v s).immInFlight = s.immInFlight := rfl

@[simp] theorem devicePut_acc (d : Device) (v : Word) (s : State) : (devicePut d v s).acc = s.acc := rfl

@[simp] theorem devicePut_retired (d : Device) (v : Word) (s : State) : (devicePut d v s).retired = s.retired := rfl

@[simp] theorem devicePut_mem (d : Device) (v : Word) (s : State) : (devicePut d v s).mem = s.mem := rfl

@[simp] theorem devicePut_breakMarks (d : Device) (v : Word) (s : State) :
    (devicePut d v s).breakMarks = s.breakMarks := rfl

@[simp] theorem devicePut_exitMarks (d : Device) (v : Word) (s : State) :
    (devicePut d v s).exitMarks = s.exitMarks := rfl

@[simp] theorem devicePut_port (d : Device) (v : Word) (s : State) : (devicePut d v s).port = s.port := rfl

@[simp] theorem devicePut_irq (d : Device) (v : Word) (s : State) : (devicePut d v s).irq = s.irq := rfl

@[simp] theorem devicePut_execQ (d : Device) (v : Word) (s : State) : (devicePut d v s).execQ = s.execQ := rfl

@[simp] theorem devicePut_devCalls (d : Device) (v : Word) (s : State) :
    (devicePut d v s).devCalls = .put d.addr v :: s.devCalls := rfl

@[simp] theorem devicePut_reply (d : Device) (v : Word) (s : State) : (devicePut d v s).reply = s.reply := rfl

@[simp] theorem devicePut_busResp (d : Device) (v : Word) (s : State) : (devicePut d v s).busResp = s.busResp := rfl

@[simp] theorem devicePut_seq (d : Device) (v : Word) (s : State) : (devicePut d v s).seq = s.seq := rfl

/-! ### advance -/

@[simp] theorem advance_cfg (s : State) : (advance s).cfg = s.cfg := rfl

@[simp] theorem advance_x (s : State) : (advance s).x = s.x := rfl

@[simp] theorem advance_pc (s : State) : (advance s).pc = s.npc := rfl

@[simp] theorem advance_npc (s : State) : (advance s).npc = s.npc + 4 := rfl

@[simp] theorem advance_msr (s : State) : (advance s).msr = s.msr := rfl

@[simp] theorem advance_ear (s : State) : (advance s).ear = s.ear := rfl

@[simp] theorem advance_esr (s : State) : (advance s).esr = s.esr := rfl

@[simp] theorem advance_btr (s : State) : (advance s).btr = s.btr := rfl

@[simp] theorem advance_fsr (s : State) : (advance s).fsr = s.fsr := rfl

@[simp] theorem advance_slotF (s : State) : (advance s).slotF = fetch s s.npc := rfl

@[simp] theorem advance_slotD (s : State) : (advance s).slotD = s.slotF := rfl

@[simp] theorem advance_slotE (s : State) : (advance s).slotE = s.slotD := rfl

@[simp] theorem advance_immInFlight (s : State) : (advance s).immInFlight = s.immInFlight := rfl

@[simp] theorem advance_acc (s : State) : (advance s).acc = s.acc := rfl

@[simp] theorem advance_retired (s : State) : (advance s).retired = s.retired := rfl

@[simp] theorem advance_mem (s : State) : (advance s).mem = s.mem := rfl

@[simp] theorem advance_breakMarks (s : State) : (advance s).breakMarks = s.breakMarks := rfl

@[simp] theorem advance_exitMarks (s : State) : (advance s).exitMarks = s.exitMarks := rfl

@[simp] theorem advance_port (s : State) : (advance s).port = s.port := rfl

@[simp] theorem advance_irq (s : State) : (advance s).irq = s.irq := rfl

@[simp] theorem advance_execQ (s : State) : (advance s).execQ = s.execQ := rfl

@[simp] theorem advance_devCalls (s : State) : (advance s).devCalls = s.devCalls := rfl

@[simp] theorem advance_reply (s : State) : (advance s).reply = s.reply := rfl

@[simp] theorem advance_busResp (s : State) : (advance s).busResp = s.busResp := rfl

@[simp] theorem advance_seq (s : State) : (advance s).seq = s.seq := rfl

/-! ### fetchSideAdvance -/

@[simp] theorem fetchSideAdvance_cfg (s : State) : (fetchSideAdvance s).cfg = s.cfg := rfl

@[simp] theorem fetchSideAdvance_x (s : State) : (fetchSideAdvance s).x = s.x := rfl

@[simp] theorem fetchSideAdvance_pc (s : State) : (fetchSideAdvance s).pc = s.npc := rfl

@[simp] theorem fetchSideAdvance_npc (s : State) : (fetchSideAdvance s).npc = s.npc + 4 := rfl

@[simp] theorem fetchSideAdvance_msr (s : State) : (fetchSideAdvance s).msr = s.msr := rfl

@[simp] theorem fetchSideAdvance_ear (s : State) : (fetchSideAdvance s).ear = s.ear := rfl

@[simp] theorem fetchSideAdvance_esr (s : State) : (fetchSideAdvance s).esr = s.esr := rfl

@[simp] theorem fetchSideAdvance_btr (s : State) : (fetchSideAdvance s).btr = s.btr := rfl

@[simp] theorem fetchSideAdvance_fsr (s : State) : (fetchSideAdvance s).fsr = s.fsr := rfl

@[simp] theorem fetchSideAdvance_slotF (s : State) : (fetchSideAdvance s).slotF = fetch s s.npc := rfl

@[simp] theorem fetchSideAdvance_slotD (s : State) : (fetchSideAdvance s).slotD = s.slotF := rfl

@[simp] theorem fetchSideAdvance_slotE (s : State) : (fetchSideAdvance s).slotE = s.slotE := rfl

@[simp] theorem fetchSideAdvance_immInFlight (s : State) : (fetchSideAdvance s).immInFlight = s.immInFlight := rfl

@[simp] theorem fetchSideAdvance_acc (s : State) : (fetchSideAdvance s).acc = s.acc := rfl

@[simp] theorem fetchSideAdvance_retired (s : State) : (fetchSideAdvance s).retired = s.retired := rfl

@[simp] theorem fetchSideAdvance_mem (s : State) : (fetchSideAdvance s).mem = s.mem := rfl

@[simp] theorem fetchSideAdvance_breakMarks (s : State) : (fetchSideAdvance s).breakMarks = s.breakMarks := rfl

@[simp] theorem fetchSideAdvance_exitMarks (s : State) : (fetchSideAdvance s).exitMarks = s.exitMarks := rfl

@[simp] theorem fetchSideAdvance_port (s : State) : (fetchSideAdvance s).port = s.port := rfl

@[simp] theorem fetchSideAdvance_irq (s : State) : (fetchSideAdvance s).irq = s.irq := rfl

@[simp] theorem fetchSideAdvance_execQ (s : State) : (fetchSideAdvance s).execQ = s.execQ := rfl

@[simp] theorem fetchSideAdvance_devCalls (s : State) : (fetchSideAdvance s).devCalls = s.devCalls := rfl

@[simp] theorem fetchSideAdvance_reply (s : State) : (fetchSideAdvance s).reply = s.reply := rfl

@[simp] theorem fetchSideAdvance_busResp (s : State) : (fetchSideAdvance s).busResp = s.busResp := rfl

@[simp] theorem fetchSideAdvance_seq (s : State) : (fetchSideAdvance s).seq = s.seq := rfl

/-! ### refill -/

@[simp] theorem refill_cfg (e : Slot) (s : State) : (refill e s).cfg = s.cfg := rfl

@[simp] theorem refill_x (e : Slot) (s : State) : (refill e s).x = s.x := rfl

@[simp] theorem refill_pc (e : Slot) (s : State) : (refill e s).pc = s.pc := rfl

@[simp] theorem refill_npc (e : Slot) (s : State) : (refill e s).npc = s.npc := rfl

@[simp] theorem refill_msr (e : Slot) (s : State) : (refill e s).msr = s.msr := rfl

@[simp] theorem refill_ear (e : Slot) (s : State) : (refill e s).ear = s.ear := rfl

@[simp] theorem refill_esr (e : Slot) (s : State) : (refill e s).esr = s.esr := rfl

@[simp] theorem refill_btr (e : Slot) (s : State) : (refill e s).btr = s.btr := rfl

@[simp] theorem refill_fsr (e : Slot) (s : State) : (refill e s).fsr = s.fsr := rfl

@[simp] theorem refill_slotF (e : Slot) (s : State) : (refill e s).slotF = fetch s s.pc := rfl

@[simp] theorem refill_slotD (e : Slot) (s : State) : (refill e s).slotD = .empty := rfl

@[simp] theorem refill_slotE (e : Slot) (s : State) : (refill e s).slotE = e := rfl

@[simp] theorem refill_immInFlight (e : Slot) (s : State) : (refill e s).immInFlight = s.immInFlight := rfl

@[simp] theorem refill_acc (e : Slot) (s : State) : (refill e s).acc = s.acc := rfl

@[simp] theorem refill_retired (e : Slot) (s : State) : (refill e s).retired = s.retired := rfl

@[simp] theorem refill_mem (e : Slot) (s : State) : (refill e s).mem = s.mem := rfl

@[simp] theorem refill_breakMarks (e : Slot) (s : State) : (refill e s).breakMarks = s.breakMarks := rfl

@[simp] theorem refill_exitMarks (e : Slot) (s : State) : (refill e s).exitMarks = s.exitMarks := rfl

@[simp] theorem refill_port (e : Slot) (s : State) : (refill e s).port = s.port := rfl

@[simp] theorem refill_irq (e : Slot) (s : State) : (refill e s).irq = s.irq := rfl

@[simp] theorem refill_execQ (e : Slot) (s : State) : (refill e s).execQ = s.execQ := rfl

@[simp] theorem refill_devCalls (e : Slot) (s : State) : (refill e s).devCalls = s.devCalls := rfl

@[simp] theorem refill_reply (e : Slot) (s : State) : (refill e s).reply = s.reply := rfl

@[simp] theorem refill_busResp (e : Slot) (s : State) : (refill e s).busResp = s.busResp := rfl

@[simp] theorem refill_seq (e : Slot) (s : State) : (refill e s).seq = s.seq := rfl

/-! ### retire -/

@[simp] theorem retire_cfg (s : State) : (retire s).cfg = s.cfg := rfl

@[simp] theorem retire_x (s : State) : (retire s).x = s.x := rfl

@[simp] theorem retire_pc (s : State) : (retire s).pc = s.pc := rfl

@[simp] theorem retire_npc (s : State) : (retire s).npc = s.npc := rfl

@[simp] theorem retire_msr (s : State) : (retire s).msr = s.msr := rfl

@[simp] theorem retire_ear (s : State) : (retire s).ear = s.ear := rfl

@[simp] theorem retire_esr (s : State) : (retire s).esr = s.esr := rfl

@[simp] theorem retire_btr (s : State) : (retire s).btr = s.btr := rfl

@[simp] theorem retire_fsr (s : State) : (retire s).fsr = s.fsr := rfl

@[simp] theorem retire_slotF (s : State) : (retire s).slotF = s.slotF := rfl

@[simp] theorem retire_slotD (s : State) : (retire s).slotD = s.slotD := rfl

@[simp] theorem retire_slotE (s : State) : (retire s).slotE = s.slotE := rfl

@[simp] theorem retire_immInFlight (s : State) : (retire s).immInFlight = s.immInFlight := rfl

@[simp] theorem retire_acc (s : State) : (retire s).acc = s.acc := rfl

@[simp] theorem retire_retired (s : State) : (retire s).retired = s.retired + 1 := rfl

@[simp] theorem retire_mem (s : State) : (retire s).mem = s.mem := rfl

@[simp] theorem retire_breakMarks (s : State) : (retire s).breakMarks = s.breakMarks := rfl

@[simp] theorem retire_exitMarks (s : State) : (retire s).exitMarks = s.exitMarks := rfl

@[simp] theorem retire_port (s : State) : (retire s).port = s.port := rfl

@[simp] theorem retire_irq (s : State) : (retire s).irq = s.irq := rfl

@[simp] theorem retire_execQ (s : State) : (retire s).execQ = s.execQ := rfl

@[simp] theorem retire_devCalls (s : State) : (retire s).devCalls = s.devCalls := rfl

@[simp] theorem retire_reply (s : State) : (retire s).reply = s.reply := rfl

@[simp] theorem retire_busResp (s : State) : (retire s).busResp = s.busResp := rfl

@[simp] theorem retire_seq (s : State) : (retire s).seq = s.seq := rfl

/-! ### answer -/

@[simp] theorem answer_cfg (r : Reply) (s : State) : (answer r s).cfg = s.cfg := rfl

@[simp] theorem answer_x (r : Reply) (s : State) : (answer r s).x = s.x := rfl

@[simp] theorem answer_pc (r : Reply) (s : State) : (answer r s).pc = s.pc := rfl

@[simp] theorem answer_npc (r : Reply) (s : State) : (answer r s).npc = s.npc := rfl

@[simp] theorem answer_msr (r : Reply) (s : State) : (answer r s).msr = s.msr := rfl

@[simp] theorem answer_ear (r : Reply) (s : State) : (answer r s).ear = s.ear := rfl

@[simp] theorem answer_esr (r : Reply) (s : State) : (answer r s).esr = s.esr := rfl

@[simp] theorem answer_btr (r : Reply) (s : State) : (answer r s).btr = s.btr := rfl

@[simp] theorem answer_fsr (r : Reply) (s : State) : (answer r s).fsr = s.fsr := rfl

@[simp] theorem answer_slotF (r : Reply) (s : State) : (answer r s).slotF = s.slotF := rfl

@[simp] theorem answer_slotD (r : Reply) (s : State) : (answer r s).slotD = s.slotD := rfl

@[simp] theorem answer_slotE (r : Reply) (s : State) : (answer r s).slotE = s.slotE := rfl

@[simp] theorem answer_immInFlight (r : Reply) (s : State) : (answer r s).immInFlight = s.immInFlight := rfl

@[simp] theorem answer_acc (r : Reply) (s : State) : (answer r s).acc = s.acc := rfl

@[simp] theorem answer_retired (r : Reply) (s : State) : (answer r s).retired = s.retired := rfl

@[simp] theorem answer_mem (r : Reply) (s : State) : (answer r s).mem = s.mem := rfl

@[simp] theorem answer_breakMarks (r : Reply) (s : State) : (answer r s).breakMarks = s.breakMarks := rfl

@[simp] theorem answer_exitMarks (r : Reply) (s : State) : (answer r s).exitMarks = s.exitMarks := rfl

@[simp] theorem answer_port (r : Reply) (s : State) : (answer r s).port = s.port := rfl

@[simp] theorem answer_irq (r : Reply) (s : State) : (answer r s).irq = s.irq := rfl

@[simp] theorem answer_execQ (r : Reply) (s : State) : (answer r s).execQ = s.execQ := rfl

@[simp] theorem answer_devCalls (r : Reply) (s : State) : (answer r s).devCalls = s.devCalls := rfl

@[simp] theorem answer_reply (r : Reply) (s : State) : (answer r s).reply = r := rfl

@[simp] theorem answer_busResp (r : Reply) (s : State) : (answer r s).busResp = s.busResp := rfl

@[simp] theorem answer_seq (r : Reply) (s : State) : (answer r s).seq = s.seq := rfl

/-! ### failWith -/

@[simp] theorem failWith_cfg (e : FailReason) (s : State) : (failWith e s).cfg = s.cfg := rfl

@[simp] theorem failWith_x (e : FailReason) (s : State) : (failWith e s).x = s.x := rfl

@[simp] theorem failWith_pc (e : FailReason) (s : State) : (failWith e s).pc = s.pc := rfl

@[simp] theorem failWith_npc (e : FailReason) (s : State) : (failWith e s).npc = s.npc := rfl

@[simp] theorem failWith_msr (e : FailReason) (s : State) : (failWith e s).msr = s.msr := rfl

@[simp] theorem failWith_ear (e : FailReason) (s : State) : (failWith e s).ear = s.ear := rfl

@[simp] theorem failWith_esr (e : FailReason) (s : State) : (failWith e s).esr = s.esr := rfl

@[simp] theorem failWith_btr (e : FailReason) (s : State) : (failWith e s).btr = s.btr := rfl

@[simp] theorem failWith_fsr (e : FailReason) (s : State) : (failWith e s).fsr = s.fsr := rfl

@[simp] theorem failWith_slotF (e : FailReason) (s : State) : (failWith e s).slotF = s.slotF := rfl

@[simp] theorem failWith_slotD (e : FailReason) (s : State) : (failWith e s).slotD = s.slotD := rfl

@[simp] theorem failWith_slotE (e : FailReason) (s : State) : (failWith e s).slotE = s.slotE := rfl

@[simp] theorem failWith_immInFlight (e : FailReason) (s : State) : (failWith e s).immInFlight = s.immInFlight := rfl

@[simp] theorem failWith_acc (e : FailReason) (s : State) : (failWith e s).acc = s.acc := rfl

@[simp] theorem failWith_retired (e : FailReason) (s : State) : (failWith e s).retired = s.retired := rfl

@[simp] theorem failWith_mem (e : FailReason) (s : State) : (failWith e s).mem = s.mem := rfl

@[simp] theorem failWith_breakMarks (e : FailReason) (s : State) : (failWith e s).breakMarks = s.breakMarks := rfl

@[simp] theorem failWith_exitMarks (e : FailReason) (s : State) : (failWith e s).exitMarks = s.exitMarks := rfl

@[simp] theorem failWith_port (e : FailReason) (s : State) : (failWith e s).port = s.port := rfl

@[simp] theorem failWith_irq (e : FailReason) (s : State) : (failWith e s).irq = s.irq := rfl

@[simp] theorem failWith_execQ (e : FailReason) (s : State) : (failWith e s).execQ = s.execQ := rfl

@[simp] theorem failWith_devCalls (e : FailReason) (s : State) : (failWith e s).devCalls = s.devCalls := rfl

@[simp] theorem failWith_reply (e : FailReason) (s : State) : (failWith e s).reply = .fail e := rfl

@[simp] theorem failWith_busResp (e : FailReason) (s : State) : (failWith e s).busResp = s.busResp := rfl

@[simp] theorem failWith_seq (e : FailReason) (s : State) : (failWith e s).seq = s.seq := rfl

/-! ### sampleInput -/

@[simp] theorem sampleInput_cfg (s : State) : (sampleInput s).cfg = s.cfg := rfl

@[simp] theorem sampleInput_x (s : State) : (sampleInput s).x = s.x := rfl

@[simp] theorem sampleInput_pc (s : State) : (sampleInput s).pc = s.pc := rfl

@[simp] theorem sampleInput_npc (s : State) : (sampleInput s).npc = s.npc := rfl

@[simp] theorem sampleInput_msr (s : State) : (sampleInput s).msr = s.msr := rfl

@[simp] theorem sampleInput_ear (s : State) : (sampleInput s).ear = s.ear := rfl

@[simp] theorem sampleInput_esr (s : State) : (sampleInput s).esr = s.esr := rfl

@[simp] theorem sampleInput_btr (s : State) : (sampleInput s).btr = s.btr := rfl

@[simp] theorem sampleInput_fsr (s : State) : (sampleInput s).fsr = s.fsr := rfl

@[simp] theorem sampleInput_slotF (s : State) : (sampleInput s).slotF = s.slotF := rfl

@[simp] theorem sampleInput_slotD (s : State) : (sampleInput s).slotD = s.slotD := rfl

@[simp] theorem sampleInput_slotE (s : State) : (sampleInput s).slotE = s.slotE := rfl

@[simp] theorem sampleInput_immInFlight (s : State) : (sampleInput s).immInFlight = s.immInFlight := rfl

@[simp] theorem sampleInput_acc (s : State) : (sampleInput s).acc = s.acc := rfl

@[simp] theorem sampleInput_retired (s : State) : (sampleInput s).retired = s.retired := rfl

@[simp] theorem sampleInput_mem (s : State) : (sampleInput s).mem = s.mem := rfl

@[simp] theorem sampleInput_breakMarks (s : State) : (sampleInput s).breakMarks = s.breakMarks := rfl

@[simp] theorem sampleInput_exitMarks (s : State) : (sampleInput s).exitMarks = s.exitMarks := rfl

@[simp] theorem sampleInput_port (s : State) : (sampleInput s).port = s.port := rfl

@[simp] theorem sampleInput_irq (s : State) : (sampleInput s).irq = Config.irqLevel s.seq := rfl

@[simp] theorem sampleInput_execQ (s : State) : (sampleInput s).execQ = s.execQ := rfl

@[simp] theorem sampleInput_devCalls (s : State) : (sampleInput s).devCalls = s.devCalls := rfl

@[simp] theorem sampleInput_reply (s : State) : (sampleInput s).reply = s.reply := rfl

@[simp] theorem sampleInput_busResp (s : State) : (sampleInput s).busResp = s.busResp := rfl

@[simp] theorem sampleInput_seq (s : State) : (sampleInput s).seq = s.seq + 1 := rfl

/-! ### mapSlots -/

@[simp] theorem mapSlots_cfg (f : Slot → Slot) (s : State) : (mapSlots f s).cfg = s.cfg := rfl

@[simp] theorem mapSlots_x (f : Slot → Slot) (s : State) : (mapSlots f s).x = s.x := rfl

@[simp] theorem mapSlots_pc (f : Slot → Slot) (s : State) : (mapSlots f s).pc = s.pc := rfl

@[simp] theorem mapSlots_npc (f : Slot → Slot) (s : State) : (mapSlots f s).npc = s.npc := rfl

@[simp] theorem mapSlots_msr (f : Slot → Slot) (s : State) : (mapSlots f s).msr = s.msr := rfl

@[simp] theorem mapSlots_ear (f : Slot → Slot) (s : State) : (mapSlots f s).ear = s.ear := rfl

@[simp] theorem mapSlots_esr (f : Slot → Slot) (s : State) : (mapSlots f s).esr = s.esr := rfl

@[simp] theorem mapSlots_btr (f : Slot → Slot) (s : State) : (mapSlots f s).btr = s.btr := rfl

@[simp] theorem mapSlots_fsr (f : Slot → Slot) (s : State) : (mapSlots f s).fsr = s.fsr := rfl

@[simp] theorem mapSlots_slotF (f : Slot → Slot) (s : State) : (mapSlots f s).slotF = f s.slotF := rfl

@[simp] theorem mapSlots_slotD (f : Slot → Slot) (s : State) : (mapSlots f s).slotD = f s.slotD := rfl

@[simp] theorem mapSlots_slotE (f : Slot → Slot) (s : State) : (mapSlots f s).slotE = f s.slotE := rfl

@[simp] theorem mapSlots_immInFlight (f : Slot → Slot) (s : State) : (mapSlots f s).immInFlight = s.immInFlight := rfl

@[simp] theorem mapSlots_acc (f : Slot → Slot) (s : State) : (mapSlots f s).acc = s.acc := rfl

@[simp] theorem mapSlots_retired (f : Slot → Slot) (s : State) : (mapSlots f s).retired = s.retired := rfl

@[simp] theorem mapSlots_mem (f : Slot → Slot) (s : State) : (mapSlots f s).mem = s.mem := rfl

@[simp] theorem mapSlots_breakMarks (f : Slot → Slot) (s : State) : (mapSlots f s).breakMarks = s.breakMarks := rfl

@[simp] theorem mapSlots_exitMarks (f : Slot → Slot) (s : State) : (mapSlots f s).exitMarks = s.exitMarks := rfl

@[simp] theorem mapSlots_port (f : Slot → Slot) (s : State) : (mapSlots f s).port = s.port := rfl

@[simp] theorem mapSlots_irq (f : Slot → Slot) (s : State) : (mapSlots f s).irq = s.irq := rfl

@[simp] theorem mapSlots_execQ (f : Slot → Slot) (s : State) : (mapSlots f s).execQ = s.execQ := rfl

@[simp] theorem mapSlots_devCalls (f : Slot → Slot) (s : State) : (mapSlots f s).devCalls = s.devCalls := rfl

@[simp] theorem mapSlots_reply (f : Slot → Slot) (s : State) : (mapSlots f s).reply = s.reply := rfl

@[simp] theorem mapSlots_busResp (f : Slot → Slot) (s : State) : (mapSlots f s).busResp = s.busResp := rfl

@[simp] theorem mapSlots_seq (f : Slot → Slot) (s : State) : (mapSlots f s).seq = s.seq := rfl

/-! ### resetBlock -/

@[simp] theorem resetBlock_cfg (s : State) : (resetBlock s).cfg = s.cfg := rfl

@[simp] theorem resetBlock_x (s : State) : (resetBlock s).x = Vector.replicate 32 0 := rfl

@[simp] theorem resetBlock_pc (s : State) : (resetBlock s).pc = 0 := rfl

@[simp] theorem resetBlock_npc (s : State) : (resetBlock s).npc = 0 := rfl

@[simp] theorem resetBlock_msr (s : State) : (resetBlock s).msr = 0 := rfl

@[simp] theorem resetBlock_ear (s : State) : (resetBlock s).ear = 0 := rfl

@[simp] theorem resetBlock_esr (s : State) : (resetBlock s).esr = 0 := rfl

@[simp] theorem resetBlock_btr (s : State) : (resetBlock s).btr = 0 := rfl

@[simp] theorem resetBlock_fsr (s : State) : (resetBlock s).fsr = 0 := rfl

@[simp] theorem resetBlock_slotF (s : State) : (resetBlock s).slotF = .empty := rfl

@[simp] theorem resetBlock_slotD (s : State) : (resetBlock s).slotD = .empty := rfl

@[simp] theorem resetBlock_slotE (s : State) : (resetBlock s).slotE = .empty := rfl

@[simp] theorem resetBlock_immInFlight (s : State) : (resetBlock s).immInFlight = false := rfl

@[simp] theorem resetBlock_acc (s : State) : (resetBlock s).acc = .idle := rfl

@[simp] theorem resetBlock_retired (s : State) : (resetBlock s).retired = 0 := rfl

@[simp] theorem resetBlock_mem (s : State) : (resetBlock s).mem = s.mem := rfl

@[simp] theorem resetBlock_breakMarks (s : State) : (resetBlock s).breakMarks = s.breakMarks := rfl

@[simp] theorem resetBlock_exitMarks (s : State) : (resetBlock s).exitMarks = s.exitMarks := rfl

@[simp] theorem resetBlock_port (s : State) : (resetBlock s).port = s.port := rfl

@[simp] theorem resetBlock_irq (s : State) : (resetBlock s).irq = s.irq := rfl

@[simp] theorem resetBlock_execQ (s : State) : (resetBlock s).execQ = s.execQ := rfl

@[simp] theorem resetBlock_devCalls (s : State) : (resetBlock s).devCalls = s.devCalls := rfl

@[simp] theorem resetBlock_reply (s : State) : (resetBlock s).reply = s.reply := rfl

@[simp] theorem resetBlock_busResp (s : State) : (resetBlock s).busResp = s.busResp := rfl

@[simp] theorem resetBlock_seq (s : State) : (resetBlock s).seq = s.seq := rfl

/-! ### debugWritePC -/

@[simp] theorem debugWritePC_cfg (v : Word) (s : State) : (debugWritePC v s).cfg = s.cfg := rfl

@[simp] theorem debugWritePC_x (v : Word) (s : State) : (debugWritePC v s).x = s.x := rfl

@[simp] theorem debugWritePC_pc (v : Word) (s : State) : (debugWritePC v s).pc = v := rfl

@[simp] theorem debugWritePC_npc (v : Word) (s : State) : (debugWritePC v s).npc = v + 4 := rfl

@[simp] theorem debugWritePC_msr (v : Word) (s : State) : (debugWritePC v s).msr = s.msr := rfl

@[simp] theorem debugWritePC_ear (v : Word) (s : State) : (debugWritePC v s).ear = s.ear := rfl

@[simp] theorem debugWritePC_esr (v : Word) (s : State) : (debugWritePC v s).esr = s.esr := rfl

@[simp] theorem debugWritePC_btr (v : Word) (s : State) : (debugWritePC v s).btr = s.btr := rfl

@[simp] theorem debugWritePC_fsr (v : Word) (s : State) : (debugWritePC v s).fsr = s.fsr := rfl

@[simp] theorem debugWritePC_slotF (v : Word) (s : State) : (debugWritePC v s).slotF = fetch s v := rfl

@[simp] theorem debugWritePC_slotD (v : Word) (s : State) : (debugWritePC v s).slotD = .empty := rfl

@[simp] theorem debugWritePC_slotE (v : Word) (s : State) : (debugWritePC v s).slotE = .empty := rfl

@[simp] theorem debugWritePC_immInFlight (v : Word) (s : State) : (debugWritePC v s).immInFlight = false := rfl

@[simp] theorem debugWritePC_acc (v : Word) (s : State) : (debugWritePC v s).acc = .idle := rfl

@[simp] theorem debugWritePC_retired (v : Word) (s : State) : (debugWritePC v s).retired = s.retired := rfl

@[simp] theorem debugWritePC_mem (v : Word) (s : State) : (debugWritePC v s).mem = s.mem := rfl

@[simp] theorem debugWritePC_breakMarks (v : Word) (s : State) : (debugWritePC v s).breakMarks = s.breakMarks := rfl

@[simp] theorem debugWritePC_exitMarks (v : Word) (s : State) : (debugWritePC v s).exitMarks = s.exitMarks := rfl

@[simp] theorem debugWritePC_port (v : Word) (s : State) : (debugWritePC v s).port = s.port := rfl

@[simp] theorem debugWritePC_irq (v : Word) (s : State) : (debugWritePC v s).irq = s.irq := rfl

@[simp] theorem debugWritePC_execQ (v : Word) (s : State) : (debugWritePC v s).execQ = s.execQ := rfl

@[simp] theorem debugWritePC_devCalls (v : Word) (s : State) : (debugWritePC v s).devCalls = s.devCalls := rfl

@[simp] theorem debugWritePC_reply (v : Word) (s : State) : (debugWritePC v s).reply = s.reply := rfl

@[simp] theorem debugWritePC_busResp (v : Word) (s : State) : (debugWritePC v s).busResp = s.busResp := rfl

@[simp] theorem debugWritePC_seq (v : Word) (s : State) : (debugWritePC v s).seq = s.seq := rfl

/-! ### interruptEntry -/

@[simp] theorem interruptEntry_cfg (s : State) : (interruptEntry s).cfg = s.cfg := rfl

@[simp] theorem interruptEntry_x (s : State) :
    (interruptEntry s).x = s.x.set s.cfg.intLink.toNat (if s.cfg.intLink = 0 then 0 else programCounter s.slotD) s.cfg.intLink.isLt := rfl

@[simp] theorem interruptEntry_pc (s : State) : (interruptEntry s).pc = s.npc := rfl

@[simp] theorem interruptEntry_npc (s : State) : (interruptEntry s).npc = s.npc + 4 := rfl

@[simp] theorem interruptEntry_msr (s : State) : (interruptEntry s).msr = setFlag s.msr msrIE false := rfl

@[simp] theorem interruptEntry_ear (s : State) : (interruptEntry s).ear = s.ear := rfl

@[simp] theorem interruptEntry_esr (s : State) : (interruptEntry s).esr = s.esr := rfl

@[simp] theorem interruptEntry_btr (s : State) : (interruptEntry s).btr = s.btr := rfl

@[simp] theorem interruptEntry_fsr (s : State) : (interruptEntry s).fsr = s.fsr := rfl

@[simp] theorem interruptEntry_slotF (s : State) : (interruptEntry s).slotF = fetch s s.npc := rfl

@[simp] theorem interruptEntry_slotD (s : State) : (interruptEntry s).slotD = s.slotF := rfl

@[simp] theorem interruptEntry_slotE (s : State) : (interruptEntry s).slotE = .intJump (programCounter s.slotD) := rfl

@[simp] theorem interruptEntry_immInFlight (s : State) : (interruptEntry s).immInFlight = s.immInFlight := rfl

@[simp] theorem interruptEntry_acc (s : State) : (interruptEntry s).acc = s.acc := rfl

@[simp] theorem interruptEntry_retired (s : State) : (interruptEntry s).retired = s.retired := rfl

@[simp] theorem interruptEntry_mem (s : State) : (interruptEntry s).mem = s.mem := rfl

@[simp] theorem interruptEntry_breakMarks (s : State) : (interruptEntry s).breakMarks = s.breakMarks := rfl

@[simp] theorem interruptEntry_exitMarks (s : State) : (interruptEntry s).exitMarks = s.exitMarks := rfl

@[simp] theorem interruptEntry_port (s : State) : (interruptEntry s).port = s.port := rfl

@[simp] theorem interruptEntry_irq (s : State) : (interruptEntry s).irq = s.irq := rfl

@[simp] theorem interruptEntry_execQ (s : State) : (interruptEntry s).execQ = s.execQ := rfl

@[simp] theorem interruptEntry_devCalls (s : State) : (interruptEntry s).devCalls = s.devCalls := rfl

@[simp] theorem interruptEntry_reply (s : State) : (interruptEntry s).reply = s.reply := rfl

@[simp] theorem interruptEntry_busResp (s : State) : (interruptEntry s).busResp = s.busResp := rfl

@[simp] theorem interruptEntry_seq (s : State) : (interruptEntry s).seq = s.seq := rfl

/-! ## leaveAccess -/

@[simp] theorem leaveAccess_cfg (s : State) : (leaveAccess s).cfg = s.cfg := rfl

@[simp] theorem leaveAccess_x (s : State) : (leaveAccess s).x = s.x := rfl

@[simp] theorem leaveAccess_pc (s : State) : (leaveAccess s).pc = s.pc := rfl

@[simp] theorem leaveAccess_npc (s : State) : (leaveAccess s).npc = s.npc := rfl

@[simp] theorem leaveAccess_msr (s : State) : (leaveAccess s).msr = s.msr := rfl

@[simp] theorem leaveAccess_ear (s : State) : (leaveAccess s).ear = s.ear := rfl

@[simp] theorem leaveAccess_esr (s : State) : (leaveAccess s).esr = s.esr := rfl

@[simp] theorem leaveAccess_btr (s : State) : (leaveAccess s).btr = s.btr := rfl

@[simp] theorem leaveAccess_fsr (s : State) : (leaveAccess s).fsr = s.fsr := rfl

@[simp] theorem leaveAccess_slotF (s : State) : (leaveAccess s).slotF = s.slotF := rfl

@[simp] theorem leaveAccess_slotD (s : State) : (leaveAccess s).slotD = s.slotD := rfl

@[simp] theorem leaveAccess_slotE (s : State) : (leaveAccess s).slotE = s.slotE := rfl

@[simp] theorem leaveAccess_immInFlight (s : State) : (leaveAccess s).immInFlight = s.immInFlight := rfl

@[simp] theorem leaveAccess_acc (s : State) : (leaveAccess s).acc = s.acc.leave := rfl

@[simp] theorem leaveAccess_retired (s : State) : (leaveAccess s).retired = s.retired := rfl

@[simp] theorem leaveAccess_mem (s : State) : (leaveAccess s).mem = s.mem := rfl

@[simp] theorem leaveAccess_breakMarks (s : State) : (leaveAccess s).breakMarks = s.breakMarks := rfl

@[simp] theorem leaveAccess_exitMarks (s : State) : (leaveAccess s).exitMarks = s.exitMarks := rfl

@[simp] theorem leaveAccess_port (s : State) : (leaveAccess s).port = s.port := rfl

@[simp] theorem leaveAccess_irq (s : State) : (leaveAccess s).irq = s.irq := rfl

@[simp] theorem leaveAccess_execQ (s : State) : (leaveAccess s).execQ = s.execQ := rfl

@[simp] theorem leaveAccess_devCalls (s : State) : (leaveAccess s).devCalls = s.devCalls := rfl

@[simp] theorem leaveAccess_reply (s : State) : (leaveAccess s).reply = s.reply := rfl

@[simp] theorem leaveAccess_busResp (s : State) : (leaveAccess s).busResp = s.busResp := rfl

@[simp] theorem leaveAccess_seq (s : State) : (leaveAccess s).seq = s.seq := rfl

end Sys2Proof.Machine
end

