-- ==== Sys2Proof/Laws/Memory.lean ====
section
/-!
SUPPORT. Laws/Memory.lean: storage and marks. Every operation keeps the canonical form; a byte reads as last written; a write
leaves every other byte; what a write can add to the list.
-/

namespace Sys2Proof.Machine

/-! ## Bytes -/

theorem readByte_of_all_gt {m : Memory} {a : Nat} (h : m.all (fun c => decide (a < c.1)) = true) :
    readByte m a = 0 := by
  induction m with
  | nil => rfl
  | cons c rest ih =>
    obtain ⟨k, b⟩ := c
    simp only [List.all_cons, Bool.and_eq_true, decide_eq_true_eq] at h
    have : ¬ k = a := by omega
    simpa [readByte, this] using ih h.2

theorem all_gt_mono {m : Memory} {a b : Nat} (hab : a ≤ b) (h : m.all (fun c => decide (b < c.1)) = true) :
    m.all (fun c => decide (a < c.1)) = true := by
  simp only [List.all_eq_true, decide_eq_true_eq] at h ⊢
  intro c hc
  exact Nat.lt_of_le_of_lt hab (h c hc)

/-- Every entry of a written list was there before or has the written address. -/
theorem mem_writeByte {m : Memory} {a : Nat} {v : Byte} {c : Host.Cell} (h : c ∈ writeByte m a v) :
    c ∈ m ∨ c.1 = a := by
  induction m with
  | nil =>
    simp only [writeByte, consByte] at h
    split at h <;> simp_all
  | cons d rest ih =>
    obtain ⟨k, b⟩ := d
    simp only [writeByte, consByte] at h
    split at h
    · split at h <;> simp_all
      rcases h with h | h | h <;> simp_all
    · split at h
      · split at h <;> simp_all
        rcases h with h | h <;> simp_all
      · rcases List.mem_cons.1 h with h | h
        · simp [h]
        · rcases ih h with h | h <;> simp [h]

theorem readByte_writeByte_ne (m : Memory) {a b : Nat} (v : Byte) (h : a ≠ b) :
    readByte (writeByte m a v) b = readByte m b := by
  induction m with
  | nil =>
    simp only [writeByte, consByte]
    split <;> simp [readByte, h]
  | cons c rest ih =>
    obtain ⟨k, w⟩ := c
    simp only [writeByte, consByte]
    split
    · split <;> simp [readByte, h]
    · split
      · subst_vars
        split <;> simp [readByte, h]
      · simp [readByte, ih]

theorem readByte_writeByte_same {m : Memory} (h : Memory.wf m = true) (a : Nat) (v : Byte) :
    readByte (writeByte m a v) a = v := by
  induction m with
  | nil =>
    simp only [writeByte, consByte]
    split <;> simp_all [readByte]
  | cons c rest ih =>
    obtain ⟨k, w⟩ := c
    simp only [Memory.wf, Bool.and_eq_true] at h
    simp only [writeByte, consByte]
    split
    · rename_i hlt
      split
      · rename_i hv
        have hk : ¬ k = a := by omega
        have := readByte_of_all_gt (all_gt_mono (Nat.le_of_lt hlt) h.1.2)
        simp [readByte, hk, this, hv]
      · simp [readByte]
    · split
      · rename_i hk
        subst hk
        split
        · rename_i hv
          rw [readByte_of_all_gt h.1.2, hv]
        · simp [readByte]
      · rename_i hne
        have hk : ¬ k = a := fun e => hne e.symm
        simp [readByte, hk, ih h.2]

/-- A byte after a write of one byte. -/
theorem readByte_writeByte {m : Memory} (h : Memory.wf m = true) (a b : Nat) (v : Byte) :
    readByte (writeByte m a v) b = if a = b then v else readByte m b := by
  split
  · rename_i e
    subst e
    exact readByte_writeByte_same h a v
  · rename_i e
    exact readByte_writeByte_ne m v e

/-- Writing a byte keeps the canonical form. -/
theorem wf_writeByte {m : Memory} (h : Memory.wf m = true) (a : Nat) (v : Byte) :
    Memory.wf (writeByte m a v) = true := by
  induction m with
  | nil =>
    simp only [writeByte, consByte]
    split <;> simp_all [Memory.wf]
  | cons c rest ih =>
    obtain ⟨k, w⟩ := c
    have h' := h
    simp only [Memory.wf, Bool.and_eq_true] at h
    simp only [writeByte, consByte]
    split
    · rename_i hlt
      split
      · exact h'
      · rename_i hv
        have hall : rest.all (fun c => decide (a < c.1)) = true := all_gt_mono (Nat.le_of_lt hlt) h.1.2
        simp only [Memory.wf, List.all_cons, Bool.and_eq_true, decide_eq_true_eq]
        exact ⟨⟨by simpa using hv, hlt, hall⟩, h⟩
    · split
      · rename_i hk
        subst hk
        split
        · exact h.2
        · rename_i hv
          simp only [Memory.wf, Bool.and_eq_true]
          exact ⟨⟨by simpa using hv, h.1.2⟩, h.2⟩
      · rename_i hnlt hne
        simp only [Memory.wf, Bool.and_eq_true]
        refine ⟨⟨h.1.1, ?_⟩, ih h.2⟩
        have h12 := h.1.2
        simp only [List.all_eq_true, decide_eq_true_eq] at h12 ⊢
        intro c hc
        rcases mem_writeByte hc with hc | hc
        · exact h12 c hc
        · rw [hc]
          omega

/-! ## Words -/

/-- Writing a word keeps the canonical form. -/
theorem wf_writeWord {m : Memory} (h : Memory.wf m = true) (wa : Nat) (w : Word) :
    Memory.wf (writeWord m wa w) = true :=
  wf_writeByte (wf_writeByte (wf_writeByte (wf_writeByte h _ _) _ _) _ _) _ _

/-- A byte outside the written word is unchanged. -/
theorem readByte_writeWord_outside (m : Memory) (wa : Nat) (w : Word) {b : Nat} (h : b < wa ∨ wa + 4 ≤ b) :
    readByte (writeWord m wa w) b = readByte m b := by
  unfold writeWord
  repeat rw [readByte_writeByte_ne _ _ (by omega)]

/-- The four bytes of the written word, the most significant at the lowest address. -/
theorem readByte_writeWord_inside {m : Memory} (h : Memory.wf m = true) (wa : Nat) (w : Word) {k : Nat} (hk : k < 4) :
    readByte (writeWord m wa w) (wa + k) = w.extractLsb' (24 - 8 * k) 8 := by
  have h1 := wf_writeByte h wa (w.extractLsb' 24 8)
  have h2 := wf_writeByte h1 (wa + 1) (w.extractLsb' 16 8)
  have h3 := wf_writeByte h2 (wa + 2) (w.extractLsb' 8 8)
  unfold writeWord
  rw [readByte_writeByte h3, readByte_writeByte h2, readByte_writeByte h1, readByte_writeByte h]
  have : k = 0 ∨ k = 1 ∨ k = 2 ∨ k = 3 := by omega
  rcases this with rfl | rfl | rfl | rfl <;> simp

theorem word_of_its_bytes (w : Word) :
    (w.extractLsb' 24 8 ++ w.extractLsb' 16 8 ++ w.extractLsb' 8 8 ++ w.extractLsb' 0 8 : BitVec 32) = w := by
  apply BitVec.eq_of_getLsbD_eq
  intro i hi
  have hi' : i < 32 := hi
  rw [BitVec.getLsbD_append, BitVec.getLsbD_append, BitVec.getLsbD_append]
  simp only [BitVec.getLsbD_extractLsb']
  split
  · simp [*]
  · split
    · rename_i h1 h2
      have : 8 + (i - 8) = i := by omega
      simp [*]
    · split
      · rename_i h1 h2 h3
        have : 16 + (i - 8 - 8) = i := by omega
        simp [*]
      · rename_i h1 h2 h3
        have e : 24 + (i - 8 - 8 - 8) = i := by omega
        have : i - 8 - 8 - 8 < 8 := by omega
        simp [*]

/-- A word reads as last written. -/
theorem readWord_writeWord {m : Memory} (h : Memory.wf m = true) (wa : Nat) (w : Word) :
    readWord (writeWord m wa w) wa = w := by
  unfold readWord
  have e0 := readByte_writeWord_inside h wa w (k := 0) (by omega)
  have e1 := readByte_writeWord_inside h wa w (k := 1) (by omega)
  have e2 := readByte_writeWord_inside h wa w (k := 2) (by omega)
  have e3 := readByte_writeWord_inside h wa w (k := 3) (by omega)
  simp only [Nat.add_zero, Nat.mul_zero, Nat.sub_zero] at e0
  rw [e0, e1, e2, e3]
  exact word_of_its_bytes w

/-- A word apart from the written one is unchanged. -/
theorem readWord_writeWord_apart (m : Memory) (wa : Nat) (w : Word) {wb : Nat} (h : wb + 4 ≤ wa ∨ wa + 4 ≤ wb) :
    readWord (writeWord m wa w) wb = readWord m wb := by
  unfold readWord
  repeat rw [readByte_writeWord_outside _ _ _ (by omega)]

/-- Every entry of a list with a word written was there before or lies in the word. -/
theorem mem_writeWord {m : Memory} {wa : Nat} {w : Word} {c : Host.Cell} (h : c ∈ writeWord m wa w) :
    c ∈ m ∨ (wa ≤ c.1 ∧ c.1 < wa + 4) := by
  unfold writeWord at h
  rcases mem_writeByte h with h | h
  · rcases mem_writeByte h with h | h
    · rcases mem_writeByte h with h | h
      · rcases mem_writeByte h with h | h
        · exact .inl h
        · exact .inr (by omega)
      · exact .inr (by omega)
    · exact .inr (by omega)
  · exact .inr (by omega)

/-- MemWrite keeps the canonical form. -/
theorem wf_memWrite {s : State} (h : Memory.wf s.mem = true) (a : Word) (size : Size) (v : Word) :
    Memory.wf (memWrite s a size v).mem = true := wf_writeWord h _ _

/-- The reset memory is canonical. -/
theorem wf_reset : Memory.wf State.reset.mem = true := rfl

/-! ## Marks -/

theorem mem_addMark {l : List Nat} {a b : Nat} : b ∈ addMark l a ↔ b = a ∨ b ∈ l := by
  induction l with
  | nil => simp [addMark]
  | cons k rest ih =>
    simp only [addMark]
    split
    · simp
    · split
      · subst_vars
        simp
      · simp [ih]
        tauto

theorem mem_dropMark {l : List Nat} {a b : Nat} : b ∈ dropMark l a ↔ b ≠ a ∧ b ∈ l := by
  simp [dropMark, and_comm]

theorem rising_addMark {l : List Nat} (h : rising l = true) (a : Nat) : rising (addMark l a) = true := by
  induction l with
  | nil => rfl
  | cons k rest ih =>
    have h' := h
    simp only [rising, Bool.and_eq_true, List.all_eq_true, decide_eq_true_eq] at h
    simp only [addMark]
    split
    · rename_i hlt
      simp only [rising, Bool.and_eq_true, List.all_eq_true, decide_eq_true_eq, List.mem_cons, forall_eq_or_imp]
      exact ⟨⟨hlt, fun b hb => Nat.lt_trans hlt (h.1 b hb)⟩, h⟩
    · split
      · exact h'
      · simp only [rising, Bool.and_eq_true, List.all_eq_true, decide_eq_true_eq]
        refine ⟨fun b hb => ?_, ih h.2⟩
        rcases mem_addMark.1 hb with rfl | hb
        · omega
        · exact h.1 b hb

theorem rising_dropMark {l : List Nat} (h : rising l = true) (a : Nat) : rising (dropMark l a) = true := by
  induction l with
  | nil => rfl
  | cons k rest ih =>
    simp only [rising, Bool.and_eq_true, List.all_eq_true, decide_eq_true_eq] at h
    simp only [dropMark, List.filter_cons]
    split
    · simp only [rising, Bool.and_eq_true, List.all_eq_true, decide_eq_true_eq]
      exact ⟨fun b hb => h.1 b (mem_dropMark.1 hb).2, ih h.2⟩
    · exact ih h.2

/-- Taking a mark out that was just put in gives the list back. -/
theorem dropMark_addMark {l : List Nat} {a : Nat} (h : rising l = true) (ha : a ∉ l) : dropMark (addMark l a) a = l := by
  induction l with
  | nil => simp [addMark, dropMark]
  | cons k rest ih =>
    simp only [List.mem_cons, not_or] at ha
    simp only [rising, Bool.and_eq_true] at h
    have hk : k ≠ a := fun e => ha.1 e.symm
    simp only [addMark]
    split
    · have : ∀ b ∈ rest, b ≠ a := fun b hb e => ha.2 (e ▸ hb)
      simp [dropMark, hk]
      exact this
    · simp only [ha.1, if_false]
      have := ih h.2 ha.2
      simp only [dropMark] at this ⊢
      simp [hk]
      simpa using this

end Sys2Proof.Machine
end

