-- ==== Sys2Proof/Laws/Decoder.lean ====
section
/-!
SUPPORT. Laws/Decoder.lean: the external decoder as data loses nothing; what the decoder, a store entry and a fetch can be;
requests and their codes.
-/

namespace Sys2Proof.Laws.Decoder

open Sys2Proof.Machine

theorem exactPattern_matches (p : Word × Word) (a w : Word) :
    patternMatches ⟨0xFFFFFFFF, p.1, 0xFFFFFFFF, p.2⟩ a w = true ↔ p = (a, w) := by
  have hm : ∀ v : Word, v &&& 0xFFFFFFFF = v := fun v => by
    have : (0xFFFFFFFF : Word) = BitVec.allOnes 32 := by decide
    rw [this, BitVec.and_allOnes]
  simp only [patternMatches, hm, Bool.and_eq_true, beq_iff_eq, Prod.ext_iff]
  constructor <;> rintro ⟨h1, h2⟩ <;> exact ⟨h1.symm, h2.symm⟩

/-- R143. Any total function that marks some (address, word) pairs as illegal is the decoder of a list of patterns. -/
theorem every_decoder_is_a_list_of_patterns (f : Word → Word → Bool) :
    ∃ l : List WordPattern, ∀ a w, l.any (patternMatches · a w) = f a w := by
  classical
  refine ⟨((Finset.univ : Finset (Word × Word)).filter fun p => f p.1 p.2 = true).toList.map fun p =>
    ⟨0xFFFFFFFF, p.1, 0xFFFFFFFF, p.2⟩, fun a w => ?_⟩
  rw [Bool.eq_iff_iff, List.any_eq_true]
  constructor
  · rintro ⟨q, hq, hm⟩
    obtain ⟨p, hp, rfl⟩ := List.mem_map.1 hq
    obtain rfl := (exactPattern_matches p a w).1 hm
    simpa using hp
  · intro hf
    exact ⟨_, List.mem_map.2 ⟨(a, w), by simpa using hf, rfl⟩, (exactPattern_matches (a, w) a w).2 rfl⟩

end Sys2Proof.Laws.Decoder

namespace Sys2Proof.Machine

@[simp] theorem decodeWord_pc (c : Config) (a w : Word) : (decodeWord c a w).pc = a := by
  unfold decodeWord
  split <;> rfl

@[simp] theorem programCounter_wrapBody (isBreak isExit : Bool) (b : Body) :
    programCounter (wrapBody isBreak isExit b) = b.pc := by
  cases isBreak <;> cases isExit <;> cases b <;> rfl

@[simp] theorem programCounter_fetch (s : State) (a : Word) : programCounter (fetch s a) = a := by
  unfold fetch
  split
  · simp [entryAt]
  · rfl

theorem wrapBody_eq_bp {isBreak isExit : Bool} {b : Body} {e : Marked} :
    wrapBody isBreak isExit b = .bp e ↔ isBreak = true ∧ e = (if isExit then .exit b else .plain b) := by
  cases isBreak <;> cases isExit <;> cases b <;> simp [wrapBody, bodySlot, eq_comm]

/-- A store entry is a decoded word under wrappers: never Empty, Unmapped or InterruptJump (R84). -/
theorem entryAt_ne (s : State) (a : Word) :
    entryAt s a ≠ .empty ∧ (∀ b, entryAt s a ≠ .unmapped b) ∧ ∀ b, entryAt s a ≠ .intJump b := by
  have wrapped : ∀ (x y : Bool) (b : Body),
      wrapBody x y b ≠ .empty ∧ (∀ c, wrapBody x y b ≠ .unmapped c) ∧ ∀ c, wrapBody x y b ≠ .intJump c := by
    intro x y b
    cases x <;> cases y <;> cases b <;> simp [wrapBody, bodySlot]
  exact wrapped _ _ _

theorem notIntJump_fetch (s : State) (a : Word) : notIntJump (fetch s a) = true := by
  unfold fetch
  split
  · have := (entryAt_ne s a).2.2
    cases h : entryAt s a <;> first | rfl | (exact absurd h (this _))
  · rfl

/-- The six legal request codes read back (R116). -/
@[simp] theorem decodeReq_encodeReq (op : AccessOp) (size : Size) : decodeReq (encodeReq op size) = some (op, size) := by
  cases op <;> cases size <;> decide

@[simp] theorem pollReq_pollOf_read (size : Size) (a : Word) :
    pollReq (pollOf ⟨.read, size, a, 0⟩) = some ⟨.read, size, a, 0⟩ := by
  simp [pollReq, pollOf, mkReq]

@[simp] theorem pollReq_pollOf_write (size : Size) (a v : Word) :
    pollReq (pollOf ⟨.write, size, a, v⟩) = some ⟨.write, size, a, v⟩ := by
  simp [pollReq, pollOf, mkReq]

/-- The poll of a request as the arbiter keeps it carries that request. -/
theorem pollReq_pollOf {r : BusReq} (h : r = mkReq r.op r.size r.addr r.wdata) : pollReq (pollOf r) = some r := by
  obtain ⟨op, size, a, v⟩ := r
  cases op
  · have hv : v = 0 := by simpa [mkReq] using h
    rw [hv]
    exact pollReq_pollOf_read size a
  · simp

/-- The request of a poll is one the arbiter keeps. -/
theorem pollReq_normal {p : RawPoll} {r : BusReq} (h : pollReq p = some r) :
    r = mkReq r.op r.size r.addr r.wdata := by
  simp only [pollReq, Option.map_eq_some_iff] at h
  obtain ⟨⟨op, size⟩, _, rfl⟩ := h
  cases op <;> rfl

end Sys2Proof.Machine
end

