-- ==== Sys2Proof/Laws/Regions.lean ====
section
/-!
SUPPORT. Laws/Regions.lean: the address map under a well-formed configuration: storage is LB or PB, a storage word lies in
storage whole, the classes of R74 and the latencies.
-/

namespace Sys2Proof.Machine

/-- LB or PB, whatever the devices (R64). -/
theorem isStorage_eq (c : Config) (a : Word) :
    isStorage c a = (inBank c.localBus a || c.peripheralBus.toList.any (inBank · a)) := by
  unfold isStorage region
  cases h1 : inBank c.localBus a
  · cases h2 : c.peripheralBus.toList.any (inBank · a)
    · cases h3 : c.devices.find? (inDevice · a) <;> simp
    · simp
  · simp

theorem isStorage_iff_region (c : Config) (a : Word) :
    isStorage c a = true ↔ region c a = .localBus ∨ region c a = .peripheralBus := by
  unfold isStorage
  cases region c a <;> simp

theorem aligned_word_iff (a : Word) : aligned a .word = true ↔ a.toNat % 4 = 0 := by
  have h0 := BitVec.getLsbD_eq_getElem (x := a) (i := 0) (by omega)
  simp only [aligned, Bool.and_eq_true, Bool.not_eq_true', BitVec.getLsbD, Nat.testBit_eq_decide_div_mod_eq,
    decide_eq_false_iff_not]
  omega

theorem aligned_half_iff (a : Word) : aligned a .half = true ↔ a.toNat % 2 = 0 := by
  simp only [aligned, Bool.not_eq_true', BitVec.getLsbD, Nat.testBit_eq_decide_div_mod_eq,
    decide_eq_false_iff_not]
  omega

/-- The bytes of a storage word are storage, its region being word-aligned (R9, R61, R62). -/
theorem inBank_of_same_word {b : Bank} (hb : b.wf = true) {a a' : Word} (h : inBank b a = true)
    (hw : a'.toNat / 4 = a.toNat / 4) : inBank b a' = true := by
  simp only [Bank.wf, Bool.and_eq_true, beq_iff_eq, decide_eq_true_eq] at hb
  simp only [inBank, Bool.and_eq_true, decide_eq_true_eq] at h ⊢
  omega

theorem isStorage_of_same_word {c : Config} (hc : c.wf = true) {a a' : Word} (h : isStorage c a = true)
    (hw : a'.toNat / 4 = a.toNat / 4) : isStorage c a' = true := by
  simp only [Config.wf, Bool.and_eq_true, List.all_eq_true] at hc
  have hlb := hc.1.1.1.1.1.1.1.1.1.1
  have hpb := hc.1.1.1.1.1.1.1.1.1.2
  rw [isStorage_eq, Bool.or_eq_true, List.any_eq_true] at h ⊢
  rcases h with h | ⟨b, hb, h⟩
  · exact .inl (inBank_of_same_word hlb h hw)
  · exact .inr ⟨b, hb, inBank_of_same_word (hpb b hb) h hw⟩

/-- The word of a storage byte, as `wordAddr` gives it. -/
theorem wordAddr_spec (a : Word) : wordAddr a = 4 * (a.toNat / 4) := by
  unfold wordAddr
  omega

theorem fetchable_iff (c : Config) (a : Word) :
    fetchable c a = true ↔ aligned a .word = true ∧ isStorage c a = true := by
  simp [fetchable]

/-- A class LB or PB is an aligned access to storage (R74). -/
theorem classify_storage {c : Config} {r : BusReq} (h : classify c r = .localBus ∨ classify c r = .peripheralBus) :
    aligned r.addr r.size = true ∧ isStorage c r.addr = true := by
  unfold classify at h
  cases ha : aligned r.addr r.size
  · simp [ha] at h
  · refine ⟨rfl, ?_⟩
    simp only [ha, Bool.not_true, Bool.false_eq_true, if_false] at h
    rw [isStorage_iff_region]
    cases hr : region c r.addr with
    | localBus => simp
    | peripheralBus => simp
    | device d =>
      rw [hr] at h
      by_cases hw : r.size = .word <;> simp [hw] at h
    | none => simp [hr] at h

/-- A class DEV(d) is a word access to a device of the configuration (R74). -/
theorem classify_device {c : Config} {r : BusReq} {d : Device} (h : classify c r = .device d) : d ∈ c.devices := by
  unfold classify at h
  split at h
  · simp at h
  · cases hr : region c r.addr with
    | localBus => simp [hr] at h
    | peripheralBus => simp [hr] at h
    | none => simp [hr] at h
    | device d' =>
      simp only [hr] at h
      have hd : d' = d := by
        by_cases hw : r.size = .word
        · simpa [hw] using h
        · simp [hw] at h
      subst hd
      unfold region at hr
      split at hr
      · simp at hr
      · split at hr
        · simp at hr
        · cases hf : c.devices.find? (inDevice · r.addr) with
          | none => simp [hf] at hr
          | some d'' =>
            simp only [hf, Region.device.injEq] at hr
            exact hr ▸ List.mem_of_find?_eq_some hf

/-- Every latency of a well-formed configuration is at least 1 (R9). -/
theorem one_le_latency {c : Config} (hc : c.wf = true) (r : BusReq) : 1 ≤ latency c (classify c r) r.op := by
  simp only [Config.wf, Bool.and_eq_true, List.all_eq_true, decide_eq_true_eq] at hc
  have hlb := hc.1.1.1.1.1.1.1.1.1.1
  have hpb := hc.1.1.1.1.1.1.1.1.1.2
  have hdev := hc.1.1.1.1.1.1.1.1.2
  have hpen := hc.1.1.1.1.1.1.2
  have hpoll := hc.1.1.1.1.1.2
  have bank : ∀ b : Bank, b.wf = true → ∀ op, 1 ≤ bankLat b op := by
    intro b hb op
    simp only [Bank.wf, Bool.and_eq_true, decide_eq_true_eq] at hb
    cases op <;> simp [bankLat, hb]
  cases hcl : classify c r with
  | localBus => exact bank _ hlb _
  | peripheralBus =>
    cases hp : c.peripheralBus with
    | none => simp [latency, hp]
    | some b =>
      have := bank b (hpb b (by simp [hp])) r.op
      simpa [latency, hp] using this
  | device d =>
    have := hdev d (classify_device hcl)
    simp only [Device.wf, Bool.and_eq_true, decide_eq_true_eq] at this
    cases hop : r.op <;> simp [latency, this]
  | unmapped => exact hpen
  | unaligned =>
    simp only [Bool.or_eq_true, beq_iff_eq] at hpoll
    simp only [latency]
    omega

end Sys2Proof.Machine
end

