-- ==== Sys2Proof/Laws/Registers.lean ====
section
/-!
SUPPORT. Laws/Registers.lean: a general register reads as last written, register 0 as 0 (R21); what Exec's writes leave alone
(R144).
-/

namespace Sys2Proof.Machine

/-- A register after a write (R21). -/
theorem readGpr_writeGpr (s : State) (i j : BitVec 5) (v : Word) :
    readGpr (writeGpr s i v) j = if j = i then (if i = 0 then 0 else v) else readGpr s j := by
  unfold readGpr writeGpr
  by_cases hj : j = 0
  · subst hj
    by_cases hi : i = 0
    · simp [hi]
    · simp
      exact fun e k => absurd e.symm k
  · by_cases h : j = i
    · subst h
      simp [Vector.get_eq_getElem]
      exact fun e k => absurd e k
    · have hn : i.toNat ≠ j.toNat := fun e => h (BitVec.eq_of_toNat_eq e.symm)
      simp [h, Vector.get_eq_getElem, hn]

/-- A write keeps register 0 at 0 (R21). -/
theorem zero_writeGpr {s : State} (h : s.x.get 0 = 0) (i : BitVec 5) (v : Word) : (writeGpr s i v).x.get 0 = 0 := by
  have h0 : s.x[0] = 0 := h
  show (s.x.set i.toNat (if i = 0 then 0 else v) i.isLt)[0] = 0
  rw [Vector.getElem_set]
  split
  · rename_i hi
    have : i = 0 := BitVec.eq_of_toNat_eq (by simpa using hi)
    simp [this]
  · exact h0

/-- Reading register 0 (R21). -/
@[simp] theorem readGpr_zero (s : State) : readGpr s 0 = 0 := rfl

/-- What the writes of Exec cannot change: the fields its contract does not list (R144), register 0 among what they can. -/
structure ExecFrame (s t : State) : Prop where
  cfg : t.cfg = s.cfg
  slotF : t.slotF = s.slotF
  slotD : t.slotD = s.slotD
  slotE : t.slotE = s.slotE
  acc : t.acc = s.acc
  retired : t.retired = s.retired
  mem : t.mem = s.mem
  breakMarks : t.breakMarks = s.breakMarks
  exitMarks : t.exitMarks = s.exitMarks
  port : t.port = s.port
  irq : t.irq = s.irq
  execQ : t.execQ = s.execQ
  devCalls : t.devCalls = s.devCalls
  reply : t.reply = s.reply
  busResp : t.busResp = s.busResp
  seq : t.seq = s.seq
  zero : s.x.get 0 = 0 → t.x.get 0 = 0

theorem ExecFrame.refl (s : State) : ExecFrame s s := by constructor <;> simp

theorem ExecFrame.trans {s t u : State} (h : ExecFrame s t) (k : ExecFrame t u) : ExecFrame s u where
  cfg := k.cfg.trans h.cfg
  slotF := k.slotF.trans h.slotF
  slotD := k.slotD.trans h.slotD
  slotE := k.slotE.trans h.slotE
  acc := k.acc.trans h.acc
  retired := k.retired.trans h.retired
  mem := k.mem.trans h.mem
  breakMarks := k.breakMarks.trans h.breakMarks
  exitMarks := k.exitMarks.trans h.exitMarks
  port := k.port.trans h.port
  irq := k.irq.trans h.irq
  execQ := k.execQ.trans h.execQ
  devCalls := k.devCalls.trans h.devCalls
  reply := k.reply.trans h.reply
  busResp := k.busResp.trans h.busResp
  seq := k.seq.trans h.seq
  zero := k.zero ∘ h.zero

theorem execFrame_foldl {α : Type} (f : State → α → State) (hf : ∀ t x, ExecFrame t (f t x)) (l : List α) (s : State) :
    ExecFrame s (l.foldl f s) := by
  induction l generalizing s with
  | nil => exact .refl s
  | cons x rest ih => exact (hf s x).trans (ih _)

theorem execFrame_writeGpr (s : State) (i : BitVec 5) (v : Word) : ExecFrame s (writeGpr s i v) where
  cfg := rfl
  slotF := rfl
  slotD := rfl
  slotE := rfl
  acc := rfl
  retired := rfl
  mem := rfl
  breakMarks := rfl
  exitMarks := rfl
  port := rfl
  irq := rfl
  execQ := rfl
  devCalls := rfl
  reply := rfl
  busResp := rfl
  seq := rfl
  zero := fun h => zero_writeGpr h i v

theorem execFrame_writeSpecial (s : State) (r : SpecialReg) (v : Word) : ExecFrame s (writeSpecial s r v) := by
  cases r <;> constructor <;> first | rfl | exact id

theorem execFrame_writePC (t : Word) (s : State) : ExecFrame s (writePC t s) := by
  constructor <;> first | rfl | exact id

theorem execFrame_applyWrites (w : ExecWrites Word) (s : State) : ExecFrame s (applyWrites w s) := by
  unfold applyWrites
  refine .trans (execFrame_foldl (fun t (i, v) => writeGpr t i v) (fun t x => execFrame_writeGpr t x.1 _) w.gprs s) ?_
  refine .trans (execFrame_foldl (fun t (r, v) => writeSpecial t r v)
    (fun t x => execFrame_writeSpecial t x.1 _) w.specials _) ?_
  exact execFrame_foldl (fun t v => writePC v t) (fun t x => execFrame_writePC _ t) w.redirects _

/-- The writes of a step of Exec stay within R144. -/
theorem execFrame_execWrites (ans : ExecAnswer) (oc : OutcomeCode) (w : ExecWrites Word) (s : State) :
    ExecFrame s (execWrites ans oc w s) := by
  refine (execFrame_applyWrites w s).trans ?_
  constructor <;> first | rfl | exact id

theorem foldl_keeps {α β : Type} (get : State → β) (f : State → α → State) (hf : ∀ t x, get (f t x) = get t)
    (l : List α) (s : State) : get (l.foldl f s) = get s := by
  induction l generalizing s with
  | nil => rfl
  | cons x rest ih => exact (ih _).trans (hf s x)

/-- `npc` is written by WritePC alone, with `pc` (R25, R144). -/
theorem npc_applyWrites (w : ExecWrites Word) (s : State) :
    ((applyWrites w s).pc = s.pc ∧ (applyWrites w s).npc = s.npc) ∨ (applyWrites w s).npc = (applyWrites w s).pc + 4 := by
  have key : ∀ (l : List Word) (u : State),
      ((l.foldl (fun t v => writePC v t) u).pc = u.pc ∧ (l.foldl (fun t v => writePC v t) u).npc = u.npc) ∨
        (l.foldl (fun t v => writePC v t) u).npc = (l.foldl (fun t v => writePC v t) u).pc + 4 := by
    intro l
    induction l with
    | nil => exact fun u => .inl ⟨rfl, rfl⟩
    | cons x rest ih =>
      intro u
      rcases ih (writePC x u) with ⟨h1, h2⟩ | h
      · refine .inr ?_
        simp only [List.foldl_cons, h1, h2]
        rfl
      · exact .inr h
  have gprs := foldl_keeps (fun s => (s.pc, s.npc)) (fun t (x : BitVec 5 × Word) => writeGpr t x.1 x.2)
    (fun _ _ => rfl) w.gprs s
  have specials := fun u => foldl_keeps (fun s => (s.pc, s.npc))
    (fun t (x : SpecialReg × Word) => writeSpecial t x.1 x.2) (fun t x => by rcases x with ⟨r, v⟩; cases r <;> rfl)
    w.specials u
  have e := Prod.mk.inj ((specials _).trans gprs)
  rcases key w.redirects _ with ⟨h1, h2⟩ | h
  · exact .inl ⟨h1.trans e.1, h2.trans e.2⟩
  · exact .inr h

/-- Writes that name no MSR leave it (R144). -/
theorem msr_applyWrites {w : ExecWrites Word} (h : ∀ p ∈ w.specials, p.1 ≠ .msr) (s : State) :
    (applyWrites w s).msr = s.msr := by
  have key : ∀ (l : List (SpecialReg × Word)) (u : State), (∀ p ∈ l, p.1 ≠ .msr) →
      (l.foldl (fun t (x : SpecialReg × Word) => writeSpecial t x.1 x.2) u).msr = u.msr := by
    intro l
    induction l with
    | nil => exact fun _ _ => rfl
    | cons x rest ih =>
      intro u hl
      refine (ih _ fun p hp => hl p (List.mem_cons_of_mem _ hp)).trans ?_
      have hx := hl x List.mem_cons_self
      rcases x with ⟨r, v⟩
      cases r <;> first | rfl | exact absurd rfl hx
  refine (foldl_keeps State.msr (fun t v => writePC v t) (fun _ _ => rfl) w.redirects _).trans ?_
  refine (key w.specials _ h).trans ?_
  exact foldl_keeps State.msr (fun t (x : BitVec 5 × Word) => writeGpr t x.1 x.2) (fun _ _ => rfl) w.gprs s

end Sys2Proof.Machine
end

