-- ==== Sys2Proof/Laws/Arbiter.lean ====
section
/-!
SUPPORT. Laws/Arbiter.lean: everything one poll can do (R75, R80), and what it cannot touch.
-/

namespace Sys2Proof.Machine

/-- Below the latency: Busy, and the Access State counts the poll. -/
theorem pollAt_below {cls : AccessClass} {n : Nat} {r : BusReq} {s : State} (h : n < latency s.cfg cls r.op) :
    pollAt cls n r s = (.busy, { s with acc := .pending cls n r }) := by
  simp [pollAt, h]

/-- From the latency on: completion, the Access State Idle. -/
theorem pollAt_last {cls : AccessClass} {n : Nat} {r : BusReq} {s : State} (h : latency s.cfg cls r.op ≤ n) :
    pollAt cls n r s = complete cls r { s with acc := .idle } := by
  simp [pollAt, Nat.not_lt.2 h]

theorem complete_read {cls : AccessClass} {r : BusReq} (s : State) (hop : r.op = .read)
    (hc : cls = .localBus ∨ cls = .peripheralBus) :
    complete cls r s = (.ready (memRead s r.addr r.size), s) := by
  rcases hc with rfl | rfl <;> simp [complete, hop]

theorem complete_write {cls : AccessClass} {r : BusReq} (s : State) (hop : r.op = .write)
    (hc : cls = .localBus ∨ cls = .peripheralBus) :
    complete cls r s = (.ready 0, memWrite s r.addr r.size r.wdata) := by
  rcases hc with rfl | rfl <;> simp [complete, hop]

/-- What completion can do: report a fault with no action, read storage, write storage of the class, call a device. -/
theorem complete_cases (cls : AccessClass) (r : BusReq) (s : State) :
    (complete cls r s).2 = s ∨
    ((cls = .localBus ∨ cls = .peripheralBus) ∧ r.op = .write ∧
      (complete cls r s).2 = memWrite s r.addr r.size r.wdata) ∨
    (∃ d, cls = .device d ∧
      ((complete cls r s).2 = (deviceGet d s).2 ∨ (complete cls r s).2 = devicePut d r.wdata s)) := by
  cases cls with
  | unaligned => exact .inl (by cases h : r.op <;> rfl)
  | unmapped => exact .inl (by cases h : r.op <;> rfl)
  | localBus =>
    cases hop : r.op
    · exact .inl (by rw [complete_read s hop (.inl rfl)])
    · exact .inr (.inl ⟨.inl rfl, rfl, by rw [complete_write s hop (.inl rfl)]⟩)
  | peripheralBus =>
    cases hop : r.op
    · exact .inl (by rw [complete_read s hop (.inr rfl)])
    · exact .inr (.inl ⟨.inr rfl, rfl, by rw [complete_write s hop (.inr rfl)]⟩)
  | device d =>
    refine .inr (.inr ⟨d, rfl, ?_⟩)
    cases hop : r.op
    · exact .inl (by simp [complete, hop])
    · exact .inr (by simp [complete, hop])

/-- What a poll can change. -/
theorem complete_frame (cls : AccessClass) (r : BusReq) (s : State) :
    (complete cls r s).2 =
      { s with mem := (complete cls r s).2.mem, devCalls := (complete cls r s).2.devCalls,
               seq := (complete cls r s).2.seq } := by
  rcases complete_cases cls r s with h | ⟨-, -, h⟩ | ⟨d, -, h | h⟩ <;> rw [h] <;> rfl

/-- An access its instruction leaves is still the one in flight (R83). -/
@[simp] theorem inFlight_leave (a : AccessState) : a.leave.inFlight = a.inFlight := by
  cases a <;> rfl

/-- What is left is no instruction's own. -/
theorem leave_ne_pending (a : AccessState) (cls : AccessClass) (n : Nat) (r : BusReq) : a.leave ≠ .pending cls n r := by
  cases a <;> simp [AccessState.leave]

/-- One poll, in each of its cases: refused, Busy, or completed (R75, R77). -/
theorem busAccess_cases {r : BusReq} {s t : State} {resp : BusResp} (h : busAccess r s = .ok (resp, t)) :
    ∃ cls n, ((s.acc.inFlight = none ∧ cls = classify s.cfg r ∧ n = 1) ∨ ∃ k, s.acc.inFlight = some (cls, k, r) ∧ n = k + 1) ∧
      ((n < latency s.cfg cls r.op ∧ resp = .busy ∧ t = { s with acc := .pending cls n r }) ∨
       (latency s.cfg cls r.op ≤ n ∧ (resp, t) = complete cls r { s with acc := .idle })) := by
  have poll : ∀ cls n, (resp, t) = pollAt cls n r s →
      (n < latency s.cfg cls r.op ∧ resp = .busy ∧ t = { s with acc := .pending cls n r }) ∨
       (latency s.cfg cls r.op ≤ n ∧ (resp, t) = complete cls r { s with acc := .idle }) := by
    intro cls n hp
    by_cases hl : n < latency s.cfg cls r.op
    · rw [pollAt_below hl] at hp
      exact .inl ⟨hl, (Prod.mk.inj hp).1, (Prod.mk.inj hp).2⟩
    · rw [pollAt_last (Nat.not_lt.1 hl)] at hp
      exact .inr ⟨Nat.not_lt.1 hl, hp⟩
  unfold busAccess at h
  cases hacc : s.acc.inFlight with
  | none =>
    simp only [hacc, Except.ok.injEq] at h
    exact ⟨_, 1, .inl ⟨rfl, rfl, rfl⟩, poll _ _ h.symm⟩
  | some v =>
    obtain ⟨cls, k, r'⟩ := v
    simp only [hacc] at h
    split at h
    · rename_i hr
      subst hr
      simp only [Except.ok.injEq] at h
      exact ⟨cls, k + 1, .inr ⟨k, rfl, rfl⟩, poll _ _ h.symm⟩
    · cases h

/-- A poll that is the `n`-th of an access of class `cls` is that poll (R75). -/
theorem busAccess_of_next {r : BusReq} {s : State} {cls : AccessClass} {n : Nat}
    (h : (s.acc.inFlight = none ∧ cls = classify s.cfg r ∧ n = 1) ∨ ∃ k, s.acc.inFlight = some (cls, k, r) ∧ n = k + 1) :
    busAccess r s = .ok (pollAt cls n r s) := by
  rcases h with ⟨ha, rfl, rfl⟩ | ⟨k, ha, rfl⟩
  · simp [busAccess, ha]
  · simp [busAccess, ha]

/-- What a poll can change: the Access State, storage, the record of device calls, the count of free values. -/
theorem busAccess_frame {r : BusReq} {s t : State} {resp : BusResp} (h : busAccess r s = .ok (resp, t)) :
    t = { s with acc := t.acc, mem := t.mem, devCalls := t.devCalls, seq := t.seq } := by
  obtain ⟨cls, n, -, ⟨-, -, rfl⟩ | ⟨-, h⟩⟩ := busAccess_cases h
  · rfl
  · have f := complete_frame cls r { s with acc := .idle }
    rw [← h] at f
    have ha : t.acc = .idle := congrArg State.acc f
    rw [ha]
    exact f

/-- The Access State after a poll: Idle, unless the response is Busy (R75). -/
theorem acc_busAccess {r : BusReq} {s t : State} {resp : BusResp} (h : busAccess r s = .ok (resp, t)) :
    resp = .busy ∨ t.acc = .idle := by
  obtain ⟨cls, n, -, ⟨-, h, -⟩ | ⟨-, h⟩⟩ := busAccess_cases h
  · exact .inl h
  · have f := complete_frame cls r { s with acc := .idle }
    rw [← h] at f
    exact .inr (congrArg State.acc f)

end Sys2Proof.Machine
end

