-- ==== Sys2Proof/Laws/Pipeline.lean ====
section
/-!
SUPPORT. Laws/Pipeline.lean: everything a step of the execute slot can do, exception entry field by field, and which slot
movements a transition is made of.
-/

namespace Sys2Proof.Machine

/-- The status word after exception entry: EIP set, EE cleared, every other bit kept (R253, D6). -/
theorem entry_status (m : Word) :
    setFlag (setFlag m msrEIP true) msrEE false = (m ||| 0x00000200) &&& 0xFFFFFEFF := rfl

/-- The status word after interrupt entry: IE cleared, every other bit kept (R260, D6). -/
theorem interrupt_status (m : Word) : setFlag m msrIE false = m &&& 0xFFFFFFFD := rfl

/-- A bit of a status word after one is written. -/
theorem getLsbD_setFlag (m : Word) (i k : Nat) (b : Bool) (h : k ≠ i) : (setFlag m i b).getLsbD k = m.getLsbD k := by
  unfold setFlag
  have hik : ¬ i = k := fun e => h e.symm
  cases b
  · by_cases hk : k < 32
    · simp [BitVec.getLsbD_twoPow, hik]
      intro hm
      exact hk
    · simp [BitVec.getLsbD_of_ge _ _ (Nat.not_lt.1 hk)]
  · simp [BitVec.getLsbD_twoPow, hik]

/-- Exception entry as one update (R253, R255). -/
theorem exceptionEntry_eq (oc : OutcomeCode) (info : Word) (s : State) :
    exceptionEntry oc info s =
      { s with
        x := (writeGpr s s.cfg.excLink (programCounter s.slotE + 4)).x
        esr := (causeCode oc).setWidth 32
        ear := if writesEar oc then info else s.ear
        msr := (s.msr ||| 0x00000200) &&& 0xFFFFFEFF
        immInFlight := false
        pc := s.cfg.excVector
        npc := s.cfg.excVector + 4
        slotE := .empty
        slotD := .empty
        slotF := fetch s s.cfg.excVector } := by
  unfold exceptionEntry
  cases h : writesEar oc <;> rfl

/-- Interrupt entry as one update (R260). -/
theorem interruptEntry_eq (s : State) :
    interruptEntry s =
      { s with
        x := (writeGpr s s.cfg.intLink (programCounter s.slotD)).x
        msr := s.msr &&& 0xFFFFFFFD
        pc := s.npc
        npc := s.npc + 4
        slotE := .intJump (programCounter s.slotD)
        slotD := s.slotF
        slotF := fetch s s.npc } := rfl

/-- The interrupt check fails exactly when one of its four conditions does (R259). -/
theorem interruptCondition_eq_false_iff (irq : Bool) (s : State) :
    interruptCondition irq s = false ↔
      (irq = false ∨ getFlag s.msr 1 = false ∨ s.immInFlight = true ∨ s.slotD = .empty) := by
  unfold interruptCondition msrIE
  cases irq <;> cases getFlag s.msr 1 <;> cases s.immInFlight <;> by_cases h : s.slotD = .empty <;> simp [h]

/-- The slot movements a transition is made of (R173, R174, R178 to R181, R253, R260). -/
inductive Moved (irq : Bool) (oc : OutcomeCode) (info : Word) (s : State) : State → Prop where
  | shift (n : BitVec 64) : Moved irq oc info s (advance { s with retired := n })
  | interrupt (n : BitVec 64) (hirq : irq = true) (hie : getFlag s.msr 1 = true) (himm : s.immInFlight = false)
      (hd : s.slotD ≠ .empty) : Moved irq oc info s (interruptEntry { s with retired := n })
  | fetchSide (hd : s.slotD = .empty) : Moved irq oc info s (fetchSideAdvance s)
  | delay (n : BitVec 64) : Moved irq oc info s (refill s.slotD { s with retired := n })
  | flush (n : BitVec 64) : Moved irq oc info s (refill .empty { s with retired := n })
  | hold (n : BitVec 64) : Moved irq oc info s { s with retired := n }
  | handler : Moved irq oc info s (exceptionEntry oc info s)

theorem moved_interruptOrAdvance (irq : Bool) (oc : OutcomeCode) (info : Word) (s : State) (n : BitVec 64) :
    Moved irq oc info s (interruptOrAdvance irq { s with retired := n }) := by
  unfold interruptOrAdvance
  cases hc : interruptCondition irq { s with retired := n }
  · exact .shift n
  · simp only [interruptCondition, msrIE, Bool.and_eq_true, Bool.not_eq_true', beq_eq_false_iff_ne] at hc
    exact .interrupt n hc.1.1.2 hc.1.1.1 hc.1.2 hc.2

/-- Every transition is one of these movements. -/
theorem moved_transition (irq : Bool) (oc : OutcomeCode) (info : Word) (s : State) :
    Moved irq oc info s (transition irq oc info s) := by
  have fault : Moved irq oc info s (faultCycle irq oc info s) := by
    unfold faultCycle
    split
    · exact .handler
    · exact moved_interruptOrAdvance irq oc info s _
  cases oc with
  | normal => exact moved_interruptOrAdvance irq _ info s _
  | empty => exact moved_interruptOrAdvance irq _ info s s.retired
  | memAccessInProgress =>
    show Moved irq _ info s (stallCycle s)
    unfold stallCycle
    split
    · rename_i hd
      exact .fetchSide hd
    · exact .hold s.retired
  | delaySlot => exact .delay _
  | jumpTaken => exact .flush _
  | breakpoint => exact .hold s.retired
  | stop => exact .hold _
  | divideByZero => exact fault
  | unaligned => exact fault
  | illegal => exact fault
  | unmappedFetch => exact fault
  | unmappedData => exact fault

/-! ## The external instruction -/

/-- A step of Exec that answers is: its writes alone, or one poll and then its writes, a wait or a fault (R147). -/
theorem runAnswer_cases {ans : ExecAnswer} {done : Word → ExecAnswer} {s t : State} {oc : OutcomeCode} {info : Word}
    (h : runAnswer ans done s = .ok (oc, info, t)) :
    (ans.polls = [] ∧ finishExec none ans (leaveAccess s) = .ok (oc, info, t)) ∨
    (∃ p r resp u, ans.polls = [p] ∧ pollReq p = some r ∧ busAccess r s = .ok (resp, u) ∧
      afterPoll ans done r resp { u with busResp := some resp } = .ok (oc, info, t)) := by
  unfold runAnswer at h
  split at h
  · rename_i hk
    simp only [Bool.and_eq_true] at hk
    split at h
    · rename_i hp
      exact .inl ⟨hp, h⟩
    · rename_i p rest hp
      have hl : rest = [] := by
        have := hk.1
        simp only [keepsToItsState, hp, Bool.and_eq_true, decide_eq_true_eq, List.length_cons] at this
        exact List.eq_nil_of_length_eq_zero (by omega)
      subst hl
      unfold runPoll at h
      split at h
      · cases h
      · rename_i r hr
        unfold pollAndRecord at h
        cases hb : busAccess r s with
        | error e => simp [hb] at h
        | ok v =>
          obtain ⟨resp, u⟩ := v
          simp only [hb] at h
          exact .inr ⟨p, r, resp, u, hp, hr, hb, h⟩
  · cases h

/-- A finished step of Exec has made the writes of its answer and returned an outcome Exec may return. -/
theorem finishExec_ok {ready : Option (BusReq × Word)} {ans : ExecAnswer} {s t : State} {oc : OutcomeCode} {info : Word}
    (h : finishExec ready ans s = .ok (oc, info, t)) :
    t = execWrites ans oc (resolveWrites (deliveredWord ready) ans.writes) s ∧ info = ans.info ∧
      decodeOutcome ans.code = some oc ∧ mayReturn ready ans oc = true := by
  unfold finishExec at h
  split at h
  · rename_i oc' hoc
    split at h
    · rename_i hm
      simp only [Except.ok.injEq, Prod.mk.injEq] at h
      obtain ⟨rfl, rfl, rfl⟩ := h
      exact ⟨rfl, rfl, hoc, hm⟩
    · cases h
  · cases h

/-- A finished step returns no outcome that waits or belongs to a marker (R145, R147). -/
theorem mayReturn_ne {ready : Option (BusReq × Word)} {ans : ExecAnswer} {oc : OutcomeCode}
    (h : mayReturn ready ans oc = true) :
    oc ≠ .memAccessInProgress ∧ oc ≠ .empty ∧ oc ≠ .breakpoint ∧ oc ≠ .stop ∧ oc ≠ .unmappedFetch := by
  refine ⟨?_, ?_, ?_, ?_, ?_⟩ <;> rintro rfl <;> simp [mayReturn, completes, mayFault] at h

/-- The code of an outcome decodes to it (R114). -/
theorem decodeOutcome_bits (oc : OutcomeCode) : decodeOutcome oc.bits = some oc := by
  cases oc <;> rfl

/-- A fault after writes has made them, and the access in flight is left (R146, U6). -/
theorem breachedReturn_ok {ans : ExecAnswer} {ret : ExecReturn} {oc oc' : OutcomeCode} {info : Word} {s t : State}
    (h : breachedReturn ans ret oc s = .ok (oc', info, t)) :
    mayFault oc = true ∧ writesAny ret.writes = true ∧ oc' = oc ∧ info = ret.info ∧
      t = execWrites ans oc ret.writes (leaveAccess s) := by
  unfold breachedReturn at h
  split at h
  · rename_i hm
    simp only [Bool.and_eq_true] at hm
    simp only [Except.ok.injEq, Prod.mk.injEq] at h
    exact ⟨hm.1, hm.2, h.1.symm, h.2.1.symm, h.2.2.symm⟩
  · cases h

/-- A step whose poll was Busy waits and has written nothing, or has faulted over its writes (R146, R147). -/
theorem waitedAccess_ok {ans : ExecAnswer} {ret : ExecReturn} {s t : State} {oc : OutcomeCode} {info : Word}
    (h : waitedAccess ans ret s = .ok (oc, info, t)) :
    (oc = .memAccessInProgress ∧ t = s) ∨
      (mayFault oc = true ∧ t = execWrites ans oc ret.writes (leaveAccess s)) := by
  unfold waitedAccess at h
  split at h
  · split at h
    · simp only [Except.ok.injEq, Prod.mk.injEq] at h
      exact .inl ⟨h.1.symm, h.2.2.symm⟩
    · obtain ⟨hm, -, rfl, -, ht⟩ := breachedReturn_ok h
      exact .inr ⟨hm, ht⟩
  · cases h

/-- A step whose access faulted has returned the outcome of the response with the target address, or another fault over its
writes (R146, R147). -/
theorem faultedAccess_ok {ans : ExecAnswer} {ret : ExecReturn} {fault oc : OutcomeCode} {x info : Word} {s t : State}
    (hf : mayFault fault = true) (h : faultedAccess ans ret fault x s = .ok (oc, info, t)) :
    mayFault oc = true ∧ ((oc = fault ∧ info = x ∧ t = execWrites ans oc ret.writes s) ∨
      t = execWrites ans oc ret.writes (leaveAccess s)) := by
  unfold faultedAccess at h
  split at h
  · split at h
    · simp only [Except.ok.injEq, Prod.mk.injEq] at h
      obtain ⟨rfl, rfl, rfl⟩ := h
      exact ⟨hf, .inl ⟨rfl, rfl, rfl⟩⟩
    · obtain ⟨hm, -, rfl, -, ht⟩ := breachedReturn_ok h
      exact ⟨hm, .inr ht⟩
  · cases h

/-- A fault Exec may report is neither a wait nor a marker's outcome (R145). -/
theorem mayFault_ne {oc : OutcomeCode} (h : mayFault oc = true) :
    oc ≠ .memAccessInProgress ∧ oc ≠ .empty ∧ oc ≠ .breakpoint ∧ oc ≠ .stop ∧ oc ≠ .unmappedFetch := by
  refine ⟨?_, ?_, ?_, ?_, ?_⟩ <;> rintro rfl <;> simp [mayFault] at h

/-- Leaving an access that has completed changes nothing. -/
theorem leaveAccess_of_idle {s : State} (h : s.acc = .idle) : leaveAccess s = s := by
  unfold leaveAccess
  rw [h]
  show { s with acc := .idle } = s
  rw [← h]

/-- What a step of Exec returns after its poll: it waits on Busy; otherwise it has made the writes of its answer, of its
faulted access or of its completion, with no access of its own left in flight (R146, R147). -/
theorem afterPoll_cases {ans : ExecAnswer} {done : Word → ExecAnswer} {r : BusReq} {resp : BusResp} {s t : State}
    {oc : OutcomeCode} {info : Word} (hi : resp = .busy ∨ s.acc = .idle)
    (h : afterPoll ans done r resp s = .ok (oc, info, t)) :
    (resp = .busy ∧ oc = .memAccessInProgress ∧ t = s) ∨
      (oc ≠ .memAccessInProgress ∧ oc ≠ .empty ∧ oc ≠ .breakpoint ∧ oc ≠ .stop ∧
        ∃ (k : ExecAnswer) (w : ExecWrites Word), t = execWrites k oc w (leaveAccess s)) := by
  have writes : ∀ (k : ExecAnswer) (w : ExecWrites Word), (mayFault oc = true ∨ completes k oc = true) →
      t = execWrites k oc w (leaveAccess s) →
      oc ≠ .memAccessInProgress ∧ oc ≠ .empty ∧ oc ≠ .breakpoint ∧ oc ≠ .stop ∧
        ∃ (k : ExecAnswer) (w : ExecWrites Word), t = execWrites k oc w (leaveAccess s) := by
    intro k w hm ht
    have : mayReturn none k oc = true := by
      rcases hm with hm | hm <;> simp [mayReturn, hm]
    have := mayReturn_ne this
    exact ⟨this.1, this.2.1, this.2.2.1, this.2.2.2.1, k, w, ht⟩
  have fault : ∀ ret fo x, mayFault fo = true → s.acc = .idle → faultedAccess ans ret fo x s = .ok (oc, info, t) →
      oc ≠ .memAccessInProgress ∧ oc ≠ .empty ∧ oc ≠ .breakpoint ∧ oc ≠ .stop ∧
        ∃ (k : ExecAnswer) (w : ExecWrites Word), t = execWrites k oc w (leaveAccess s) := by
    intro ret fo x hf ha h
    obtain ⟨hm, h⟩ := faultedAccess_ok hf h
    refine writes ans ret.writes (.inl hm) ?_
    rcases h with ⟨-, -, h⟩ | h
    · rw [leaveAccess_of_idle ha]
      exact h
    · exact h
  unfold afterPoll at h
  cases resp with
  | busy =>
    rcases waitedAccess_ok h with h | ⟨hm, ht⟩
    · exact .inl ⟨rfl, h⟩
    · exact .inr (writes ans _ (.inl hm) ht)
  | unaligned x => exact .inr (fault _ _ _ rfl (hi.resolve_left (by simp)) h)
  | unmapped x => exact .inr (fault _ _ _ rfl (hi.resolve_left (by simp)) h)
  | ready v =>
    obtain ⟨ht, -, -, hm⟩ := finishExec_ok h
    refine .inr (writes (done v) _ ?_ (by rw [leaveAccess_of_idle (hi.resolve_left (by simp))]; exact ht))
    simp only [mayReturn, Bool.or_eq_true, Bool.and_eq_true] at hm
    exact hm.symm.imp And.left id

/-- The answer of Exec is drawn from outside or is a free value; the rest of the state is kept. -/
theorem drawAnswer_frame (a w : Word) (s : State) :
    (drawAnswer a w s).2.2 =
      { s with execQ := (drawAnswer a w s).2.2.execQ, seq := (drawAnswer a w s).2.2.seq } := by
  unfold drawAnswer
  split <;> rfl

/-- A step of an External instruction runs the answer drawn. -/
theorem stepExternal_eq (a w : Word) (s : State) :
    stepExternal a w s =
      runAnswer (drawAnswer a w s).1 (drawAnswer a w s).2.1 (drawAnswer a w s).2.2 := rfl

theorem drawAnswer_of_queue {a w : Word} {s : State} {ans : ExecAnswer} {rest : List ExecAnswer}
    (h : s.execQ = ans :: rest) : drawAnswer a w s = (ans, fun _ => ans, { s with execQ := rest }) := by
  simp [drawAnswer, h]

/-- A step of an External instruction whose answer was given from outside. -/
theorem stepExternal_of_queue {a w : Word} {s : State} {ans : ExecAnswer} {rest : List ExecAnswer}
    (h : s.execQ = ans :: rest) :
    stepExternal a w s = runAnswer ans (fun _ => ans) { s with execQ := rest } := by
  rw [stepExternal_eq, drawAnswer_of_queue h]

/-- Everything a step of an External instruction can do: its writes, or one poll, and then a wait, on Busy and only then, or its
writes; and unless it waits, no access in flight is its own any more. -/
theorem stepExternal_cases {a w : Word} {s t : State} {oc : OutcomeCode} {info : Word}
    (h : stepExternal a w s = .ok (oc, info, t)) :
    ∃ u : State, u = { s with execQ := u.execQ, seq := u.seq } ∧
      (((drawAnswer a w s).1.polls = [] ∧ oc ≠ .memAccessInProgress ∧ oc ≠ .empty ∧ oc ≠ .breakpoint ∧ oc ≠ .stop ∧
          ∃ (k : ExecAnswer) (ws : ExecWrites Word), t = execWrites k oc ws (leaveAccess u)) ∨
        ∃ p r resp v, (drawAnswer a w s).1.polls = [p] ∧ pollReq p = some r ∧
          r = mkReq r.op r.size r.addr r.wdata ∧ busAccess r u = .ok (resp, v) ∧
          ((resp = .busy ∧ oc = .memAccessInProgress ∧ t = { v with busResp := some resp }) ∨
            (oc ≠ .memAccessInProgress ∧ oc ≠ .empty ∧ oc ≠ .breakpoint ∧ oc ≠ .stop ∧
              ∃ (k : ExecAnswer) (ws : ExecWrites Word),
                t = execWrites k oc ws (leaveAccess { v with busResp := some resp })))) := by
  rw [stepExternal_eq] at h
  have hd := drawAnswer_frame a w s
  refine ⟨(drawAnswer a w s).2.2, hd, ?_⟩
  rcases runAnswer_cases h with ⟨hp, hf⟩ | ⟨p, r, resp, v, hp, hr, hb, ha⟩
  · have hm := mayReturn_ne (finishExec_ok hf).2.2.2
    exact .inl ⟨hp, hm.1, hm.2.1, hm.2.2.1, hm.2.2.2.1, _, _, (finishExec_ok hf).1⟩
  · exact .inr ⟨p, r, resp, v, hp, hr, pollReq_normal hr, hb,
      afterPoll_cases (s := { v with busResp := some resp })
        ((acc_busAccess hb : resp = .busy ∨ v.acc = .idle)) ha⟩

/-- What no step of the execute slot changes: configuration, slots, marks, the counter, the ports. -/
theorem stepSlot_frame {v : Slot} {s t : State} {oc : OutcomeCode} {info : Word}
    (h : stepSlot v s = .ok (oc, info, t)) :
    t.cfg = s.cfg ∧ t.slotF = s.slotF ∧ t.slotD = s.slotD ∧ t.slotE = s.slotE ∧ t.retired = s.retired ∧
      t.breakMarks = s.breakMarks ∧ t.exitMarks = s.exitMarks ∧ t.port = s.port ∧ t.irq = s.irq ∧
      t.reply = s.reply ∧ (s.x.get 0 = 0 → t.x.get 0 = 0) := by
  have same : ∀ u : State, s = u → u.cfg = s.cfg ∧ u.slotF = s.slotF ∧ u.slotD = s.slotD ∧ u.slotE = s.slotE ∧
      u.retired = s.retired ∧ u.breakMarks = s.breakMarks ∧ u.exitMarks = s.exitMarks ∧ u.port = s.port ∧
      u.irq = s.irq ∧ u.reply = s.reply ∧ (s.x.get 0 = 0 → u.x.get 0 = 0) := by
    rintro u rfl
    simp
  cases v with
  | external a w =>
    obtain ⟨u, hu, ⟨-, -, -, -, -, k, ws, rfl⟩ | ⟨-, r, resp, v, -, -, -, hb, he⟩⟩ := stepExternal_cases h
    · have hf := execFrame_execWrites k oc ws (leaveAccess u)
      rw [hu] at hf ⊢
      exact ⟨hf.cfg, hf.slotF, hf.slotD, hf.slotE, hf.retired, hf.breakMarks, hf.exitMarks, hf.port, hf.irq,
        hf.reply, hf.zero⟩
    · have hv := busAccess_frame hb
      have hf : ∃ a : AccessState, ExecFrame { v with acc := a, busResp := some resp } t := by
        rcases he with ⟨-, -, rfl⟩ | ⟨-, -, -, -, k, ws, rfl⟩
        · exact ⟨v.acc, .refl _⟩
        · exact ⟨v.acc.leave, execFrame_execWrites k oc ws _⟩
      obtain ⟨acc, hf⟩ := hf
      rw [hv, hu] at hf
      exact ⟨hf.cfg, hf.slotF, hf.slotD, hf.slotE, hf.retired, hf.breakMarks, hf.exitMarks, hf.port, hf.irq,
        hf.reply, hf.zero⟩
  | empty =>
    simp only [stepSlot, stepEmpty, Except.ok.injEq, Prod.mk.injEq] at h
    exact same t h.2.2
  | illegal a =>
    simp only [stepSlot, stepIllegal, Except.ok.injEq, Prod.mk.injEq] at h
    exact same t h.2.2
  | unmapped a =>
    simp only [stepSlot, stepUnmapped, Except.ok.injEq, Prod.mk.injEq] at h
    exact same t h.2.2
  | intJump a =>
    simp only [stepSlot, stepIntJump, Except.ok.injEq, Prod.mk.injEq] at h
    obtain ⟨-, -, rfl⟩ := h
    simp
  | exit e =>
    simp only [stepSlot, stepExit, Except.ok.injEq, Prod.mk.injEq] at h
    exact same t h.2.2
  | bp e =>
    simp only [stepSlot, stepBreakpoint, Except.ok.injEq, Prod.mk.injEq] at h
    exact same t h.2.2

/-- What a step that waits or stops leaves: the outcomes MEM_ACCESS_IN_PROGRESS, BREAKPOINT and STOP come with no write to
pc or npc (R147, R153, R155). -/
theorem stepSlot_hold {v : Slot} {s t : State} {oc : OutcomeCode} {info : Word}
    (h : stepSlot v s = .ok (oc, info, t)) (ho : oc = .memAccessInProgress ∨ oc = .breakpoint ∨ oc = .stop) :
    t.pc = s.pc ∧ t.npc = s.npc := by
  cases v with
  | external a w =>
    obtain ⟨u, hu, ⟨-, h1, -, h2, h3, -⟩ | ⟨-, r, resp, v, -, -, -, hb, ⟨-, -, rfl⟩ | ⟨h1, -, h2, h3, -⟩⟩⟩ :=
      stepExternal_cases h
    · rcases ho with rfl | rfl | rfl <;> contradiction
    · rw [busAccess_frame hb, hu]
      exact ⟨rfl, rfl⟩
    · rcases ho with rfl | rfl | rfl <;> contradiction
  | empty =>
    simp only [stepSlot, stepEmpty, Except.ok.injEq, Prod.mk.injEq] at h
    simp [h.2.2]
  | illegal a =>
    simp only [stepSlot, stepIllegal, Except.ok.injEq, Prod.mk.injEq] at h
    simp [h.2.2]
  | unmapped a =>
    simp only [stepSlot, stepUnmapped, Except.ok.injEq, Prod.mk.injEq] at h
    simp [h.2.2]
  | intJump a =>
    simp only [stepSlot, stepIntJump, Except.ok.injEq, Prod.mk.injEq] at h
    obtain ⟨rfl, -, -⟩ := h
    simp at ho
  | exit e =>
    simp only [stepSlot, stepExit, Except.ok.injEq, Prod.mk.injEq] at h
    simp [h.2.2]
  | bp e =>
    simp only [stepSlot, stepBreakpoint, Except.ok.injEq, Prod.mk.injEq] at h
    simp [h.2.2]

/-- A step of the instruction in slot.E that has an access of its own in flight has not moved on: it waits, or it is a marker
that holds the slot (R83, R177, R180, R181). -/
theorem stepSlot_owned {s t : State} {oc : OutcomeCode} {info : Word} (ho : accessOwned s = true)
    (h : stepSlot s.slotE s = .ok (oc, info, t)) :
    (∀ cls n r, t.acc ≠ .pending cls n r) ∨
      (heldByExternal t.slotE = true ∧ (oc = .memAccessInProgress ∨ oc = .breakpoint ∨ oc = .stop)) := by
  have hE := (stepSlot_frame h).2.2.2.1
  have keep : ∀ u : State, s = u → (heldByExternal s.slotE = true → oc = .breakpoint ∨ oc = .stop) →
      (∀ cls n r, u.acc ≠ .pending cls n r) ∨
        (heldByExternal s.slotE = true ∧ (oc = .memAccessInProgress ∨ oc = .breakpoint ∨ oc = .stop)) := by
    rintro u rfl hk
    unfold accessOwned at ho
    cases ha : s.acc with
    | pending cls n r =>
      rw [ha] at ho
      exact .inr ⟨ho, .inr (hk ho)⟩
    | _ => exact .inl (by simp)
  rw [hE]
  cases hs : s.slotE with
  | external a w =>
    rw [hs] at h
    have left : ∀ (k : ExecAnswer) ws (u : State) cls n r, (execWrites k oc ws (leaveAccess u)).acc ≠ .pending cls n r := by
      intro k ws u cls n r
      rw [(execFrame_execWrites k oc ws _).acc]
      exact leave_ne_pending _ cls n r
    obtain ⟨u, hu, ⟨-, -, -, -, -, k, ws, rfl⟩ | ⟨-, r, resp, v, -, -, -, hb, ⟨-, h1, -⟩ | ⟨-, -, -, -, k, ws, rfl⟩⟩⟩ :=
      stepExternal_cases h
    · exact .inl (left k ws u)
    · exact .inr ⟨rfl, .inl h1⟩
    · exact .inl (left k ws _)
  | intJump a =>
    rw [hs] at h
    simp only [stepSlot, stepIntJump, Except.ok.injEq, Prod.mk.injEq] at h
    obtain ⟨-, -, rfl⟩ := h
    refine .inl ?_
    unfold accessOwned at ho
    intro cls n r ha
    have ha : s.acc = .pending cls n r := ha
    simp [ha, hs, heldByExternal] at ho
  | _ =>
    rw [hs] at h
    simp only [stepSlot, stepEmpty, stepIllegal, stepUnmapped, stepExit, stepBreakpoint, Except.ok.injEq,
      Prod.mk.injEq] at h
    have := keep t h.2.2 (by rw [hs]; simp [heldByExternal, ← h.1])
    rwa [hs] at this

/-- The poll of an External instruction is the bus request itself (R75, R83): its answer given from outside. -/
theorem stepExternal_poll {a w : Word} {s u : State} {ans : ExecAnswer} {rest : List ExecAnswer} {p : RawPoll}
    {r : BusReq} {resp : BusResp} (hq : s.execQ = ans :: rest) (hk : keepsToItsState ans = true) (hp : ans.polls = [p])
    (hr : pollReq p = some r) (hb : pollAndRecord r { s with execQ := rest } = .ok (resp, u)) :
    stepExternal a w s = afterPoll ans (fun _ => ans) r resp u := by
  have hon : pollsOn s.acc ans = true := by
    unfold pollsOn
    cases s.acc <;> simp [hp]
  simp only [stepExternal_of_queue hq, runAnswer, runPoll, hk, hon, Bool.and_self, if_true, hp, hr, hb]

/-- A step of an External instruction that makes no access, none of its own being in flight: its answer given from outside. -/
theorem stepExternal_alone {a w : Word} {s : State} {ans : ExecAnswer} {rest : List ExecAnswer}
    (hq : s.execQ = ans :: rest) (hk : keepsToItsState ans = true) (hp : ans.polls = [])
    (hi : ∀ cls n r, s.acc ≠ .pending cls n r) :
    stepExternal a w s = finishExec none ans { s with execQ := rest } := by
  cases ha : s.acc with
  | pending cls n r => exact absurd ha (hi cls n r)
  | _ =>
    simp only [stepExternal_of_queue hq, runAnswer, hk, pollsOn, ha, Bool.and_self, if_true, hp, leaveAccess,
      AccessState.leave]

/-! ## The free answer of Exec -/

/-- `orNormal` changes the outcome code alone, and leaves one for which `ok` holds, NORMAL being one. -/
theorem orNormal_spec {ok : ExecAnswer → OutcomeCode → Bool} (hn : ∀ x, ok x .normal = true) (ans : ExecAnswer) :
    orNormal ok ans = { ans with code := (orNormal ok ans).code } ∧ codeIs (ok ans) (orNormal ok ans) = true := by
  unfold orNormal
  split
  · rename_i h
    exact ⟨rfl, h⟩
  · exact ⟨rfl, by simp [codeIs, decodeOutcome, OutcomeCode.bits, hn]⟩

theorem orNormal_of_ok {ok : ExecAnswer → OutcomeCode → Bool} {ans : ExecAnswer} (h : codeIs (ok ans) ans = true) :
    orNormal ok ans = ans := by
  simp [orNormal, h]

/-- `oneRedirect` leaves writes with one redirect at most as they are. -/
theorem oneRedirect_of_le {V : Type} {w : ExecWrites V} (h : w.redirects.length ≤ 1) : oneRedirect w = w := by
  unfold oneRedirect
  rw [List.take_of_length_le h]

/-- What an answer returns on each response but Ready is what R147 pairs with it, a wait writing nothing. -/
def PairsResponses (ans : ExecAnswer) : Prop :=
  ans.onBusy.code = OutcomeCode.memAccessInProgress.bits ∧ ans.onBusy.writes = noWrites ∧
    ans.onUnaligned.code = OutcomeCode.unaligned.bits ∧ ans.onUnmapped.code = OutcomeCode.unmappedData.bits

/-- A step whose answer pairs responses and outcomes goes on from every response but Ready (R147). -/
theorem afterPoll_of_pairs {ans : ExecAnswer} (h : PairsResponses ans) (done : Word → ExecAnswer) (r : BusReq)
    {resp : BusResp} (hr : ∀ v, resp ≠ .ready v) (s : State) : ∃ x, afterPoll ans done r resp s = .ok x := by
  cases resp with
  | ready v => exact absurd rfl (hr v)
  | busy => exact ⟨_, by simp only [afterPoll, waitedAccess, h.1, h.2.1, decodeOutcome_bits]; rfl⟩
  | unaligned x => exact ⟨_, by simp only [afterPoll, faultedAccess, h.2.2.1, decodeOutcome_bits, if_true]; rfl⟩
  | unmapped x => exact ⟨_, by simp only [afterPoll, faultedAccess, h.2.2.2, decodeOutcome_bits, if_true]; rfl⟩

/-- What `keepContract` makes of any answer: nothing else touched, one redirect at most, one legal poll at most, the outcomes
of R147, an outcome Exec may return. -/
theorem keepContract_spec (acc : AccessState) (ans : ExecAnswer) :
    keepsToItsState (keepContract acc ans) = true ∧
      codeIs (mayReturn none (keepContract acc ans)) (keepContract acc ans) = true ∧
      (keepContract acc ans).polls = polledUnder acc ans ∧ PairsResponses (keepContract acc ans) := by
  have hp : (polledUnder acc ans).length ≤ 1 := by
    cases acc with
    | idle =>
      simp only [polledUnder, List.length_take]
      omega
    | pending cls n r => exact Nat.le_refl 1
    | left cls n r =>
      simp only [polledUnder]
      split <;> simp
  obtain ⟨he, hk⟩ := orNormal_spec (ok := mayReturn none) (fun _ => rfl) (keepCalls acc ans)
  unfold keepContract
  refine ⟨?_, ?_, by rw [he]; rfl, by rw [he]; exact ⟨rfl, rfl, rfl, rfl⟩⟩
  · rw [he]
    simp only [keepsToItsState, keepCalls, pairing, oneRedirect, List.length_take, Bool.and_eq_true]
    exact ⟨⟨⟨⟨⟨decide_eq_true hp, decide_eq_true (by omega)⟩, decide_eq_true (Nat.zero_le 1)⟩,
      decide_eq_true (by omega)⟩, decide_eq_true (by omega)⟩, rfl⟩
  · rw [he] at hk ⊢
    exact hk

/-- An answer within the contract is left as it is. -/
theorem keepContract_of_kept {ans : ExecAnswer} (hk : keepsToItsState ans = true) (hr : PairsResponses ans)
    (hc : codeIs (mayReturn none ans) ans = true) (hp : ∀ p ∈ ans.polls, (pollReq p).isSome = true) :
    keepContract .idle ans = ans := by
  simp only [keepsToItsState, Bool.and_eq_true, decide_eq_true_eq, Bool.not_eq_true'] at hk
  have h1 : polledUnder .idle ans = ans.polls := by
    show (ans.polls.filter fun p => (pollReq p).isSome).take 1 = ans.polls
    rw [List.filter_eq_self.2 hp, List.take_of_length_le hk.1.1.1.1.1]
  have e : keepCalls .idle ans = ans := by
    unfold keepCalls pairing
    rw [h1, oneRedirect_of_le hk.1.1.1.1.2, oneRedirect_of_le hk.1.1.2, oneRedirect_of_le hk.1.2]
    obtain ⟨hb, hw, hu, hm⟩ := hr
    rcases ans with ⟨polls, other, writes, ⟨bc, bi, bw⟩, ⟨uc, ui, uw⟩, ⟨mc, mi, mw⟩, imm, code, info⟩
    simp_all
  unfold keepContract
  rw [e]
  exact orNormal_of_ok hc

/-- A completion within the contract is left as it is. -/
theorem keepCompletion_of_kept {ans : ExecAnswer} (hr : ans.writes.redirects.length ≤ 1)
    (hc : codeIs (completes ans) ans = true) : keepCompletion ans = ans := by
  unfold keepCompletion
  rw [oneRedirect_of_le hr]
  exact orNormal_of_ok hc

/-- An answer with an outcome Exec may return finishes. -/
theorem finishExec_of_allowed {ready : Option (BusReq × Word)} {ans : ExecAnswer}
    (h : codeIs (mayReturn ready ans) ans = true) (s : State) : ∃ x, finishExec ready ans s = .ok x := by
  unfold codeIs at h
  unfold finishExec
  split at h
  · simp [h]
  · cases h

/-- A free completion finishes (R147). -/
theorem finishExec_keepCompletion (r : BusReq) (v : Word) (ans : ExecAnswer) (s : State) :
    ∃ x, finishExec (some (r, v)) (keepCompletion ans) s = .ok x := by
  obtain ⟨he, hk⟩ := orNormal_spec (ok := completes) (fun _ => rfl)
    { ans with writes := oneRedirect ans.writes }
  refine finishExec_of_allowed ?_ s
  have hc : codeIs (completes (keepCompletion ans)) (keepCompletion ans) = true := by
    unfold keepCompletion
    rw [he] at hk ⊢
    exact hk
  unfold codeIs at hc ⊢
  split at hc
  · rename_i oc hoc
    simp [mayReturn, hc]
  · cases hc

/-- With no answer given from outside, the step of an External instruction completes: the free answer keeps the contract
(R144 to R149, log 4). -/
theorem stepExternal_free (a w : Word) {s : State} (hq : s.execQ = [])
    (ha : ∀ cls n r, s.acc.inFlight = some (cls, n, r) → r = mkReq r.op r.size r.addr r.wdata) :
    ∃ x, stepExternal a w s = .ok x := by
  have hd : drawAnswer a w s =
      (keepContract s.acc (Config.execAnswer (execView none a w s)),
        fun v => keepCompletion (Config.execAnswer (execView (some v) a w s)), { s with seq := s.seq + 1 }) := by
    simp [drawAnswer, hq]
  rw [stepExternal_eq, hd]
  generalize Config.execAnswer (execView none a w s) = ans
  obtain ⟨hs, hk, hp, hr⟩ := keepContract_spec s.acc ans
  generalize keepContract s.acc ans = k at hs hk hp hr ⊢
  have after : ∀ r resp u, ∃ x,
      afterPoll k (fun v => keepCompletion (Config.execAnswer (execView (some v) a w s))) r resp u = .ok x := by
    intro r resp u
    cases resp with
    | ready v => exact finishExec_keepCompletion r v _ u
    | _ => exact afterPoll_of_pairs hr _ r (by simp) u
  have hon : pollsOn s.acc k = true := by
    unfold pollsOn
    cases hacc : s.acc with
    | pending cls n r => simp [hp, hacc, polledUnder]
    | _ => rfl
  simp only [runAnswer, hs, hon, Bool.and_self, if_true]
  have hua : ({ s with seq := s.seq + 1 } : State).acc = s.acc := rfl
  generalize ({ s with seq := s.seq + 1 } : State) = u at hua ⊢
  cases hkp : k.polls with
  | nil => exact finishExec_of_allowed hk _
  | cons p rest =>
    rw [hkp] at hp
    have again : ∀ cls n r, s.acc.inFlight = some (cls, n, r) → p = pollOf r →
        ∃ r resp t, pollReq p = some r ∧ busAccess r u = .ok (resp, t) := by
      rintro cls n r hf rfl
      exact ⟨r, _, _, pollReq_pollOf (ha cls n r hf), by simp only [busAccess, hua, hf, if_true]; rfl⟩
    have legal : ∃ r resp t, pollReq p = some r ∧ busAccess r u = .ok (resp, t) := by
      unfold polledUnder at hp
      split at hp
      · rename_i hacc
        exact again _ _ _ (by rw [hacc]; rfl) (List.cons.inj hp).1
      · rename_i hacc
        have hm : p ∈ ans.polls.filter fun p => (pollReq p).isSome :=
          List.mem_of_mem_take (i := 1) (hp ▸ List.mem_cons_self)
        obtain ⟨r, hr⟩ := Option.isSome_iff_exists.1 (List.mem_filter.1 hm).2
        exact ⟨r, _, _, hr, by simp only [busAccess, hua, hacc, AccessState.inFlight]; rfl⟩
      · rename_i hacc
        split at hp
        · cases hp
        · exact again _ _ _ (by rw [hacc]; rfl) (List.cons.inj hp).1
    obtain ⟨r, resp, t, h1, h2⟩ := legal
    simp only [runPoll, h1, pollAndRecord, h2]
    exact after _ _ _

end Sys2Proof.Machine
end

