-- ==== Sys2Proof/Laws/Invariant.lean ====
section
/-!
SUPPORT. Laws/Invariant.lean: the invariant of Safety.lean part by part, and what each shared operation keeps of it: a fetch,
a slot movement, a poll, a step of Exec, a change of the marks, reset.
-/

namespace Sys2Proof.Machine

/-- The invariant as propositions, but for who owns the access in flight (`accessOwned`), which a clock settles as a whole. -/
structure InvParts (s : State) : Prop where
  zero : s.x.get 0 = 0
  storage : storageHolds s = true
  breaks : marksHold s.cfg s.breakMarks = true
  exits : marksHold s.cfg s.exitMarks = true
  holdsF : slotHolds s.cfg s.slotF = true
  holdsD : slotHolds s.cfg s.slotD = true
  holdsE : slotHolds s.cfg s.slotE = true
  agreeF : slotMarksAgree s s.slotF = true
  agreeD : slotMarksAgree s s.slotD = true
  agreeE : slotMarksAgree s s.slotE = true
  notIntF : notIntJump s.slotF = true
  notIntD : notIntJump s.slotD = true
  access : accessHolds s = true

theorem inv_iff (s : State) : Inv s = true ↔ InvParts s ∧ accessOwned s = true := by
  simp only [Inv, zeroRegisterHolds, Bool.and_eq_true, beq_iff_eq]
  constructor
  · rintro ⟨⟨⟨⟨⟨⟨⟨⟨⟨⟨⟨⟨⟨h1, h2⟩, h3⟩, h4⟩, h5⟩, h6⟩, h7⟩, h8⟩, h9⟩, h10⟩, h11⟩, h12⟩, h13⟩, h14⟩
    exact ⟨⟨h1, h2, h3, h4, h5, h6, h7, h8, h9, h10, h11, h12, h13⟩, h14⟩
  · rintro ⟨⟨h1, h2, h3, h4, h5, h6, h7, h8, h9, h10, h11, h12, h13⟩, h14⟩
    exact ⟨⟨⟨⟨⟨⟨⟨⟨⟨⟨⟨⟨⟨h1, h2⟩, h3⟩, h4⟩, h5⟩, h6⟩, h7⟩, h8⟩, h9⟩, h10⟩, h11⟩, h12⟩, h13⟩, h14⟩

/-! ## What each part reads -/

theorem slotMarksAgree_congr {s t : State} (hb : t.breakMarks = s.breakMarks) (he : t.exitMarks = s.exitMarks)
    (v : Slot) : slotMarksAgree t v = slotMarksAgree s v := by
  unfold slotMarksAgree wrappedAs
  rw [hb, he]

theorem storageHolds_congr {s t : State} (hc : t.cfg = s.cfg) (hm : t.mem = s.mem) :
    storageHolds t = storageHolds s := by
  unfold storageHolds
  rw [hc, hm]

theorem accessHolds_congr {s t : State} (hc : t.cfg = s.cfg) (ha : t.acc.inFlight = s.acc.inFlight) : accessHolds t = accessHolds s := by
  unfold accessHolds
  rw [hc, ha]

/-! ## Slots -/

/-- The decoder's word at a fetchable address can stand in a slot (R84, R143). -/
theorem bodyHolds_decodeWord {c : Config} {a : Word} (h : fetchable c a = true) (w : Word) :
    bodyHolds c (decodeWord c a w) = true := by
  unfold decodeWord
  split
  · simp [bodyHolds, Body.pc, h]
  · rename_i hd
    simp [bodyHolds, Body.pc, h, decodeWord, hd]

theorem slotHolds_wrapBody {c : Config} {b : Body} (h : bodyHolds c b = true) (x y : Bool) :
    slotHolds c (wrapBody x y b) = true := by
  cases x <;> cases y <;> cases b <;> exact h

theorem slotMarksAgree_wrapBody {s : State} {x y : Bool} {b : Body} (h : wrappedAs s b.pc x y = true) :
    slotMarksAgree s (wrapBody x y b) = true := by
  cases x <;> cases y <;> cases b <;> exact h

/-- What a fetch brings can stand in a slot (R86). -/
theorem slotHolds_fetch (s : State) (a : Word) : slotHolds s.cfg (fetch s a) = true := by
  unfold fetch
  cases h : fetchable s.cfg a
  · simp [slotHolds, h]
  · exact slotHolds_wrapBody (bodyHolds_decodeWord h _) _ _

theorem slotMarksAgree_fetch (s : State) (a : Word) : slotMarksAgree s (fetch s a) = true := by
  unfold fetch
  split
  · exact slotMarksAgree_wrapBody (by simp [wrappedAs])
  · rfl

/-- Every slot movement keeps the invariant. -/
theorem inv_moved {irq : Bool} {oc : OutcomeCode} {info : Word} {s t : State} (h : InvParts s)
    (m : Moved irq oc info s t) : InvParts t := by
  cases m with
  | shift n =>
    exact ⟨h.zero, h.storage, h.breaks, h.exits, slotHolds_fetch s _, h.holdsF, h.holdsD, slotMarksAgree_fetch s _,
      h.agreeF, h.agreeD, notIntJump_fetch s _, h.notIntF, h.access⟩
  | interrupt n _ _ _ _ =>
    rw [interruptEntry_eq]
    exact ⟨zero_writeGpr (s := { s with retired := n }) h.zero _ _, h.storage, h.breaks, h.exits,
      slotHolds_fetch s _, h.holdsF, rfl, slotMarksAgree_fetch s _, h.agreeF, rfl, notIntJump_fetch s _, h.notIntF,
      h.access⟩
  | fetchSide _ =>
    exact ⟨h.zero, h.storage, h.breaks, h.exits, slotHolds_fetch s _, h.holdsF, h.holdsE, slotMarksAgree_fetch s _,
      h.agreeF, h.agreeE, notIntJump_fetch s _, h.notIntF, h.access⟩
  | delay n =>
    exact ⟨h.zero, h.storage, h.breaks, h.exits, slotHolds_fetch s _, rfl, h.holdsD, slotMarksAgree_fetch s _, rfl,
      h.agreeD, notIntJump_fetch s _, rfl, h.access⟩
  | flush n =>
    exact ⟨h.zero, h.storage, h.breaks, h.exits, slotHolds_fetch s _, rfl, rfl, slotMarksAgree_fetch s _, rfl, rfl,
      notIntJump_fetch s _, rfl, h.access⟩
  | hold n =>
    exact ⟨h.zero, h.storage, h.breaks, h.exits, h.holdsF, h.holdsD, h.holdsE, h.agreeF, h.agreeD, h.agreeE,
      h.notIntF, h.notIntD, h.access⟩
  | handler =>
    rw [exceptionEntry_eq]
    exact ⟨zero_writeGpr h.zero _ _, h.storage, h.breaks, h.exits, slotHolds_fetch s _, rfl, rfl,
      slotMarksAgree_fetch s _, rfl, rfl, notIntJump_fetch s _, rfl, h.access⟩

/-! ## Storage and polls -/

/-- A write to a storage word keeps storage canonical and inside LB and PB (R66, R71). -/
theorem storageHolds_memWrite {s : State} (hc : s.cfg.wf = true) (h : storageHolds s = true) {a : Word}
    (ha : isStorage s.cfg a = true) (size : Size) (v : Word) : storageHolds (memWrite s a size v) = true := by
  simp only [storageHolds, Bool.and_eq_true, List.all_eq_true, decide_eq_true_eq] at h ⊢
  refine ⟨wf_memWrite h.1 a size v, fun c hmem => ?_⟩
  rcases mem_writeWord hmem with hold | ⟨hlo, hhi⟩
  · exact h.2 c hold
  · rw [wordAddr_spec] at hlo hhi
    have := a.isLt
    have hlt : c.1 < 2 ^ 32 := by omega
    refine ⟨hlt, isStorage_of_same_word hc ha ?_⟩
    rw [BitVec.toNat_ofNat, Nat.mod_eq_of_lt hlt]
    omega

/-- The class of a poll is the class of its request, when the access in flight is (R73). -/
theorem class_of_poll {s : State} (ha : accessHolds s = true) {r : BusReq} {cls : AccessClass} {n : Nat}
    (h : (s.acc.inFlight = none ∧ cls = classify s.cfg r ∧ n = 1) ∨ ∃ k, s.acc.inFlight = some (cls, k, r) ∧ n = k + 1) :
    cls = classify s.cfg r ∧ 1 ≤ n := by
  rcases h with ⟨-, rfl, rfl⟩ | ⟨k, hp, rfl⟩
  · exact ⟨rfl, Nat.le_refl 1⟩
  · simp only [accessHolds, hp, Bool.and_eq_true, beq_iff_eq] at ha
    exact ⟨ha.1.1.2, by omega⟩

/-- Completion keeps storage as R66 has it (R80). -/
theorem storageHolds_complete {s : State} (hc : s.cfg.wf = true) (h : storageHolds s = true) {cls : AccessClass}
    {r : BusReq} (hcl : cls = classify s.cfg r) : storageHolds (complete cls r s).2 = true := by
  rcases complete_cases cls r s with e | ⟨hb, -, e⟩ | ⟨d, -, e | e⟩
  · rwa [e]
  · rw [e]
    subst hcl
    exact storageHolds_memWrite hc h (classify_storage hb).2 _ _
  · rw [e]
    exact h
  · rw [e]
    exact h

/-- A poll keeps the invariant. -/
theorem inv_busAccess {s t : State} {r : BusReq} {resp : BusResp} (hc : s.cfg.wf = true) (h : InvParts s)
    (hr : r = mkReq r.op r.size r.addr r.wdata) (hb : busAccess r s = .ok (resp, t)) : InvParts t := by
  have hf := busAccess_frame hb
  obtain ⟨cls, n, hp, ⟨hn, -, rfl⟩ | ⟨hn, hcomp⟩⟩ := busAccess_cases hb
  · obtain ⟨hcl, h1⟩ := class_of_poll h.access hp
    refine ⟨h.zero, h.storage, h.breaks, h.exits, h.holdsF, h.holdsD, h.holdsE, h.agreeF, h.agreeD, h.agreeE,
      h.notIntF, h.notIntD, ?_⟩
    simp only [accessHolds, AccessState.inFlight, Bool.and_eq_true, beq_iff_eq, decide_eq_true_eq]
    exact ⟨⟨⟨hr, hcl⟩, h1⟩, hn⟩
  · obtain ⟨hcl, -⟩ := class_of_poll h.access hp
    have hst := storageHolds_complete (s := { s with acc := .idle }) hc h.storage hcl
    have hacc : t.acc = .idle := by
      have f := complete_frame cls r { s with acc := .idle }
      rw [← hcomp] at f
      exact congrArg State.acc f
    rw [← hcomp] at hst
    have hs : storageHolds t = true := hst
    rw [hf] at hs ⊢
    exact ⟨h.zero, hs, h.breaks, h.exits, h.holdsF, h.holdsD, h.holdsE, h.agreeF, h.agreeD, h.agreeE,
      h.notIntF, h.notIntD, by simp [accessHolds, hacc, AccessState.inFlight]⟩

/-! ## Exec -/

/-- What the writes of Exec keep. -/
theorem inv_execFrame {s t : State} (h : InvParts s) (f : ExecFrame s t) : InvParts t := by
  have ag := slotMarksAgree_congr f.breakMarks f.exitMarks
  refine ⟨f.zero h.zero, ?_, ?_, ?_, ?_, ?_, ?_, ?_, ?_, ?_, ?_, ?_, ?_⟩
  · rw [storageHolds_congr f.cfg f.mem]; exact h.storage
  · rw [f.cfg, f.breakMarks]; exact h.breaks
  · rw [f.cfg, f.exitMarks]; exact h.exits
  · rw [f.cfg, f.slotF]; exact h.holdsF
  · rw [f.cfg, f.slotD]; exact h.holdsD
  · rw [f.cfg, f.slotE]; exact h.holdsE
  · rw [f.slotF, ag]; exact h.agreeF
  · rw [f.slotD, ag]; exact h.agreeD
  · rw [f.slotE, ag]; exact h.agreeE
  · rw [f.slotF]; exact h.notIntF
  · rw [f.slotD]; exact h.notIntD
  · rw [accessHolds_congr f.cfg (congrArg _ f.acc)]; exact h.access

/-- Leaving the access in flight keeps the invariant (R83). -/
theorem inv_leaveAccess {s : State} (h : InvParts s) : InvParts (leaveAccess s) :=
  ⟨h.1, h.2, h.3, h.4, h.5, h.6, h.7, h.8, h.9, h.10, h.11, h.12,
    (accessHolds_congr (s := s) (t := leaveAccess s) rfl (inFlight_leave s.acc)).trans h.access⟩

/-- A step of the execute slot keeps the invariant. -/
theorem inv_stepSlot {v : Slot} {s t : State} {oc : OutcomeCode} {info : Word} (hc : s.cfg.wf = true)
    (h : InvParts s) (hs : stepSlot v s = .ok (oc, info, t)) : InvParts t := by
  have copy : ∀ u : State, s = u → InvParts u := fun u e => e ▸ h
  cases v with
  | external a w =>
    obtain ⟨u, hu, he⟩ := stepExternal_cases hs
    have hcu : u.cfg.wf = true := by rw [hu]; exact hc
    have hpu : InvParts u := by
      rw [hu]
      exact ⟨h.1, h.2, h.3, h.4, h.5, h.6, h.7, h.8, h.9, h.10, h.11, h.12, h.13⟩
    rcases he with ⟨-, -, -, -, -, k, ws, rfl⟩ | ⟨-, r, resp, p, -, -, hr, hb, he⟩
    · exact inv_execFrame (inv_leaveAccess hpu) (execFrame_execWrites k oc ws _)
    · have k := inv_busAccess hcu hpu hr hb
      have kp : InvParts { p with busResp := some resp } :=
        ⟨k.1, k.2, k.3, k.4, k.5, k.6, k.7, k.8, k.9, k.10, k.11, k.12, k.13⟩
      rcases he with ⟨-, -, rfl⟩ | ⟨-, -, -, -, e, ws, rfl⟩
      · exact kp
      · exact inv_execFrame (inv_leaveAccess kp) (execFrame_execWrites e oc ws _)
  | empty =>
    simp only [stepSlot, stepEmpty, Except.ok.injEq, Prod.mk.injEq] at hs
    exact copy t hs.2.2
  | illegal a =>
    simp only [stepSlot, stepIllegal, Except.ok.injEq, Prod.mk.injEq] at hs
    exact copy t hs.2.2
  | unmapped a =>
    simp only [stepSlot, stepUnmapped, Except.ok.injEq, Prod.mk.injEq] at hs
    exact copy t hs.2.2
  | intJump a =>
    simp only [stepSlot, stepIntJump, Except.ok.injEq, Prod.mk.injEq] at hs
    obtain ⟨-, -, rfl⟩ := hs
    exact inv_execFrame h (execFrame_writePC _ s)
  | exit e =>
    simp only [stepSlot, stepExit, Except.ok.injEq, Prod.mk.injEq] at hs
    exact copy t hs.2.2
  | bp e =>
    simp only [stepSlot, stepBreakpoint, Except.ok.injEq, Prod.mk.injEq] at hs
    exact copy t hs.2.2

/-- The rest of a clock keeps the invariant. -/
theorem inv_finishCycle {irq : Bool} {v : Slot} {s t : State} (hc : s.cfg.wf = true) (h : InvParts s)
    (hf : finishCycle irq (stepSlot v s) = .next t) : InvParts t := by
  unfold finishCycle at hf
  split at hf
  · rename_i oc info u hs
    have k := inv_moved (inv_stepSlot hc h hs) (moved_transition irq oc info u)
    simp only [Host.Outcome.next.injEq] at hf
    subst hf
    exact ⟨k.1, k.2, k.3, k.4, k.5, k.6, k.7, k.8, k.9, k.10, k.11, k.12, k.13⟩
  · cases hf

/-- A clock of the instruction in slot.E leaves an access in flight with the External instruction in slot.E (R83). -/
theorem owned_finishCycle {irq : Bool} {s t : State} (ho : accessOwned s = true)
    (hf : finishCycle irq (stepSlot s.slotE s) = .next t) : accessOwned t = true := by
  unfold finishCycle at hf
  split at hf
  · rename_i oc info u hs
    simp only [Host.Outcome.next.injEq] at hf
    have hacc : ∀ n : State, Moved irq oc info u n → n.acc = u.acc := by
      intro n m
      cases m <;> first | rfl | rw [exceptionEntry_eq]
    have ha := hacc _ (moved_transition irq oc info u)
    rw [← hf]
    show accessOwned (answer _ (transition irq oc info u)) = true
    unfold accessOwned
    show (match (transition irq oc info u).acc with
      | .idle | .left _ _ _ => true
      | .pending _ _ _ => heldByExternal (transition irq oc info u).slotE) = true
    rw [ha]
    rcases stepSlot_owned ho hs with hi | ⟨he, rfl | rfl | rfl⟩
    · cases hp : u.acc with
      | pending cls n r => exact absurd hp (hi cls n r)
      | _ => rfl
    · have : (stallCycle u).slotE = u.slotE := by
        unfold stallCycle
        split <;> rfl
      cases hp : u.acc with
      | pending cls n r => exact (congrArg heldByExternal this).trans he
      | _ => rfl
    · cases hp : u.acc with
      | pending cls n r => exact he
      | _ => rfl
    · cases hp : u.acc with
      | pending cls n r => exact he
      | _ => rfl
  · cases hf

/-! ## Commands -/

/-- A change of the marks keeps what kind of instruction a slot holds (R220 to R222). -/
@[simp] theorem heldByExternal_wrapBreak (a : Word) (v : Slot) : heldByExternal (wrapBreak a v) = heldByExternal v := by
  unfold wrapBreak
  split
  · rcases v with _ | _ | _ | _ | _ | (e | e) | ((e | e) | (e | e)) <;> rfl
  · rfl

@[simp] theorem heldByExternal_unwrapBreak (a : Word) (v : Slot) :
    heldByExternal (unwrapBreak a v) = heldByExternal v := by
  unfold unwrapBreak
  rcases v with _ | _ | _ | _ | _ | _ | ((b | b) | (b | b)) <;> first | rfl | (dsimp only; split <;> rfl)

@[simp] theorem heldByExternal_wrapExit (a : Word) (v : Slot) : heldByExternal (wrapExit a v) = heldByExternal v := by
  unfold wrapExit
  split
  · rcases v with _ | _ | _ | _ | _ | (e | e) | ((e | e) | (e | e)) <;> rfl
  · rfl

/-- Who owns the access in flight, after a change that keeps it and the kind of instruction in slot.E. -/
theorem owned_congr {s t : State} (h : accessOwned s = true) (ha : t.acc = s.acc)
    (he : heldByExternal t.slotE = heldByExternal s.slotE) : accessOwned t = true := by
  unfold accessOwned at h ⊢
  rw [ha, he]
  exact h

/-- A canonical set of marks with a storage word's address added. -/
theorem marksHold_addMark {c : Config} {l : List Nat} {a : Word} (h : marksHold c l = true) (ha : fetchable c a = true) :
    marksHold c (addMark l a.toNat) = true := by
  simp only [marksHold, Bool.and_eq_true, List.all_eq_true, decide_eq_true_eq] at h ⊢
  refine ⟨rising_addMark h.1 _, fun b hb => ?_⟩
  rcases mem_addMark.1 hb with rfl | hb
  · exact ⟨a.isLt, by simpa using ha⟩
  · exact h.2 b hb

theorem marksHold_dropMark {c : Config} {l : List Nat} (h : marksHold c l = true) (a : Nat) :
    marksHold c (dropMark l a) = true := by
  simp only [marksHold, Bool.and_eq_true, List.all_eq_true, decide_eq_true_eq] at h ⊢
  exact ⟨rising_dropMark h.1 _, fun b hb => h.2 b (mem_dropMark.1 hb).2⟩

theorem slotHolds_wrapBreak {c : Config} {v : Slot} (h : slotHolds c v = true) (a : Word) :
    slotHolds c (wrapBreak a v) = true := by
  unfold wrapBreak
  split
  · cases v <;> exact h
  · exact h

theorem slotHolds_unwrapBreak {c : Config} {v : Slot} (h : slotHolds c v = true) (a : Word) :
    slotHolds c (unwrapBreak a v) = true := by
  unfold unwrapBreak
  cases v with
  | bp e =>
    dsimp only
    split
    · rcases e with (b | b) | (b | b) <;> exact h
    · exact h
  | _ => exact h

theorem slotHolds_wrapExit {c : Config} {v : Slot} (h : slotHolds c v = true) (a : Word) :
    slotHolds c (wrapExit a v) = true := by
  unfold wrapExit
  split
  · rcases v with _ | _ | _ | _ | _ | _ | (e | e) <;> exact h
  · exact h

/-- Membership of one more address in the marks, as a Bool. -/
theorem contains_addMark (l : List Nat) (a b : Nat) : (addMark l a).contains b = (b == a || l.contains b) := by
  rw [Bool.eq_iff_iff]
  simp [mem_addMark]

theorem contains_dropMark (l : List Nat) (a b : Nat) : (dropMark l a).contains b = (!(b == a) && l.contains b) := by
  rw [Bool.eq_iff_iff]
  simp [mem_dropMark]

/-- A copy wrapped in Breakpoint agrees with the marks its address then has (R220). -/
theorem slotMarksAgree_wrapBreak {s t : State} {a : Word} {v : Slot} (h : slotMarksAgree s v = true)
    (hb : t.breakMarks = addMark s.breakMarks a.toNat) (he : t.exitMarks = s.exitMarks) : slotMarksAgree t (wrapBreak a v) = true := by
  have key : ∀ (p : Word) (x y : Bool), wrappedAs s p x y = true →
      wrappedAs t p (if p = a then true else x) y = true := by
    intro p x y hw
    simp only [wrappedAs, Bool.and_eq_true, beq_iff_eq, hb, he, contains_addMark] at hw ⊢
    refine ⟨?_, hw.2⟩
    by_cases hp : p = a
    · simp [hp]
    · have : (p.toNat == a.toNat) = false := beq_eq_false_iff_ne.2 fun e => hp (BitVec.eq_of_toNat_eq e)
      simpa [hp, this] using hw.1
  rcases v with _ | ⟨p, w⟩ | p | p | p | e | (e | e)
  · unfold wrapBreak; split <;> rfl
  · have := key p false false h
    unfold wrapBreak
    by_cases hp : p = a <;> simpa [programCounter, hp, slotMarksAgree, Body.pc] using this
  · have := key p false false h
    unfold wrapBreak
    by_cases hp : p = a <;> simpa [programCounter, hp, slotMarksAgree, Body.pc] using this
  · unfold wrapBreak; split <;> rfl
  · unfold wrapBreak; split <;> rfl
  · have := key e.pc false true h
    unfold wrapBreak
    by_cases hp : e.pc = a <;> simpa [programCounter, hp, slotMarksAgree] using this
  · have := key e.pc true false h
    unfold wrapBreak
    by_cases hp : e.pc = a <;> simpa [programCounter, hp, slotMarksAgree, Marked.body] using this
  · have := key e.pc true true h
    unfold wrapBreak
    by_cases hp : e.pc = a <;> simpa [programCounter, hp, slotMarksAgree, Marked.body] using this

/-- A copy unwrapped from Breakpoint agrees with the marks its address then has (R221). -/
theorem slotMarksAgree_unwrapBreak {s t : State} {a : Word} {v : Slot} (h : slotMarksAgree s v = true)
    (ha : a.toNat ∈ s.breakMarks) (hb : t.breakMarks = dropMark s.breakMarks a.toNat)
    (he : t.exitMarks = s.exitMarks) : slotMarksAgree t (unwrapBreak a v) = true := by
  have key : ∀ (p : Word) (x y : Bool), wrappedAs s p x y = true →
      wrappedAs t p (if p = a then false else x) y = true := by
    intro p x y hw
    simp only [wrappedAs, Bool.and_eq_true, beq_iff_eq, hb, he, contains_dropMark] at hw ⊢
    refine ⟨?_, hw.2⟩
    by_cases hp : p = a
    · simp [hp]
    · have : (p.toNat == a.toNat) = false := beq_eq_false_iff_ne.2 fun e => hp (BitVec.eq_of_toNat_eq e)
      simpa [hp, this] using hw.1
  have marked : ∀ (p : Word) (y : Bool), wrappedAs s p false y = true → p ≠ a := by
    rintro p y hw rfl
    simp [wrappedAs, ha] at hw
  rcases v with _ | ⟨p, w⟩ | p | p | p | e | (e | e)
  · rfl
  · have := key p false false h
    simpa [unwrapBreak, slotMarksAgree] using this
  · have := key p false false h
    simpa [unwrapBreak, slotMarksAgree] using this
  · rfl
  · rfl
  · have := key e.pc false true h
    simpa [unwrapBreak, slotMarksAgree] using this
  · have := key e.pc true false h
    rcases e with ⟨p, w⟩ | p <;> by_cases hp : p = a <;>
      simpa [unwrapBreak, hp, slotMarksAgree, Marked.body, Body.pc, markedSlot, bodySlot] using this
  · have := key e.pc true true h
    by_cases hp : e.pc = a <;> simpa [unwrapBreak, hp, slotMarksAgree, Marked.body, markedSlot] using this

/-- A copy marked ProgramExit agrees with the marks its address then has (R222). -/
theorem slotMarksAgree_wrapExit {s t : State} {a : Word} {v : Slot} (h : slotMarksAgree s v = true)
    (hb : t.breakMarks = s.breakMarks) (he : t.exitMarks = addMark s.exitMarks a.toNat) :
    slotMarksAgree t (wrapExit a v) = true := by
  have key : ∀ (p : Word) (x y : Bool), wrappedAs s p x y = true →
      wrappedAs t p x (if p = a then true else y) = true := by
    intro p x y hw
    simp only [wrappedAs, Bool.and_eq_true, beq_iff_eq, hb, he, contains_addMark] at hw ⊢
    refine ⟨hw.1, ?_⟩
    by_cases hp : p = a
    · simp [hp]
    · have : (p.toNat == a.toNat) = false := beq_eq_false_iff_ne.2 fun e => hp (BitVec.eq_of_toNat_eq e)
      simpa [hp, this] using hw.2
  rcases v with _ | ⟨p, w⟩ | p | p | p | e | (e | e)
  · unfold wrapExit; split <;> rfl
  · have := key p false false h
    unfold wrapExit
    by_cases hp : p = a <;> simpa [programCounter, hp, slotMarksAgree, Body.pc] using this
  · have := key p false false h
    unfold wrapExit
    by_cases hp : p = a <;> simpa [programCounter, hp, slotMarksAgree, Body.pc] using this
  · unfold wrapExit; split <;> rfl
  · unfold wrapExit; split <;> rfl
  · have := key e.pc false true h
    unfold wrapExit
    by_cases hp : e.pc = a <;> simpa [programCounter, hp, slotMarksAgree] using this
  · have := key e.pc true false h
    unfold wrapExit
    by_cases hp : e.pc = a <;> simpa [programCounter, hp, slotMarksAgree, Marked.body] using this
  · have := key e.pc true true h
    unfold wrapExit
    by_cases hp : e.pc = a <;> simpa [programCounter, hp, slotMarksAgree, Marked.body] using this

theorem notIntJump_wrapBreak {v : Slot} (h : notIntJump v = true) (a : Word) : notIntJump (wrapBreak a v) = true := by
  unfold wrapBreak
  split
  · cases v <;> first | rfl | exact h
  · exact h

theorem notIntJump_unwrapBreak {v : Slot} (h : notIntJump v = true) (a : Word) :
    notIntJump (unwrapBreak a v) = true := by
  unfold unwrapBreak
  cases v with
  | bp e =>
    dsimp only
    split
    · rcases e with (b | b) | (b | b) <;> rfl
    · rfl
  | _ => exact h

theorem notIntJump_wrapExit {v : Slot} (h : notIntJump v = true) (a : Word) : notIntJump (wrapExit a v) = true := by
  unfold wrapExit
  split
  · rcases v with _ | _ | _ | _ | _ | _ | (e | e) <;> first | rfl | exact h
  · exact h

/-- Inserting a breakpoint keeps the invariant (R220). -/
theorem inv_insertBreak {s : State} {a : Word} (h : InvParts s) (hf : fetchable s.cfg a = true) :
    InvParts (mapSlots (wrapBreak a) { s with breakMarks := addMark s.breakMarks a.toNat }) where
  zero := h.zero
  storage := h.storage
  breaks := marksHold_addMark h.breaks hf
  exits := h.exits
  holdsF := slotHolds_wrapBreak h.holdsF a
  holdsD := slotHolds_wrapBreak h.holdsD a
  holdsE := slotHolds_wrapBreak h.holdsE a
  agreeF := slotMarksAgree_wrapBreak h.agreeF rfl rfl
  agreeD := slotMarksAgree_wrapBreak h.agreeD rfl rfl
  agreeE := slotMarksAgree_wrapBreak h.agreeE rfl rfl
  notIntF := notIntJump_wrapBreak h.notIntF a
  notIntD := notIntJump_wrapBreak h.notIntD a
  access := h.access

/-- Removing a breakpoint keeps the invariant (R221). -/
theorem inv_removeBreak {s : State} {a : Word} (h : InvParts s) (ha : a.toNat ∈ s.breakMarks) :
    InvParts (mapSlots (unwrapBreak a) { s with breakMarks := dropMark s.breakMarks a.toNat }) where
  zero := h.zero
  storage := h.storage
  breaks := marksHold_dropMark h.breaks _
  exits := h.exits
  holdsF := slotHolds_unwrapBreak h.holdsF a
  holdsD := slotHolds_unwrapBreak h.holdsD a
  holdsE := slotHolds_unwrapBreak h.holdsE a
  agreeF := slotMarksAgree_unwrapBreak h.agreeF ha rfl rfl
  agreeD := slotMarksAgree_unwrapBreak h.agreeD ha rfl rfl
  agreeE := slotMarksAgree_unwrapBreak h.agreeE ha rfl rfl
  notIntF := notIntJump_unwrapBreak h.notIntF a
  notIntD := notIntJump_unwrapBreak h.notIntD a
  access := h.access

/-- Marking an exit keeps the invariant (R222). -/
theorem inv_markExit {s : State} {a : Word} (h : InvParts s) (hf : fetchable s.cfg a = true) :
    InvParts (mapSlots (wrapExit a) { s with exitMarks := addMark s.exitMarks a.toNat }) where
  zero := h.zero
  storage := h.storage
  breaks := h.breaks
  exits := marksHold_addMark h.exits hf
  holdsF := slotHolds_wrapExit h.holdsF a
  holdsD := slotHolds_wrapExit h.holdsD a
  holdsE := slotHolds_wrapExit h.holdsE a
  agreeF := slotMarksAgree_wrapExit h.agreeF rfl rfl
  agreeD := slotMarksAgree_wrapExit h.agreeD rfl rfl
  agreeE := slotMarksAgree_wrapExit h.agreeE rfl rfl
  notIntF := notIntJump_wrapExit h.notIntF a
  notIntD := notIntJump_wrapExit h.notIntD a
  access := h.access

/-- Reset keeps the invariant (R290, R291). -/
theorem inv_resetBlock {s : State} (h : InvParts s) : InvParts (resetBlock s) :=
  ⟨rfl, h.storage, h.breaks, h.exits, rfl, rfl, rfl, rfl, rfl, rfl, rfl, rfl, rfl⟩

/-- The debug write of the pc keeps the invariant (R214). -/
theorem inv_debugWritePC {s : State} (h : InvParts s) (v : Word) : InvParts (debugWritePC v s) :=
  ⟨h.zero, h.storage, h.breaks, h.exits, slotHolds_fetch s _, rfl, rfl, slotMarksAgree_fetch s _, rfl, rfl,
    notIntJump_fetch s _, rfl, rfl⟩

/-- A reply keeps the invariant. -/
theorem inv_answer {s : State} (h : InvParts s) (r : Reply) : InvParts (answer r s) :=
  ⟨h.1, h.2, h.3, h.4, h.5, h.6, h.7, h.8, h.9, h.10, h.11, h.12, h.13⟩

/-- A debug access keeps the invariant (R89, R90). -/
theorem inv_dbgRead {s : State} (h : InvParts s) (a : Word) (size : Size) : InvParts (dbgRead a size s) := by
  unfold dbgRead
  split
  · exact inv_answer h _
  · split
    · exact inv_answer h _
    · exact inv_answer h _
    · exact inv_answer h _
    · split
      · exact ⟨h.1, h.2, h.3, h.4, h.5, h.6, h.7, h.8, h.9, h.10, h.11, h.12, h.13⟩
      · exact inv_answer h _

theorem inv_dbgWrite {s : State} (hc : s.cfg.wf = true) (h : InvParts s) (a : Word) (size : Size) (v : Word) :
    InvParts (dbgWrite a size v s) := by
  have store : isStorage s.cfg a = true → InvParts (memWrite s a size v) := fun ha =>
    ⟨h.zero, storageHolds_memWrite hc h.storage ha size v, h.breaks, h.exits, h.holdsF, h.holdsD, h.holdsE,
      h.agreeF, h.agreeD, h.agreeE, h.notIntF, h.notIntD, h.access⟩
  unfold dbgWrite
  split
  · exact inv_answer h _
  · split
    · exact inv_answer h _
    · rename_i hr
      exact inv_answer (store ((isStorage_iff_region _ _).2 (.inl hr))) _
    · rename_i hr
      exact inv_answer (store ((isStorage_iff_region _ _).2 (.inr hr))) _
    · split
      · exact ⟨h.1, h.2, h.3, h.4, h.5, h.6, h.7, h.8, h.9, h.10, h.11, h.12, h.13⟩
      · exact inv_answer h _

/-- A register write keeps the invariant (R213). -/
theorem inv_setReg {s : State} (h : InvParts s) (r : RegSel) (v : Word) : InvParts (setReg r v s) := by
  cases r with
  | gpr i =>
    exact ⟨zero_writeGpr h.zero i v, h.2, h.3, h.4, h.5, h.6, h.7, h.8, h.9, h.10, h.11, h.12, h.13⟩
  | _ => exact ⟨h.1, h.2, h.3, h.4, h.5, h.6, h.7, h.8, h.9, h.10, h.11, h.12, h.13⟩

/-! ## Entries and their marks -/

/-- Which kind of variant an entry is, by its marks (R84). -/
theorem entryAt_bp_iff (s : State) (a : Word) : (∃ e, entryAt s a = .bp e) ↔ a.toNat ∈ s.breakMarks := by
  unfold entryAt
  constructor
  · rintro ⟨e, he⟩
    have := (wrapBody_eq_bp.1 he).1
    simpa using this
  · intro h
    exact ⟨_, wrapBody_eq_bp.2 ⟨by simpa using h, rfl⟩⟩

/-- Inserting at a fetchable, unmarked address (R220). -/
theorem execBpInsert_unmarked {s : State} {a : Word} (hf : fetchable s.cfg a = true) (ha : a.toNat ∉ s.breakMarks) :
    execBpInsert a s =
      .next (answer .ok (mapSlots (wrapBreak a) { s with breakMarks := addMark s.breakMarks a.toNat })) := by
  have hb := (entryAt_bp_iff s a).not.2 ha
  have hn := entryAt_ne s a
  unfold execBpInsert
  simp only [hf, Bool.not_true, Bool.false_eq_true, if_false]
  cases he : entryAt s a with
  | bp e => exact absurd ⟨e, he⟩ hb
  | empty => exact absurd he hn.1
  | _ => rfl

theorem execBpInsert_marked {s : State} {a : Word} (hf : fetchable s.cfg a = true) (ha : a.toNat ∈ s.breakMarks) :
    execBpInsert a s = .next (failWith .alreadySet s) := by
  obtain ⟨e, he⟩ := (entryAt_bp_iff s a).2 ha
  simp [execBpInsert, hf, he]

theorem execBpRemove_marked {s : State} {a : Word} (hf : fetchable s.cfg a = true) (ha : a.toNat ∈ s.breakMarks) :
    execBpRemove a s =
      .next (answer .ok (mapSlots (unwrapBreak a) { s with breakMarks := dropMark s.breakMarks a.toNat })) := by
  obtain ⟨e, he⟩ := (entryAt_bp_iff s a).2 ha
  simp [execBpRemove, hf, he]

theorem execBpRemove_unmarked {s : State} {a : Word} (hf : fetchable s.cfg a = true) (ha : a.toNat ∉ s.breakMarks) :
    execBpRemove a s = .next (failWith .notSet s) := by
  have hb := (entryAt_bp_iff s a).not.2 ha
  unfold execBpRemove
  simp only [hf, Bool.not_true, Bool.false_eq_true, if_false]
  cases he : entryAt s a with
  | bp e => exact absurd ⟨e, he⟩ hb
  | _ => rfl

/-- Marking an exit at a fetchable address, by its mark (R222). -/
theorem execExitMark_cases {s : State} {a : Word} (hf : fetchable s.cfg a = true) :
    (a.toNat ∈ s.exitMarks → execExitMark a s = .next (failWith .alreadySet s)) ∧
    (a.toNat ∉ s.exitMarks → execExitMark a s =
      .next (answer .ok (mapSlots (wrapExit a) { s with exitMarks := addMark s.exitMarks a.toNat }))) := by
  unfold execExitMark
  simp only [hf, Bool.not_true, Bool.false_eq_true, if_false]
  unfold entryAt
  constructor <;> intro h
  · have h' : s.exitMarks.contains a.toNat = true := by simpa using h
    rw [h']
    cases s.breakMarks.contains a.toNat <;> cases decodeWord s.cfg a (readWord s.mem a.toNat) <;> rfl
  · have h' : s.exitMarks.contains a.toNat = false := by simpa using h
    rw [h']
    cases s.breakMarks.contains a.toNat <;> cases decodeWord s.cfg a (readWord s.mem a.toNat) <;> rfl

end Sys2Proof.Machine
end

