-- ==== Sys2Proof/Laws/Commands.lean ====
section
/-!
SUPPORT. Laws/Commands.lean: what a poll alone, a debug access, a register write and a change of the marks can
change, each said once; and everything a step can do.
-/

namespace Sys2Proof.Machine

/-- A poll alone changes the Access State, storage, the record of device calls and the ports (R75). -/
theorem pollRequest_frame {r : BusReq} {s t : State} (hp : pollRequest r s = .next t) :
    t = { s with acc := t.acc, mem := t.mem, devCalls := t.devCalls, seq := t.seq, busResp := t.busResp } := by
  unfold pollRequest pollAndRecord at hp
  cases hb : busAccess r s with
  | error e => simp [hb] at hp
  | ok v =>
    obtain ⟨resp, u⟩ := v
    simp only [hb, Host.Outcome.next.injEq] at hp
    have k := busAccess_frame hb
    subst hp
    show { u with busResp := some resp } = _
    conv_lhs => rw [k]

/-- A poll alone, when the request may be polled (R75). -/
theorem pollRequest_of_poll {r : BusReq} {s : State} {cls : AccessClass} {n : Nat}
    (h : (s.acc.inFlight = none ∧ cls = classify s.cfg r ∧ n = 1) ∨ ∃ k, s.acc.inFlight = some (cls, k, r) ∧ n = k + 1) :
    pollRequest r s =
      .next { (pollAt cls n r s).2 with busResp := some (pollAt cls n r s).1 } := by
  simp [pollRequest, pollAndRecord, busAccess_of_next h]

/-- A debug read changes the reply and, for a device, the record of calls (R89). -/
theorem dbgRead_frame (a : Word) (size : Size) (s : State) :
    dbgRead a size s =
      { s with
        reply := (dbgRead a size s).reply, devCalls := (dbgRead a size s).devCalls, seq := (dbgRead a size s).seq } := by
  unfold dbgRead
  split
  · rfl
  · split
    · rfl
    · rfl
    · rfl
    · split <;> rfl

/-- A debug write changes the reply and storage or the record of calls (R90). -/
theorem dbgWrite_frame (a : Word) (size : Size) (v : Word) (s : State) :
    dbgWrite a size v s =
      { s with
        reply := (dbgWrite a size v s).reply, devCalls := (dbgWrite a size v s).devCalls,
        mem := (dbgWrite a size v s).mem } := by
  unfold dbgWrite
  repeat' split
  all_goals rfl

/-- A copy keeps its pc under every change of the marks (R141). -/
@[simp] theorem programCounter_wrapBreak (a : Word) (v : Slot) : programCounter (wrapBreak a v) = programCounter v := by
  unfold wrapBreak
  split
  · rcases v with _ | _ | _ | _ | _ | _ | (e | e) <;> rfl
  · rfl

@[simp] theorem programCounter_unwrapBreak (a : Word) (v : Slot) :
    programCounter (unwrapBreak a v) = programCounter v := by
  unfold unwrapBreak
  rcases v with _ | _ | _ | _ | _ | _ | ((b | b) | (b | b)) <;> first | rfl | (dsimp only; split <;> rfl)

@[simp] theorem programCounter_wrapExit (a : Word) (v : Slot) : programCounter (wrapExit a v) = programCounter v := by
  unfold wrapExit
  split
  · rcases v with _ | _ | _ | _ | _ | _ | (e | e) <;> rfl
  · rfl

/-! ## A step -/

/-- `step` of a well-formed configuration with no request waiting. -/
theorem step_free {s : State} (hc : s.cfg.wf = true) (hp : s.port = []) :
    step s = onNext sampleInput (exec s.slotE.toInstr s) := by
  simp [step, hp, whenWellFormed, hc]

/-- `step` with a request waiting that decodes. -/
theorem step_request {s : State} {r : RawWord} {rest : List RawWord} {i : Instr} (hc : s.cfg.wf = true)
    (hp : s.port = r :: rest) (hd : decodeRequest r = .ok i) : step s = exec i { s with port := rest } := by
  simp [step, hp, whenWellFormed, hc, hd]

/-- `step` with a request waiting that does not decode. -/
theorem step_reject {s : State} {r : RawWord} {rest : List RawWord} {e : DecodeError} (hc : s.cfg.wf = true)
    (hp : s.port = r :: rest) (hd : decodeRequest r = .error e) :
    step s = rejectRequest { s with port := rest } := by
  simp [step, hp, whenWellFormed, hc, hd]

/-- `step` of an ill-formed configuration. -/
theorem step_ill_formed {s : State} (hc : s.cfg.wf = false) : step s = .refused .illFormedConfiguration := by
  unfold step
  split <;> simp [whenWellFormed, hc]

/-- Everything a step that answers a next state has done: run the instruction in slot.E and drawn an input level, run a
waiting request, or failed a reserved command. -/
theorem step_next_cases {s t : State} (h : step s = .next t) :
    s.cfg.wf = true ∧
      ((s.port = [] ∧ ∃ u, exec s.slotE.toInstr s = .next u ∧ t = sampleInput u) ∨
        (∃ r rest i, s.port = r :: rest ∧ decodeRequest r = .ok i ∧ exec i { s with port := rest } = .next t) ∨
        ∃ r rest e, s.port = r :: rest ∧ decodeRequest r = .error e ∧
          t = failWith .badCommand { s with port := rest }) := by
  cases hc : s.cfg.wf with
  | false => rw [step_ill_formed hc] at h; cases h
  | true =>
    refine ⟨rfl, ?_⟩
    cases hp : s.port with
    | nil =>
      rw [step_free hc hp] at h
      cases he : exec s.slotE.toInstr s with
      | next u =>
        rw [he] at h
        cases h
        exact .inl ⟨rfl, u, rfl, rfl⟩
      | fault r => cases r
      | refused r => rw [he] at h; cases h
    | cons r rest =>
      cases hd : decodeRequest r with
      | ok i => rw [step_request hc hp hd] at h; exact .inr (.inl ⟨r, rest, i, rfl, hd, h⟩)
      | error e =>
        rw [step_reject hc hp hd] at h
        cases h
        exact .inr (.inr ⟨r, rest, e, rfl, hd, rfl⟩)

end Sys2Proof.Machine
end

