-- ==== Sys2Proof/Laws/Lanes.lean ====
section
/-!
SUPPORT. Laws/Lanes.lean: the byte lanes of a word (R67 to R71): a read in bytes, a lane read back after a write, the bytes a
write leaves alone.
-/

namespace Sys2Proof.Machine

theorem getLsbD_sizeMask (size : Size) (i : Nat) : (sizeMask size).getLsbD i = decide (i < 8 * sizeBytes size) := by
  by_cases hi : i < 32
  · have small : ∀ j : Fin 32, (sizeMask size).getLsbD j = decide (j.val < 8 * sizeBytes size) := by
      cases size <;> decide
    exact small ⟨i, hi⟩
  · rw [BitVec.getLsbD_of_ge _ _ (Nat.not_lt.1 hi)]
    symm
    rw [decide_eq_false_iff_not]
    cases size <;> simp only [sizeBytes] <;> omega

/-- An aligned lane lies inside its word, at the place R67 gives it. -/
theorem laneShift_spec {a : Word} {size : Size} (h : aligned a size = true) :
    laneShift a size + 8 * sizeBytes size + 8 * (a.toNat % 4) = 32 := by
  cases size with
  | byte =>
    simp only [laneShift, sizeBytes]
    omega
  | half =>
    have := (aligned_half_iff a).1 h
    simp only [laneShift, sizeBytes]
    omega
  | word =>
    have := (aligned_word_iff a).1 h
    simp only [laneShift, sizeBytes]
    omega

/-- A bit of the lane read (R68). -/
theorem getLsbD_extract (w a : Word) (size : Size) (i : Nat) :
    (extract w a size).getLsbD i = (w.getLsbD (laneShift a size + i) && decide (i < 8 * sizeBytes size)) := by
  simp only [extract, BitVec.getLsbD_and, BitVec.getLsbD_ushiftRight, getLsbD_sizeMask]

/-- A bit of the word merged (R69). -/
theorem getLsbD_merge (w a : Word) (size : Size) (v : Word) {i : Nat} (hi : i < 32) :
    (merge w a size v).getLsbD i =
      if laneShift a size ≤ i ∧ i < laneShift a size + 8 * sizeBytes size then v.getLsbD (i - laneShift a size)
      else w.getLsbD i := by
  simp only [merge, BitVec.getLsbD_or, BitVec.getLsbD_and, BitVec.getLsbD_not, BitVec.getLsbD_shiftLeft,
    getLsbD_sizeMask]
  by_cases h1 : laneShift a size ≤ i
  · have h1' : ¬ i < laneShift a size := by omega
    by_cases h2 : i < laneShift a size + 8 * sizeBytes size
    · have h2' : i - laneShift a size < 8 * sizeBytes size := by omega
      simp [hi, h1, h1', h2, h2']
    · have h2' : ¬ i - laneShift a size < 8 * sizeBytes size := by omega
      simp [hi, h2, h2']
  · have h1' : i < laneShift a size := by omega
    simp [hi, h1, h1']

/-- What is merged into a lane is read from it (R68, R69). -/
theorem extract_merge {a : Word} {size : Size} (h : aligned a size = true) (w v : Word) :
    extract (merge w a size v) a size = v &&& sizeMask size := by
  have hs := laneShift_spec h
  apply BitVec.eq_of_getLsbD_eq
  intro i hi
  rw [getLsbD_extract, BitVec.getLsbD_and, getLsbD_sizeMask]
  by_cases hn : i < 8 * sizeBytes size
  · rw [getLsbD_merge w a size v (by omega), if_pos (by omega)]
    simp
  · simp [hn]

/-- A byte of the word outside the lane is kept (R69). -/
theorem merge_outside {a : Word} {size : Size} (h : aligned a size = true) (w v : Word) {k : Nat} (hk : k < 4)
    (ho : k < a.toNat % 4 ∨ a.toNat % 4 + sizeBytes size ≤ k) :
    (merge w a size v).extractLsb' (24 - 8 * k) 8 = w.extractLsb' (24 - 8 * k) 8 := by
  have hs := laneShift_spec h
  apply BitVec.eq_of_getLsbD_eq
  intro i hi
  rw [BitVec.getLsbD_extractLsb', BitVec.getLsbD_extractLsb', getLsbD_merge w a size v (by omega),
    if_neg (by omega)]

/-- A byte of a word, as storage holds it (R67). -/
theorem extractLsb'_readWord (m : Memory) (wa : Nat) {k : Nat} (hk : k < 4) :
    (readWord m wa).extractLsb' (24 - 8 * k) 8 = readByte m (wa + k) := by
  unfold readWord
  apply BitVec.eq_of_getLsbD_eq
  intro i hi
  have cases4 : k = 0 ∨ k = 1 ∨ k = 2 ∨ k = 3 := by omega
  rw [BitVec.getLsbD_extractLsb', BitVec.getLsbD_append, BitVec.getLsbD_append, BitVec.getLsbD_append]
  rcases cases4 with rfl | rfl | rfl | rfl
  · rw [if_neg (by omega), if_neg (by omega), if_neg (by omega)]
    simp only [hi, decide_true, Bool.true_and]
    congr 1
    omega
  · rw [if_neg (by omega), if_neg (by omega), if_pos (by omega)]
    simp only [hi, decide_true, Bool.true_and]
    congr 1
    omega
  · rw [if_neg (by omega), if_pos (by omega)]
    simp only [hi, decide_true, Bool.true_and]
    congr 1
    omega
  · rw [if_pos (by omega)]
    simp [hi]

/-- Every byte outside the stored ones is kept by a store of an aligned width (R71). -/
theorem readByte_memWrite_outside {s : State} (hm : Memory.wf s.mem = true) {a : Word} {size : Size}
    (h : aligned a size = true) (v : Word) {b : Nat} (hb : b < a.toNat ∨ a.toNat + sizeBytes size ≤ b) :
    readByte (memWrite s a size v).mem b = readByte s.mem b := by
  show readByte (writeWord s.mem (wordAddr a) (merge (readWord s.mem (wordAddr a)) a size v)) b = _
  by_cases hw : b < wordAddr a ∨ wordAddr a + 4 ≤ b
  · exact readByte_writeWord_outside _ _ _ hw
  · obtain ⟨k, rfl⟩ : ∃ k, b = wordAddr a + k := ⟨b - wordAddr a, by omega⟩
    have hk : k < 4 := by omega
    have hwa := wordAddr_spec a
    rw [readByte_writeWord_inside hm _ _ hk, merge_outside h _ _ hk (by omega), extractLsb'_readWord _ _ hk]

/-- A store of an aligned width is read back (R70, R71). -/
theorem memRead_memWrite {s : State} (hm : Memory.wf s.mem = true) {a : Word} {size : Size}
    (h : aligned a size = true) (v : Word) : memRead (memWrite s a size v) a size = v &&& sizeMask size := by
  show extract (readWord (writeWord s.mem (wordAddr a) (merge (readWord s.mem (wordAddr a)) a size v)) (wordAddr a))
    a size = _
  rw [readWord_writeWord hm, extract_merge h]

end Sys2Proof.Machine
end

