-- ==== Sys2Proof/Laws/PerInstr.lean ====
section
/-!
SUPPORT. Laws/PerInstr.lean: one statement per instruction about its encoding: the bits the encoder writes are those the
instruction's row of opcode_table.json fixes, at the port of the row's format (R112, R116, R118).
-/

namespace Sys2Proof.Laws.TableRow

/-- A row of opcode_table.json: the port of its format, its mask and its match on the code byte. -/
structure Row where
  port : Port
  mask : BitVec 8
  value : BitVec 8
  deriving DecidableEq, Repr

/-- The row of an instruction. -/
def row : Instr → Row
  | .empty => ⟨.slot, 0xFF, 0x00⟩
  | .external _ _ => ⟨.slot, 0xFF, 0x80⟩
  | .illegal _ => ⟨.slot, 0xFF, 0x81⟩
  | .unmapped _ => ⟨.slot, 0xFF, 0x82⟩
  | .intjump _ => ⟨.slot, 0xFF, 0x83⟩
  | .programExit _ => ⟨.slot, 0xFE, 0xA0⟩
  | .breakpoint _ => ⟨.slot, 0xDE, 0xC0⟩
  | .busRb _ => ⟨.bus, 0x07, 0x00⟩
  | .busRh _ => ⟨.bus, 0x07, 0x01⟩
  | .busRw _ => ⟨.bus, 0x07, 0x02⟩
  | .busWb _ _ => ⟨.bus, 0x07, 0x04⟩
  | .busWh _ _ => ⟨.bus, 0x07, 0x05⟩
  | .busWw _ _ => ⟨.bus, 0x07, 0x06⟩
  | .cycle _ => ⟨.host, 0xFF, 0x01⟩
  | .reset => ⟨.host, 0xFF, 0x02⟩
  | .regGet _ => ⟨.host, 0xFF, 0x10⟩
  | .regSet _ _ => ⟨.host, 0xFF, 0x11⟩
  | .dbgRegSet _ _ => ⟨.host, 0xFF, 0x12⟩
  | .memGetW _ => ⟨.host, 0xFF, 0x20⟩
  | .memGetH _ => ⟨.host, 0xFF, 0x21⟩
  | .memGetB _ => ⟨.host, 0xFF, 0x22⟩
  | .memSetW _ _ => ⟨.host, 0xFF, 0x24⟩
  | .memSetH _ _ => ⟨.host, 0xFF, 0x25⟩
  | .memSetB _ _ => ⟨.host, 0xFF, 0x26⟩
  | .bpInsert _ => ⟨.host, 0xFF, 0x30⟩
  | .bpRemove _ => ⟨.host, 0xFF, 0x31⟩
  | .exitMark _ => ⟨.host, 0xFF, 0x32⟩
  | .slotGet _ => ⟨.host, 0xFF, 0x40⟩
  | .retiredGet => ⟨.host, 0xFF, 0x41⟩

/-- The encoder writes the bits the instruction's row fixes, for the port of the row's format. -/
def Statement (i : Instr) : Prop :=
  i.port = (row i).port ∧ (encode i).code &&& (row i).mask = (row i).value

theorem empty : Statement .empty := ⟨rfl, (by decide : (0x00 : BitVec 8) &&& 0xFF = 0x00)⟩

theorem external (a : Word) (w : Word) : Statement (.external a w) := ⟨rfl, (by decide : (0x80 : BitVec 8) &&& 0xFF = 0x80)⟩

theorem illegal (a : Word) : Statement (.illegal a) := ⟨rfl, (by decide : (0x81 : BitVec 8) &&& 0xFF = 0x81)⟩

theorem unmapped (a : Word) : Statement (.unmapped a) := ⟨rfl, (by decide : (0x82 : BitVec 8) &&& 0xFF = 0x82)⟩

theorem intjump (a : Word) : Statement (.intjump a) := ⟨rfl, (by decide : (0x83 : BitVec 8) &&& 0xFF = 0x83)⟩

theorem programExit (e : Body) : Statement (.programExit e) := by
  cases e <;> exact ⟨rfl, by simp [encode, row, Body.kindBit]⟩

theorem breakpoint (e : Marked) : Statement (.breakpoint e) := by
  rcases e with (e | e) | (e | e) <;> exact ⟨rfl, by simp [encode, row, Marked.exitBits, Marked.body, Body.kindBit]⟩

theorem busRb (addr : Word) : Statement (.busRb addr) := ⟨rfl, (by decide : (0x00 : BitVec 8) &&& 0x07 = 0x00)⟩

theorem busRh (addr : Word) : Statement (.busRh addr) := ⟨rfl, (by decide : (0x01 : BitVec 8) &&& 0x07 = 0x01)⟩

theorem busRw (addr : Word) : Statement (.busRw addr) := ⟨rfl, (by decide : (0x02 : BitVec 8) &&& 0x07 = 0x02)⟩

theorem busWb (addr : Word) (wdata : Word) : Statement (.busWb addr wdata) := ⟨rfl, (by decide : (0x04 : BitVec 8) &&& 0x07 = 0x04)⟩

theorem busWh (addr : Word) (wdata : Word) : Statement (.busWh addr wdata) := ⟨rfl, (by decide : (0x05 : BitVec 8) &&& 0x07 = 0x05)⟩

theorem busWw (addr : Word) (wdata : Word) : Statement (.busWw addr wdata) := ⟨rfl, (by decide : (0x06 : BitVec 8) &&& 0x07 = 0x06)⟩

theorem cycle (irq : Bool) : Statement (.cycle irq) := ⟨rfl, (by decide : (0x01 : BitVec 8) &&& 0xFF = 0x01)⟩

theorem reset : Statement .reset := ⟨rfl, (by decide : (0x02 : BitVec 8) &&& 0xFF = 0x02)⟩

theorem regGet (n : Word) : Statement (.regGet n) := ⟨rfl, (by decide : (0x10 : BitVec 8) &&& 0xFF = 0x10)⟩

theorem regSet (n : Word) (v : Word) : Statement (.regSet n v) := ⟨rfl, (by decide : (0x11 : BitVec 8) &&& 0xFF = 0x11)⟩

theorem dbgRegSet (n : Word) (v : Word) : Statement (.dbgRegSet n v) := ⟨rfl, (by decide : (0x12 : BitVec 8) &&& 0xFF = 0x12)⟩

theorem memGetW (addr : Word) : Statement (.memGetW addr) := ⟨rfl, (by decide : (0x20 : BitVec 8) &&& 0xFF = 0x20)⟩

theorem memGetH (addr : Word) : Statement (.memGetH addr) := ⟨rfl, (by decide : (0x21 : BitVec 8) &&& 0xFF = 0x21)⟩

theorem memGetB (addr : Word) : Statement (.memGetB addr) := ⟨rfl, (by decide : (0x22 : BitVec 8) &&& 0xFF = 0x22)⟩

theorem memSetW (addr : Word) (v : Word) : Statement (.memSetW addr v) := ⟨rfl, (by decide : (0x24 : BitVec 8) &&& 0xFF = 0x24)⟩

theorem memSetH (addr : Word) (v : Word) : Statement (.memSetH addr v) := ⟨rfl, (by decide : (0x25 : BitVec 8) &&& 0xFF = 0x25)⟩

theorem memSetB (addr : Word) (v : Word) : Statement (.memSetB addr v) := ⟨rfl, (by decide : (0x26 : BitVec 8) &&& 0xFF = 0x26)⟩

theorem bpInsert (addr : Word) : Statement (.bpInsert addr) := ⟨rfl, (by decide : (0x30 : BitVec 8) &&& 0xFF = 0x30)⟩

theorem bpRemove (addr : Word) : Statement (.bpRemove addr) := ⟨rfl, (by decide : (0x31 : BitVec 8) &&& 0xFF = 0x31)⟩

theorem exitMark (addr : Word) : Statement (.exitMark addr) := ⟨rfl, (by decide : (0x32 : BitVec 8) &&& 0xFF = 0x32)⟩

theorem slotGet (sel : Word) : Statement (.slotGet sel) := ⟨rfl, (by decide : (0x40 : BitVec 8) &&& 0xFF = 0x40)⟩

theorem retiredGet : Statement .retiredGet := ⟨rfl, (by decide : (0x41 : BitVec 8) &&& 0xFF = 0x41)⟩

end Sys2Proof.Laws.TableRow
end

