-- ==== Sys2Proof/Tests/Slice0.lean ====
section
/-!
SUPPORT. Tests/Slice0.lean: the model's own tests. Expected values are those of 95_test_vectors.md (its vector named in each
comment) or read off the tables of 30_encoding.md; each test is one step on a small state. After them, for each statement
with hypotheses, a witness that meets them, at the boundary of each clause.
-/

namespace Sys2Proof.Tests

open Sys2Proof Sys2Proof.Machine Sys2Proof.Claims

/-! ## Small states -/

/-- The next state of an outcome, if it has one. -/
def after (o : Host.Outcome State Fault Refusal) : Option State :=
  match o with
  | .next t => some t
  | .fault _ => none
  | .refused _ => none

/-- Why an outcome has no next state. -/
def refusal (o : Host.Outcome State Fault Refusal) : Option Refusal :=
  match o with
  | .next _ => none
  | .fault _ => none
  | .refused r => some r

/-- An ordinary instruction fetched from `a`. -/
def ins (a : Word) : Slot := .external a 0

/-- The state [e | d | f] with pc/npc of 95_test_vectors.md. -/
def pipe (e d f : Slot) (pc npc : Word) : State :=
  { State.reset with slotE := e, slotD := d, slotF := f, pc := pc, npc := npc }

/-- [I0 | I4 | I8] 8/12. -/
def flowing : State := pipe (ins 0) (ins 4) (ins 8) 8 12

/-- Device d0 of 95_test_vectors.md, with VA9's and VA10's latencies. -/
def d0 : Device := { addr := 0x2000, rlat := 3, wlat := 1 }

/-- CFG0 with device d0. -/
def devices0 : State := { State.reset with cfg := { Config.cfg0 with devices := [d0] } }

/-- CFG0 with a peripheral bus at 0x4000. -/
def peripheral0 : State :=
  { State.reset with
    cfg := { Config.cfg0 with peripheralBus := some { lo := 0x4000, hi := 0x4FFF, rlat := 1, wlat := 1 } } }

/-- A state with a word in storage. -/
def storing (a v : Word) : State := memWrite State.reset a .word v

/-- An answer of Exec that does nothing and returns NORMAL. -/
def plain : ExecAnswer where
  polls := []
  touchesOther := false
  writes := noWrites
  onBusy := ⟨0x1, 0, noWrites⟩
  onUnaligned := ⟨0x9, 0, noWrites⟩
  onUnmapped := ⟨0xC, 0, noWrites⟩
  isImmPrefix := false
  code := 0
  info := 0

/-- A state with one answer of Exec waiting. -/
def answering (s : State) (ans : ExecAnswer) : State := { s with execQ := [ans] }

/-- The word read at VA2's address. -/
def readReq : BusReq := ⟨.read, .word, 0x100, 0⟩

/-- An answer that loads register 4 from 0x100. -/
def loading : ExecAnswer := { plain with polls := [pollOf readReq], writes := ⟨[(4, .loaded)], [], []⟩ }

/-- An answer that stores 7 at 0xFFC. -/
def storingAnswer : ExecAnswer := { plain with polls := [pollOf ⟨.write, .word, 0xFFC, 7⟩] }

/-- A state with an access pending. -/
def pendingAt (s : State) (cls : AccessClass) (polls : Nat) (r : BusReq) : State := { s with acc := .pending cls polls r }

/-- No access of the instruction's own is in flight when none is. -/
theorem not_pending {s : State} (h : s.acc = .idle) (cls : AccessClass) (n : Nat) (r : BusReq) :
    s.acc ≠ .pending cls n r := by
  simp [h]

/-! ## Well-formedness: an ill-formed term for each check -/

theorem test_wellFormed_slots :
    Instr.wellFormed (.external 0x8 0) = true ∧ Instr.wellFormed (.illegal 0xFFFFFFFC) = true ∧
      Instr.wellFormed (.unmapped 0x3) = true ∧ Instr.wellFormed (.intjump 0x1) = true := by decide

theorem test_illFormed_external : Instr.wellFormed (.external 0x6 0) = false := by decide

theorem test_illFormed_illegal : Instr.wellFormed (.illegal 0x1) = false := by decide

theorem test_illFormed_programExit : Instr.wellFormed (.programExit (.external 0x2 0)) = false := by decide

theorem test_illFormed_breakpoint : Instr.wellFormed (.breakpoint (.exit (.illegal 0x3))) = false := by decide

/-- CFG0 is well formed; a region that ends off a word, an overlap and a link register 0 are not (R9). -/
theorem test_configuration_checks :
    Config.cfg0.wf = true ∧ devices0.cfg.wf = true ∧ peripheral0.cfg.wf = true ∧
      { Config.cfg0 with localBus := { lo := 0, hi := 0xFFE, rlat := 1, wlat := 1 } }.wf = false ∧
      { Config.cfg0 with devices := [{ addr := 0xFFC, rlat := 1, wlat := 1 }] }.wf = false ∧
      { Config.cfg0 with excLink := 0 }.wf = false ∧ { Config.cfg0 with unalignedPoll := 3 }.wf = false := by decide

/-! ## Decoding, from words written out from the tables (R113, R116, R118) -/

/-- CTL 00000000. -/
theorem test_decode_empty : decodeSlot ⟨0b00000000, 0, 0⟩ = .ok .empty := by rfl

/-- CTL 10000000, FPC 8, IW 04600005 (VD14). -/
theorem test_decode_external : decodeSlot ⟨0b10000000, 0x8, 0x04600005⟩ = .ok (.external 0x8 0x04600005) := by rfl

/-- CTL 10000001. -/
theorem test_decode_illegal : decodeSlot ⟨0b10000001, 0x40, 0⟩ = .ok (.illegal 0x40) := by rfl

/-- CTL 10000010, FPC 1000 (VD15). -/
theorem test_decode_unmapped : decodeSlot ⟨0b10000010, 0x1000, 0⟩ = .ok (.unmapped 0x1000) := by rfl

/-- CTL 10000011, FPC 4 (VD15). -/
theorem test_decode_intjump : decodeSlot ⟨0b10000011, 0x4, 0⟩ = .ok (.intjump 0x4) := by rfl

/-- CTL 10100000 and 10100001: EX with K = External, Illegal. -/
theorem test_decode_programExit :
    decodeSlot ⟨0b10100000, 0x10, 0x1⟩ = .ok (.programExit (.external 0x10 0x1)) ∧
      decodeSlot ⟨0b10100001, 0x10, 0⟩ = .ok (.programExit (.illegal 0x10)) := ⟨rfl, rfl⟩

/-- CTL 11000000 and 11100001: BP, with and without EX (VD15). -/
theorem test_decode_breakpoint :
    decodeSlot ⟨0b11000000, 0x8, 0x2⟩ = .ok (.breakpoint (.plain (.external 0x8 0x2))) ∧
      decodeSlot ⟨0b11100001, 0x40, 0⟩ = .ok (.breakpoint (.exit (.illegal 0x40))) := ⟨rfl, rfl⟩

/-- CTL 10000100 and 01000000 are reserved; IW of a marker must be 0. -/
theorem test_decode_slot_rejects :
    decodeSlot ⟨0b10000100, 0, 0⟩ = .error .reservedControl ∧ decodeSlot ⟨0b01000000, 0, 0⟩ = .error .reservedControl ∧
      decodeSlot ⟨0b10000001, 0x40, 1⟩ = .error .nonzeroField ∧ decodeSlot ⟨0, 1, 0⟩ = .error .nonzeroField :=
  ⟨rfl, rfl, rfl, rfl⟩

/-- OP = 0 read, 1 write; SZ = 00, 01, 10. -/
theorem test_decode_requests :
    decodeBus ⟨0b000, 0x103, 0⟩ = .ok (.busRb 0x103) ∧ decodeBus ⟨0b001, 0x102, 0⟩ = .ok (.busRh 0x102) ∧
      decodeBus ⟨0b010, 0x100, 0⟩ = .ok (.busRw 0x100) ∧ decodeBus ⟨0b100, 0x103, 0x7⟩ = .ok (.busWb 0x103 0x7) ∧
      decodeBus ⟨0b101, 0x102, 0x7⟩ = .ok (.busWh 0x102 0x7) ∧ decodeBus ⟨0b110, 0x100, 0x7⟩ = .ok (.busWw 0x100 0x7) :=
  by decide

/-- SZ = 11 is reserved; REQ has three bits. -/
theorem test_decode_request_rejects :
    decodeBus ⟨0b011, 0, 0⟩ = .error .reservedSize ∧ decodeBus ⟨0b111, 0, 0⟩ = .error .reservedSize ∧
      decodeBus ⟨0b1000, 0, 0⟩ = .error .reservedRequestBits := by decide

theorem test_decode_clock_and_reset :
    decodeHost ⟨0x01, 1, 0⟩ = .ok (.cycle true) ∧ decodeHost ⟨0x01, 2, 0⟩ = .ok (.cycle false) ∧
      decodeHost ⟨0x02, 0, 0⟩ = .ok .reset := by decide

theorem test_decode_registers :
    decodeHost ⟨0x10, 33, 0⟩ = .ok (.regGet 33) ∧ decodeHost ⟨0x11, 33, 0x2⟩ = .ok (.regSet 33 0x2) ∧
      decodeHost ⟨0x12, 32, 0x100⟩ = .ok (.dbgRegSet 32 0x100) := by decide

theorem test_decode_memory :
    decodeHost ⟨0x20, 4, 0⟩ = .ok (.memGetW 4) ∧ decodeHost ⟨0x21, 2, 0⟩ = .ok (.memGetH 2) ∧
      decodeHost ⟨0x22, 1, 0⟩ = .ok (.memGetB 1) ∧ decodeHost ⟨0x24, 4, 9⟩ = .ok (.memSetW 4 9) ∧
      decodeHost ⟨0x25, 2, 9⟩ = .ok (.memSetH 2 9) ∧ decodeHost ⟨0x26, 1, 9⟩ = .ok (.memSetB 1 9) := by decide

theorem test_decode_debug :
    decodeHost ⟨0x30, 8, 0⟩ = .ok (.bpInsert 8) ∧ decodeHost ⟨0x31, 8, 0⟩ = .ok (.bpRemove 8) ∧
      decodeHost ⟨0x32, 8, 0⟩ = .ok (.exitMark 8) ∧ decodeHost ⟨0x40, 2, 0⟩ = .ok (.slotGet 2) ∧
      decodeHost ⟨0x41, 0, 0⟩ = .ok .retiredGet := by decide

/-- CMD = 0x03 (VD18), 0x23 and 0x00 are reserved. -/
theorem test_decode_command_rejects :
    decodeHost ⟨0x03, 0, 0⟩ = .error .reservedCommand ∧ decodeHost ⟨0x23, 0, 0⟩ = .error .reservedCommand ∧
      decodeHost ⟨0x00, 0, 0⟩ = .error .reservedCommand := by decide

/-- The codes of R114, R117, R118 and the request code, at both ends of each table. -/
theorem test_codes :
    OutcomeCode.unmappedData.bits = 0xC ∧ decodeOutcome 0x7 = none ∧ decodeOutcome 0xD = none ∧
      RunStatus.breakpointHit.bits = 0b10 ∧ FailReason.badCommand.code = 8 ∧ encodeReq .write .word = 0b110 := by decide

/-- The table's words, numbered as the table numbers them. -/
theorem test_decodeTableWord :
    decodeTableWord 72 (0x80 + 0x8 * 2 ^ 8 + 0x04600005 * 2 ^ 40) = some (.external 0x8 0x04600005) ∧
      decodeTableWord 8 0xC0 = some (.breakpoint (.plain (.external 0 0))) ∧
      decodeTableWord 8 0x41 = some .retiredGet ∧ decodeTableWord 3 0 = some (.busRb 0) ∧
      decodeTableWord 8 0x06 = some (.busWw 0 0) ∧ decodeTableWord 8 0x03 = none := by decide

/-! ## Slot variants and the clock -/

/-- VE2: a bubble shifts the pipeline and does not retire. -/
theorem test_empty_shifts :
    (after (exec .empty State.reset)).map (fun t => (t.slotE, t.slotD, t.slotF, t.pc, t.npc, t.retired)) =
      some (.empty, .empty, ins 0, 0, 4, 0) := by decide

/-- VE1: `[I0 | I4 | I8] 8/12` NORMAL gives `[I4 | I8 | I12] 12/16`, retired + 1. VE5: DELAY_SLOT with target 0x10. -/
theorem test_external_outcomes :
    (after (exec (.external 0 0) (answering flowing plain))).map
          (fun t => (t.slotE, t.slotD, t.slotF, t.pc, t.npc, t.retired)) =
        some (ins 4, ins 8, ins 12, 12, 16, 1) ∧
      (after (exec (.external 4 0)
          (answering (pipe (ins 4) (ins 8) (ins 12) 12 16)
            { plain with writes := ⟨[], [], [.const 0x10]⟩, code := 0x2 }))).map
          (fun t => (t.slotE, t.slotD, t.slotF, t.pc, t.npc, t.retired)) =
        some (ins 8, .empty, ins 0x10, 0x10, 0x14, 1) := ⟨by decide, by decide⟩

/-- VF3: ILLEGAL taken: x[17] = 0x44, ESR = 2, EAR kept, MSR = 0x200. -/
theorem test_illegal_taken :
    (after (exec (.illegal 0x40)
        { pipe (.illegal 0x40) (ins 4) (ins 8) 8 12 with msr := 0x100, ear := 0xDEADBEEF })).map
        (fun t => ((readGpr t 17, t.esr, t.ear, t.msr), (t.slotE, t.slotD, t.slotF), (t.pc, t.npc, t.retired))) =
      some ((0x44, 2, 0xDEADBEEF, 0x200), (.empty, .empty, ins 0x20), (0x20, 0x24, 0)) := by decide

/-- VF4: UNMAPPED_FETCH taken: x[17] = 0x1004, ESR = 3, EAR = 0x1000. -/
theorem test_unmapped_taken :
    (after (exec (.unmapped 0x1000)
        { pipe (.unmapped 0x1000) (ins 4) (ins 8) 8 12 with msr := 0x100, ear := 0xDEADBEEF })).map
        (fun t => (readGpr t 17, t.esr, t.ear, t.msr)) = some (0x1004, 3, 0x1000, 0x200) := by decide

/-- VE13: UNMAPPED_FETCH masked is as NORMAL. -/
theorem test_unmapped_masked :
    (after (exec (.unmapped 0x1000) (pipe (.unmapped 0x1000) (ins 4) (ins 8) 8 12))).map
        (fun t => (t.slotE, t.slotF, t.pc, t.esr, readGpr t 17, t.retired)) =
      some (ins 4, ins 12, 12, 0, 0, 1) := by decide

/-- VG4: the interrupt jump goes to 0x10. -/
theorem test_intjump :
    (after (exec (.intjump 4) (pipe (.intJump 4) (ins 8) (ins 12) 12 16))).map
        (fun t => (t.slotE, t.slotD, t.slotF, t.pc, t.npc, t.retired)) =
      some (.empty, .empty, ins 0x10, 0x10, 0x14, 1) := by decide

/-- VE9: STOP retires and returns STOPPED, nothing moves. -/
theorem test_programExit :
    (after (exec (.programExit (.external 16 0)) (pipe (.exit (.external 16 0)) (ins 20) (ins 24) 24 28))).map
        (fun t => (t.slotE, t.pc, t.retired, t.reply)) =
      some (.exit (.external 16 0), 24, 1, .status .stopped) := by decide

/-- VE8: BREAKPOINT changes nothing. -/
theorem test_breakpoint :
    after (exec (.breakpoint (.plain (.external 8 0))) (pipe (.bp (.plain (.external 8 0))) (ins 12) (ins 16) 16 20)) =
      some { pipe (.bp (.plain (.external 8 0))) (ins 12) (ins 16) 16 20 with reply := .status .breakpointHit } := by
  decide

/-- S9: the interrupt is taken after NORMAL: x[14] = 4, MSR = 0, `[IJ(4) | I8 | I12] 12/16`. -/
theorem test_cycle_takes_interrupt :
    (after (exec (.cycle true) { answering flowing plain with msr := 0x2 })).map
        (fun t => ((readGpr t 14, t.msr), (t.slotE, t.slotD, t.slotF), (t.pc, t.npc))) =
      some ((4, 0), (.intJump 4, ins 8, ins 12), (12, 16)) := by decide

/-- VG1, first cycle: a prefix in flight keeps the interrupt out. -/
theorem test_cycle_prefix_keeps_interrupt_out :
    (after (exec (.cycle true) { answering flowing { plain with isImmPrefix := true } with msr := 0x2 })).map
        (fun t => (t.slotE, t.immInFlight, t.msr)) = some (ins 4, true, 2) := by decide

/-! ## Bus requests -/

/-- VA13: a byte is always aligned; VB1: byte 3 of 11223344 is 44 (poll 2 under `LB_RLAT = 2`). -/
theorem test_busRb :
    (after (exec (.busRb 0x103) (pendingAt (storing 0x100 0x11223344) .localBus 1 ⟨.read, .byte, 0x103, 0⟩))).map
        (fun t => (t.acc, t.busResp)) = some (.idle, some (.ready 0x44)) := by decide

/-- VA5: a misaligned half-word read reports Unaligned on poll 1. -/
theorem test_busRh_unaligned :
    (after (exec (.busRh 0x101) State.reset)).map (fun t => (t.acc, t.busResp)) =
      some (.idle, some (.unaligned 0x101)) := by decide

/-- VB2: the low half of 11223344. -/
theorem test_busRh :
    (after (exec (.busRh 0x102) (pendingAt (storing 0x100 0x11223344) .localBus 1 ⟨.read, .half, 0x102, 0⟩))).map
        (fun t => t.busResp) = some (some (.ready 0x3344)) := by decide

/-- VA2, S7: poll 1 is Busy under `LB_RLAT = 2`; VA6: poll 4 of an unmapped access reports Unmapped. -/
theorem test_busRw :
    (after (exec (.busRw 0x100) State.reset)).map (fun t => (t.acc, t.busResp)) =
        some (.pending .localBus 1 readReq, some .busy) ∧
      (after (exec (.busRw 0x3000) (pendingAt State.reset .unmapped 3 ⟨.read, .word, 0x3000, 0⟩))).map
          (fun t => (t.acc, t.busResp)) = some (.idle, some (.unmapped 0x3000)) := by decide

/-- VB6: only v[7:0] is stored. -/
theorem test_busWb :
    (after (exec (.busWb 0x103 0x1FF) (storing 0x100 0x11223344))).map (fun t => (memRead t 0x100 .word, t.busResp)) =
      some (0x112233FF, some (.ready 0)) := by decide

/-- VB5's lane. -/
theorem test_busWh :
    (after (exec (.busWh 0x102 0xBEEF) (storing 0x100 0x11223344))).map (fun t => memRead t 0x100 .word) =
      some 0x1122BEEF := by decide

/-- VA7's effect, with the entry regenerated. -/
theorem test_busWw :
    (after (exec (.busWw 0x100 0x7) State.reset)).map (fun t => (memRead t 0x100 .word, entryAt t 0x100)) =
      some (0x7, .external 0x100 0x7) := by decide

/-- VA8: another request as the second poll is refused. -/
theorem test_busRw_other_request :
    refusal (exec (.busRw 0x104) (pendingAt State.reset .localBus 1 readReq)) = some .busProtocolViolation := by decide

/-- VA10: Put_d0 is called once. -/
theorem test_busWw_device :
    (after (exec (.busWw 0x2000 0x55) devices0)).map (fun t => (t.devCalls, t.acc)) =
      some ([.put 0x2000 0x55], .idle) := by decide

/-- R115's table: the codes at both ends, and the values of Ready, Busy and a fault. -/
theorem test_response_codes :
    ((BusResp.ready 5).bits, (BusResp.ready 5).value) = (0b00, 5) ∧ (BusResp.busy.bits, BusResp.busy.value) = (0b01, 0) ∧
      ((BusResp.unaligned 0x101).bits, (BusResp.unaligned 0x101).value) = (0b10, 0x101) ∧
      ((BusResp.unmapped 0x3000).bits, (BusResp.unmapped 0x3000).value) = (0b11, 0x3000) := by decide

/-! ## Host commands -/

/-- VH1: reset clears the registers and keeps storage and marks. -/
theorem test_reset :
    (after (exec .reset
        { pendingAt (storing 0x100 5) .localBus 1 readReq with
          msr := 0x302, retired := 77, breakMarks := [8], pc := 0x40, immInFlight := true })).map
        (fun t => ((t.msr, t.pc, t.retired), (t.acc, t.immInFlight), (memRead t 0x100 .word, t.breakMarks))) =
      some ((0, 0, 0), (.idle, false), (5, [8])) := by decide

/-- VC4, VC6: the PVR bank and the number above it. -/
theorem test_regGet :
    (after (exec (.regGet 39) State.reset)).map (fun t => t.reply) = some (.okWord 0x0000BBBB) ∧
      (after (exec (.regGet 40) State.reset)).map (fun t => t.reply) = some (.fail .badRegister) := by decide

/-- VC7: the pc write sets npc and leaves the slots. -/
theorem test_regSet_pc :
    (after (exec (.regSet 32 0x40) flowing)).map (fun t => (t.pc, t.npc, t.slotE, t.slotD, t.slotF)) =
      some (0x40, 0x44, ins 0, ins 4, ins 8) := by decide

/-- VC1, VC5: register 0 stores 0; a PVR register is read-only. -/
theorem test_regSet :
    (after (exec (.regSet 0 7) State.reset)).map (fun t => (readGpr t 0, t.x.get 0)) = some (0, 0) ∧
      (after (exec (.regSet 38 1) State.reset)).map (fun t => t.reply) = some (.fail .readOnly) := by decide

/-- VC8: the debug pc write refills the pipeline and abandons the access. -/
theorem test_dbgRegSet_pc :
    (after (exec (.dbgRegSet 32 0x100) { pendingAt flowing .localBus 1 readReq with immInFlight := true })).map
        (fun t => ((t.slotE, t.slotD, t.slotF), (t.pc, t.npc), (t.acc, t.immInFlight))) =
      some ((.empty, .empty, ins 0x100), (0x100, 0x104), (.idle, false)) := by decide

/-- VC10: any other number is as REG_SET. -/
theorem test_dbgRegSet_gpr :
    (after (exec (.dbgRegSet 3 9) flowing)).map (fun t => (readGpr t 3, t.slotE)) = some (9, ins 0) := by decide

/-- VB3, VB9. -/
theorem test_memGetW :
    (after (exec (.memGetW 0x100) (storing 0x100 0x11223344))).map (fun t => t.reply) = some (.okWord 0x11223344) ∧
      (after (exec (.memGetW 0x1000) State.reset)).map (fun t => t.reply) = some (.fail .badAddress) := by decide

/-- VB7, VB8. -/
theorem test_memGetH :
    (after (exec (.memGetH 0x104) (storing 0x104 0xFFEE0000))).map (fun t => t.reply) = some (.okWord 0xFFEE) ∧
      (after (exec (.memGetH 0x101) State.reset)).map (fun t => t.reply) = some (.fail .badAddress) := by decide

/-- VB1, VB10. -/
theorem test_memGetB :
    (after (exec (.memGetB 0x101) (storing 0x100 0x11223344))).map (fun t => t.reply) = some (.okWord 0x22) ∧
      (after (exec (.memGetB 0x2001) devices0)).map (fun t => t.reply) = some (.fail .badAddress) := by decide

/-- VD12: the breakpoint wrapper survives a store to its word. -/
theorem test_memSetW :
    (after (exec (.memSetW 0x8 0x04630002) { State.reset with breakMarks := [8] })).map (fun t => entryAt t 0x8) =
      some (.bp (.plain (.external 0x8 0x04630002))) := by decide

/-- VB5. -/
theorem test_memSetH :
    (after (exec (.memSetH 0x102 0xBEEF) (storing 0x100 0x11223344))).map (fun t => memRead t 0x100 .word) =
      some 0x1122BEEF := by decide

/-- VB4. -/
theorem test_memSetB :
    (after (exec (.memSetB 0x101 0xAA) (storing 0x100 0x11223344))).map (fun t => memRead t 0x100 .word) =
      some 0x11AA3344 := by decide

/-- VD7: the copy in slot.D is wrapped with the entry. -/
theorem test_bpInsert :
    (after (exec (.bpInsert 0x8) (pipe (ins 4) (ins 8) (ins 12) 12 16))).map (fun t => (t.slotD, t.slotE, entryAt t 8)) =
      some (.bp (.plain (.external 8 0)), ins 4, .bp (.plain (.external 8 0))) := by decide

/-- VD2, VD5. -/
theorem test_bpInsert_rejected :
    (after (exec (.bpInsert 0x8) { State.reset with breakMarks := [8] })).map (fun t => t.reply) =
        some (.fail .alreadySet) ∧
      (after (exec (.bpInsert 0x6) State.reset)).map (fun t => t.reply) = some (.fail .badAddress) := by decide

/-- VD9: the copy in slot.E is unwrapped. -/
theorem test_bpRemove :
    (after (exec (.bpRemove 0x8)
        { pipe (.bp (.plain (.external 8 0))) (ins 12) (ins 16) 16 20 with breakMarks := [8] })).map
        (fun t => (t.slotE, t.breakMarks)) = some (ins 8, []) := by decide

/-- VD4. -/
theorem test_bpRemove_rejected :
    (after (exec (.bpRemove 0x8) State.reset)).map (fun t => t.reply) = some (.fail .notSet) := by decide

/-- VD10: the exit mark stands inside the breakpoint. -/
theorem test_exitMark :
    (after (exec (.exitMark 0x8) { State.reset with breakMarks := [8] })).map (fun t => entryAt t 8) =
      some (.bp (.exit (.external 8 0))) := by decide

/-- VD11. -/
theorem test_exitMark_rejected :
    (after (exec (.exitMark 0x8) { State.reset with exitMarks := [8] })).map (fun t => t.reply) =
      some (.fail .alreadySet) := by decide

/-- VD15, VD16. -/
theorem test_slotGet :
    (after (exec (.slotGet 0) (pipe .empty .empty (.bp (.exit (.illegal 0x40))) 0 4))).map (fun t => t.reply) =
        some (.okSlot 0xE10000004000000000) ∧
      (after (exec (.slotGet 3) State.reset)).map (fun t => t.reply) = some (.fail .badSlot) := by decide

/-- VD17. -/
theorem test_retiredGet :
    (after (exec .retiredGet { State.reset with retired := 5 })).map (fun t => t.reply) = some (.okCount 5) := by decide

/-! ## Steps -/

/-- A waiting command runs; a reserved one answers BadCommand (VD18). -/
theorem test_step_commands :
    (after (step (State.reset.withFetchWord 72 (0x10 + 33 * 2 ^ 8)))).map (fun t => (t.reply, t.port)) =
        some (.okWord 0, []) ∧
      (after (step { State.reset with port := [⟨0x03, 0, 0⟩] })).map (fun t => (t.reply, t.port)) =
        some (.fail .badCommand, []) := by decide

/-- A slot variant placed where the step takes its next one is stepped. -/
theorem test_step_slot :
    (after (step (State.reset.withFetchWord 72 (0xA0 + 0x10 * 2 ^ 8)))).map (fun t => (t.reply, t.retired)) =
      some (.status .stopped, 1) := by decide

/-- A bus request placed where the step takes its next one is the poll of slot.E: BUS_WW completes on poll 1 under
`LB_WLAT = 1` and the instruction retires; BUS_RW is Busy on poll 1 under `LB_RLAT = 2` and slot.E is held (R83, R177). -/
theorem test_step_bus :
    (after (step (State.reset.withFetchWord 8 0x06))).map (fun t => (t.busResp, t.acc, t.retired)) =
        some (some (.ready 0), .idle, 1) ∧
      (after (step (State.reset.withFetchWord 3 0b010))).map (fun t => (t.busResp, t.slotE, t.retired)) =
        some (some .busy, .external 0 0, 0) := by decide

/-- An ill-formed configuration has no step (R9). -/
theorem test_step_ill_formed :
    refusal (step { State.reset with cfg := { Config.cfg0 with numGpr := 16 } }) = some .illFormedConfiguration := by
  decide

/-! ## Witnesses: states and operands that meet the hypotheses of each statement, at the boundary of each clause -/

/-- A bubble's step, a command's, the poll of an External instruction (ready and refused), and the ill-formed one. -/
theorem test_witness_StepRunsTheDecodedInstruction :
    (State.reset.cfg.wf = true ∧ State.reset.port = []) ∧
      (∃ s : State, ∃ r rest i, s.cfg.wf = true ∧ s.port = r :: rest ∧ decodeRequest r = .ok i) ∧
      (withinR144 loading ∧ decodeBus ⟨(pollOf readReq).req.setWidth 8, (pollOf readReq).addr, (pollOf readReq).wdata⟩ =
          .ok (.busRw 0x100) ∧ requestOf (.busRw 0x100) = some readReq ∧
        (∃ t, exec (.busRw 0x100) { answering flowing loading with execQ := [] } = .next t) ∧
        exec (.busRw 0x100)
            { answering (pendingAt flowing .localBus 1 ⟨.read, .word, 0x104, 0⟩) loading with execQ := [] } =
          .refused .busProtocolViolation) ∧
      ∃ s : State, s.cfg.wf = false :=
  ⟨by decide, ⟨{ State.reset with port := [⟨0x02, 0, 0⟩] }, ⟨0x02, 0, 0⟩, [], .reset, by decide, rfl, rfl⟩,
    ⟨⟨Nat.zero_le 1, Nat.zero_le 1, Nat.zero_le 1, Nat.zero_le 1, rfl⟩, by decide, rfl, ⟨_, rfl⟩, rfl⟩,
    ⟨{ State.reset with cfg := { Config.cfg0 with numGpr := 16 } }, by decide⟩⟩

theorem test_witness_EveryStepKeepsTheInvariant : ∃ s t : State, Inv s = true ∧ step s = .next t :=
  ⟨State.reset, _, by decide, rfl⟩

theorem test_witness_EveryStepKeepsFetchSlotAtPc :
    ∃ s t : State, fetchSlotAtPc s = true ∧ writesPcNormally s = false ∧ step s = .next t :=
  ⟨State.reset, _, by decide, by decide, rfl⟩

theorem test_witness_NoStepChangesTheConfiguration : ∃ s t : State, step s = .next t := ⟨State.reset, _, rfl⟩

/-- With an External instruction in slot.E and an access of its in flight. -/
theorem test_witness_FreeRunningBlockAlwaysSteps :
    ∃ s : State, s.cfg.wf = true ∧ Inv s = true ∧ s.port = [] ∧ s.execQ = [] ∧ s.slotE = ins 0 ∧ s.acc ≠ .idle :=
  ⟨pendingAt flowing .localBus 1 readReq, by decide⟩

theorem test_witness_SlotBitsHaveOneMeaning :
    (∃ r i, decodeSlot r = .ok i) ∧ ∃ v u : Slot, v.bits = u.bits := ⟨⟨⟨0x83, 0x4, 0⟩, _, rfl⟩, ins 0, ins 0, rfl⟩

/-- The last byte of LB, the byte past it, the ends of a device word and of PB. -/
theorem test_witness_RegionIsTheOneThatHoldsTheAddress :
    Config.cfg0.wf = true ∧ region Config.cfg0 0xFFF = .localBus ∧ region Config.cfg0 0x1000 = .none ∧
      devices0.cfg.wf = true ∧ region devices0.cfg 0x2003 = .device d0 ∧ region devices0.cfg 0x2004 = .none ∧
      peripheral0.cfg.wf = true ∧ region peripheral0.cfg 0x4FFF = .peripheralBus := by decide

/-- Alignment of the two wider reads, at the last half-word and word of LB. -/
theorem test_witness_ReadsAreBigEndianAndZeroExtended :
    aligned 0xFFE .half = true ∧ aligned 0xFFC .word = true ∧ aligned 0xFFE .word = false := by decide

theorem test_witness_DebugStoreIsReadBackAndTouchesOnlyItsBytes :
    Memory.wf State.reset.mem = true ∧ isStorage State.reset.cfg 0xFFC = true ∧ aligned 0xFFC .word = true ∧
      isStorage State.reset.cfg 0xFFF = true ∧ aligned 0xFFF .byte = true := by decide

/-- Every clause of the two debug accesses: misaligned, NONE, storage, a device word by word and by byte. -/
theorem test_witness_DebugAccessByRegion :
    aligned 0xFFD .half = false ∧ (aligned 0x1000 .word = true ∧ region State.reset.cfg 0x1000 = .none) ∧
      (aligned 0xFFF .byte = true ∧ region State.reset.cfg 0xFFF = .localBus) ∧
      (aligned 0x4FFE .half = true ∧ region peripheral0.cfg 0x4FFE = .peripheralBus) ∧
      (aligned 0x2000 .word = true ∧ region devices0.cfg 0x2000 = .device d0) ∧
      (aligned 0x2003 .byte = true ∧ region devices0.cfg 0x2003 = .device d0 ∧ (Size.byte = .word) = False) := by
  simp [d0]
  decide

/-- Fetchable, misaligned and outside LB. -/
theorem test_witness_FetchGivesEntryOrUnmapped :
    fetchable State.reset.cfg 0xFFC = true ∧ (0xFFE : Word).getLsbD 1 = true ∧
      isStorage State.reset.cfg 0x1000 = false := by decide

theorem test_witness_WordStoreIsWhatTheNextFetchDecodes :
    Memory.wf State.reset.mem = true ∧ (aligned 0xFFE .word = false ∨ region State.reset.cfg 0xFFE = .none) ∧
      (aligned 0x1000 .word = false ∨ region State.reset.cfg 0x1000 = .none) ∧
      (aligned 0x2000 .word = true ∧ region devices0.cfg 0x2000 = .device d0) ∧
      (aligned 0xFFC .word = true ∧ isStorage State.reset.cfg 0xFFC = true) := by decide

/-- Both clauses at latencies 1 (the store) and 4 (the unmapped read, with polls 1 to 3 Busy). -/
theorem test_witness_AccessIsBusyThenCompletesAtItsLatency :
    State.reset.cfg.wf = true ∧ State.reset.acc = .idle ∧ requestOf (.busWw 0x100 7) = some ⟨.write, .word, 0x100, 7⟩ ∧
      latency State.reset.cfg (classify State.reset.cfg ⟨.write, .word, 0x100, 7⟩) .write = 1 ∧
      requestOf (.busRw 0x3000) = some ⟨.read, .word, 0x3000, 0⟩ ∧
      3 < latency State.reset.cfg (classify State.reset.cfg ⟨.read, .word, 0x3000, 0⟩) .read := by decide

/-- The last poll of a read of the last byte of LB (poll 2) and of one of PB (poll 1, from Idle). -/
theorem test_witness_StorageReadIsReadyWithTheLane :
    (requestOf (.busRb 0xFFF) = some ⟨.read, .byte, 0xFFF, 0⟩ ∧
      nextPollIs (pendingAt State.reset .localBus 1 ⟨.read, .byte, 0xFFF, 0⟩) ⟨.read, .byte, 0xFFF, 0⟩ .localBus 2 ∧
      latency State.reset.cfg .localBus .read ≤ 2) ∧
      (requestOf (.busRh 0x4FFE) = some ⟨.read, .half, 0x4FFE, 0⟩ ∧
        nextPollIs peripheral0 ⟨.read, .half, 0x4FFE, 0⟩ .peripheralBus 1 ∧
        latency peripheral0.cfg .peripheralBus .read ≤ 1) :=
  ⟨⟨rfl, .inr ⟨1, rfl, rfl⟩, by decide⟩, rfl, .inl ⟨rfl, by decide, rfl⟩, by decide⟩

theorem test_witness_StorageWriteStoresItsLane :
    Memory.wf State.reset.mem = true ∧ aligned 0xFFE .half = true ∧
      requestOf (.busWh 0xFFE 7) = some ⟨.write, .half, 0xFFE, 7⟩ ∧
      nextPollIs State.reset ⟨.write, .half, 0xFFE, 7⟩ .localBus 1 ∧ latency State.reset.cfg .localBus .write ≤ 1 :=
  ⟨by decide, by decide, rfl, .inl ⟨rfl, by decide, rfl⟩, by decide⟩

theorem test_witness_DeviceIsCalledOnceOnTheLastPoll :
    (nextPollIs (pendingAt devices0 (.device d0) 2 ⟨.read, .word, 0x2000, 0⟩) ⟨.read, .word, 0x2000, 0⟩ (.device d0) 3 ∧
      d0.rlat ≤ 3) ∧
      (nextPollIs devices0 ⟨.write, .word, 0x2000, 0x55⟩ (.device d0) 1 ∧ d0.wlat ≤ 1) :=
  ⟨⟨.inr ⟨2, rfl, rfl⟩, by decide⟩, .inl ⟨rfl, by decide, rfl⟩, by decide⟩

/-- Misaligned and unmapped at once (VA12), no region (VA15), a byte of a device word (VA11), and the last polls. -/
theorem test_witness_FaultingPollTakesNoAction :
    (requestOf (.busRh 0x3001) = some ⟨.read, .half, 0x3001, 0⟩ ∧ aligned 0x3001 .half = false ∧
      nextPollIs State.reset ⟨.read, .half, 0x3001, 0⟩ .unaligned 1 ∧ latency State.reset.cfg .unaligned .read ≤ 1) ∧
      (aligned 0x1000 .word = true ∧ region State.reset.cfg 0x1000 = .none ∧
        nextPollIs (pendingAt State.reset .unmapped 3 ⟨.read, .word, 0x1000, 0⟩) ⟨.read, .word, 0x1000, 0⟩ .unmapped 4 ∧
        latency State.reset.cfg .unmapped .read ≤ 4) ∧
      (aligned 0x2001 .byte = true ∧ ∃ d, region devices0.cfg 0x2001 = .device d ∧ Size.byte ≠ .word) :=
  ⟨⟨rfl, by decide, .inl ⟨rfl, by decide, rfl⟩, by decide⟩,
    ⟨by decide, by decide, .inr ⟨3, rfl, rfl⟩, by decide⟩, by decide, d0, by decide, by decide⟩

/-- Another request by itself (VA8), the same by an External instruction, and both spellings of the reserved size. -/
theorem test_witness_PollsOutsideTheProtocolAreRefused :
    requestOf (.busRw 0x104) = some ⟨.read, .word, 0x104, 0⟩ ∧
      (pendingAt State.reset .localBus 1 readReq).acc = .pending .localBus 1 readReq ∧
      readReq ≠ ⟨.read, .word, 0x104, 0⟩ ∧
      (answering flowing loading).execQ = [loading] ∧ withinR144 loading ∧ loading.polls = [pollOf readReq] ∧
      pollReq (pollOf readReq) = some readReq ∧
      ∀ q ∈ [(0b011 : BitVec 3), 0b111], withinR144 { loading with polls := [⟨q, 0, 0⟩] } :=
  ⟨rfl, rfl, by decide, rfl, ⟨Nat.zero_le 1, Nat.zero_le 1, Nat.zero_le 1, Nat.zero_le 1, rfl⟩, rfl, by decide,
    fun _ _ => ⟨Nat.zero_le 1, Nat.zero_le 1, Nat.zero_le 1, Nat.zero_le 1, rfl⟩⟩

/-- Each of the four conditions that keep an interrupt out, the other three against it. -/
theorem test_witness_BubbleMakesTheOrdinaryShift :
    noInterrupt flowing.irq { flowing with msr := 2 } ∧ noInterrupt true flowing ∧
      noInterrupt true { flowing with msr := 2, immInFlight := true } ∧
      noInterrupt true { flowing with msr := 2, slotD := .empty } :=
  ⟨.inl rfl, .inr (.inl (by decide)), .inr (.inr (.inl rfl)), .inr (.inr (.inr rfl))⟩

theorem test_witness_InterruptEntryFromABubble :
    ∃ s : State, s.irq = true ∧ getFlag s.msr 1 = true ∧ s.immInFlight = false ∧ s.slotD ≠ .empty :=
  ⟨{ flowing with slotE := .empty, irq := true, msr := 2 }, by decide⟩

theorem test_witness_MarkerFaultEntersTheHandler : ∃ s : State, getFlag s.msr 8 = true :=
  ⟨{ flowing with msr := 0x100 }, by decide⟩

/-- EE alone clear, the interrupt away and pending; a masked fault of each code an Exec may report (VF6, VF9),
which clears imm_in_flight (R34). -/
theorem test_witness_MaskedFaultIsNormal :
    (∃ s : State, getFlag s.msr 8 = false ∧ noInterrupt s.irq s) ∧
      (∃ s : State, getFlag s.msr 8 = false ∧ ¬noInterrupt s.irq s) ∧
      ∀ c ∈ [(0x8 : BitVec 4), 0x9, 0xA, 0xC], noAccess flowing { plain with code := c } ∧
        { plain with code := c }.writes = noWrites ∧
        (after (exec (.external 0 0) { answering flowing { plain with code := c } with immInFlight := true })).map
          (fun t => (t.immInFlight, t.slotE, t.retired)) = some (false, ins 4, 1) :=
  ⟨⟨{ flowing with msr := 0xFFFFFEFF }, by decide, .inl rfl⟩,
    ⟨{ flowing with msr := 2, irq := true }, by decide, by simp [noInterrupt]; decide⟩,
    by
      intro c hc
      refine ⟨⟨not_pending rfl, rfl, Nat.zero_le 1, Nat.zero_le 1, Nat.zero_le 1, Nat.zero_le 1, rfl⟩, rfl, ?_⟩
      revert c
      decide⟩

/-- Register 0 (VC2) and the last one; no special register, the MSR and one of the PVR bank; with a WritePC and without
(VE12). -/
theorem test_witness_ExternalWritesItsRegisterAndAdvances :
    ∀ i ∈ [(0 : BitVec 5), 31], ∀ sp ∈ [none, some SpecialReg.msr, some (.pvr 0)], ∀ tgt ∈ [none, some (0x40 : Word)],
      ∃ s : State, ∃ ans rest, s.execQ = ans :: rest ∧ noAccess s ans ∧ ans.code = 0x0 ∧
        ans.writes = ⟨[(i, .const 5)], sp.toList.map fun r => (r, .const 2), tgt.toList.map .const⟩ := by
  intro i _ sp _ tgt _
  refine ⟨answering flowing { plain with writes := ⟨[(i, .const 5)], _, _⟩ }, _, [], rfl, ?_, rfl, rfl⟩
  exact ⟨not_pending rfl, rfl, by cases tgt <;> simp, Nat.zero_le 1, Nat.zero_le 1, Nat.zero_le 1, rfl⟩

/-- The two redirecting outcomes. -/
theorem test_witness_Redirects :
    ∀ c ∈ [(0x2 : BitVec 4), 0x3], ∃ s : State, ∃ ans rest, s.execQ = ans :: rest ∧ noAccess s ans ∧
      ans.writes = ⟨[], [], [.const 0xFFFFFFFC]⟩ ∧ ans.code = c := by
  intro c _
  exact ⟨answering flowing { plain with writes := ⟨[], [], [.const 0xFFFFFFFC]⟩, code := c }, _, [], rfl,
    ⟨not_pending rfl, rfl, Nat.le_refl 1, Nat.zero_le 1, Nat.zero_le 1, Nat.zero_le 1, rfl⟩, rfl, rfl⟩

/-- The clock after a delay slot, whatever its hypotheses ask. -/
theorem test_witness_DelaySlotRunsBeforeTheTarget :
    ∃ t u : State, exec (.cycle true) t = .next u ∧ t.slotD = .empty ∧ t.slotE = .empty ∧
      notIntJump flowing.slotD = true := ⟨{ State.reset with msr := 2 }, _, rfl, rfl, rfl, rfl⟩

/-- Poll 1 of latency 2, with decode occupied and with decode a bubble. -/
theorem test_witness_BusyAccessStallsThePipeline :
    (answering flowing loading).execQ = [loading] ∧ accessAnswer loading readReq [(4, .loaded)] ∧
      nextPollIs flowing readReq .localBus 1 ∧ 1 < latency flowing.cfg .localBus readReq.op ∧ flowing.slotD ≠ .empty ∧
      nextPollIs { flowing with slotD := .empty } readReq .localBus 1 :=
  ⟨rfl, ⟨rfl, by decide, rfl, ⟨rfl, rfl⟩, ⟨rfl, rfl⟩, ⟨rfl, rfl⟩, rfl, rfl⟩, .inl ⟨rfl, by decide, rfl⟩, by decide, by decide,
    .inl ⟨rfl, by decide, rfl⟩⟩

theorem test_witness_LoadWritesItsRegisterOnTheLastPoll :
    (answering flowing loading).execQ = [loading] ∧ accessAnswer loading readReq [(4, .loaded)] ∧
      nextPollIs (pendingAt flowing .localBus 1 readReq) readReq .localBus 2 ∧
      latency flowing.cfg .localBus .read ≤ 2 ∧ flowing.irq = false :=
  ⟨rfl, ⟨rfl, by decide, rfl, ⟨rfl, rfl⟩, ⟨rfl, rfl⟩, ⟨rfl, rfl⟩, rfl, rfl⟩, .inr ⟨1, rfl, rfl⟩, by decide, rfl⟩

theorem test_witness_StoreIsSeenByTheFetchOfItsClock :
    Memory.wf flowing.mem = true ∧ aligned 0xFFC .word = true ∧
      (answering flowing storingAnswer).execQ = [storingAnswer] ∧
      accessAnswer storingAnswer ⟨.write, .word, 0xFFC, 7⟩ [] ∧
      nextPollIs flowing ⟨.write, .word, 0xFFC, 7⟩ .localBus 1 ∧ latency flowing.cfg .localBus .write ≤ 1 ∧
      flowing.irq = false :=
  ⟨by decide, by decide, rfl, ⟨rfl, by decide, rfl, ⟨rfl, rfl⟩, ⟨rfl, rfl⟩, ⟨rfl, rfl⟩, rfl, rfl⟩,
    .inl ⟨rfl, by decide, rfl⟩, by decide, rfl⟩

/-- An answer that reads the word at `a`. -/
def reading (a : Word) : ExecAnswer := { plain with polls := [pollOf ⟨.read, .word, a, 0⟩] }

/-- What a step returns that writes register 3 and faults with this code, the info word 0x77. -/
def breaching (code : BitVec 4) : ExecReturn := ⟨code, 0x77, ⟨[(3, 5)], [], []⟩⟩

/-- A fault of each code with no access, and one over writes with its own access pending; over writes on Busy, on Unaligned
and on Unmapped; and after a Ready store. -/
theorem test_witness_ExternalFaultEntersTheHandler :
    (∀ c ∈ faultCodes, noAccess flowing { plain with code := c }) ∧
      { plain with writes := ⟨[(3, .const 5)], [], []⟩ }.writes ≠ noWrites ∧
      (∀ c ∈ faultCodes, (breaching c).code = c ∧ (breaching c).writes ≠ noWrites) ∧
      (withinR144 { loading with onBusy := breaching 0x8 } ∧ pollReq (pollOf readReq) = some readReq ∧
        nextPollIs flowing readReq .localBus 1 ∧ 1 < latency flowing.cfg .localBus readReq.op) ∧
      (withinR144 { reading 0x102 with onUnaligned := breaching 0x9 } ∧
        nextPollIs flowing ⟨.read, .word, 0x102, 0⟩ .unaligned 1 ∧ latency flowing.cfg .unaligned .read ≤ 1) ∧
      (withinR144 { reading 0x3000 with onUnmapped := breaching 0xA } ∧
        nextPollIs (pendingAt flowing .unmapped 3 ⟨.read, .word, 0x3000, 0⟩) ⟨.read, .word, 0x3000, 0⟩ .unmapped 4 ∧
        latency flowing.cfg .unmapped .read ≤ 4) ∧
      (nextPollIs flowing ⟨.write, .word, 0xFFC, 7⟩ .localBus 1 ∧ latency flowing.cfg .localBus .write ≤ 1 ∧
        ∃ v, complete .localBus ⟨.write, .word, 0xFFC, 7⟩ { flowing with acc := .idle } = (.ready 0, v)) ∧
      getFlag 0x100 8 = true ∧ getFlag 0xFFFFFEFF 8 = false :=
  ⟨fun _ _ => ⟨not_pending rfl, rfl, Nat.zero_le 1, Nat.zero_le 1, Nat.zero_le 1, Nat.zero_le 1, rfl⟩, by decide,
    fun _ _ => ⟨rfl, by simp [breaching, noWrites]⟩,
    ⟨⟨Nat.zero_le 1, Nat.zero_le 1, Nat.zero_le 1, Nat.zero_le 1, rfl⟩, by decide, .inl ⟨rfl, by decide, rfl⟩, by decide⟩,
    ⟨⟨Nat.zero_le 1, Nat.zero_le 1, Nat.zero_le 1, Nat.zero_le 1, rfl⟩, .inl ⟨rfl, by decide, rfl⟩, by decide⟩,
    ⟨⟨Nat.zero_le 1, Nat.zero_le 1, Nat.zero_le 1, Nat.zero_le 1, rfl⟩, .inr ⟨3, rfl, rfl⟩, by decide⟩,
    ⟨.inl ⟨rfl, by decide, rfl⟩, by decide, _, rfl⟩, by decide⟩

/-- R146's effect, by hand from R253: entry over the write, on Busy with DIVIDE_BY_ZERO (x[17] = 4, ESR = 5, the access left in
flight), on Unaligned with ILLEGAL (ESR = 2, EAR kept), on Unmapped with UNALIGNED (ESR = 1, EAR = the info word). -/
theorem test_fault_over_writes :
    (after (exec (.external 0 0) { answering flowing { loading with onBusy := breaching 0x8 } with msr := 0x100 })).map
          (fun t => ((readGpr t 3, readGpr t 17, t.esr), (t.pc, t.slotE), t.acc)) =
        some ((5, 4, 5), (0x20, .empty), .left .localBus 1 readReq) ∧
      (after (exec (.external 0 0)
          { answering flowing { reading 0x102 with onUnaligned := breaching 0xA } with msr := 0x100, ear := 9 })).map
          (fun t => ((readGpr t 3, t.esr, t.ear), t.acc)) = some ((5, 2, 9), .idle) ∧
      (after (exec (.external 0 0)
          { answering (pendingAt flowing .unmapped 3 ⟨.read, .word, 0x3000, 0⟩)
              { reading 0x3000 with onUnmapped := breaching 0x9 } with msr := 0x100 })).map
          (fun t => (readGpr t 3, t.esr, t.ear)) = some (5, 1, 0x77) := by decide

/-- VF2's access, a word at 0x102, reported on poll 1 and, under `UNALIGNED_POLL = 2`, on poll 2; a word outside every region,
on poll 4; faults enabled and masked. -/
theorem test_witness_FaultingAccessIsTakenWithItsAddress :
    accessAnswer (reading 0x102) ⟨.read, .word, 0x102, 0⟩ [] ∧ accessAnswer (reading 0x3000) ⟨.read, .word, 0x3000, 0⟩ [] ∧
      (nextPollIs flowing ⟨.read, .word, 0x102, 0⟩ .unaligned 1 ∧ latency flowing.cfg .unaligned .read ≤ 1) ∧
      (nextPollIs (pendingAt flowing .unaligned 1 ⟨.read, .word, 0x102, 0⟩) ⟨.read, .word, 0x102, 0⟩ .unaligned 2 ∧
        latency { Config.cfg0 with unalignedPoll := 2 } .unaligned .read = 2) ∧
      (nextPollIs (pendingAt flowing .unmapped 3 ⟨.read, .word, 0x3000, 0⟩) ⟨.read, .word, 0x3000, 0⟩ .unmapped 4 ∧
        latency flowing.cfg .unmapped .read ≤ 4) ∧
      getFlag 0x100 8 = true ∧ getFlag 0xFFFFFEFF 8 = false :=
  ⟨⟨rfl, by decide, rfl, ⟨rfl, rfl⟩, ⟨rfl, rfl⟩, ⟨rfl, rfl⟩, rfl, rfl⟩,
    ⟨rfl, by decide, rfl, ⟨rfl, rfl⟩, ⟨rfl, rfl⟩, ⟨rfl, rfl⟩, rfl, rfl⟩,
    ⟨.inl ⟨rfl, by decide, rfl⟩, by decide⟩, ⟨.inr ⟨1, rfl, rfl⟩, by decide⟩, ⟨.inr ⟨3, rfl, rfl⟩, by decide⟩, by decide⟩

/-- Each breach: by number of calls, by other state, by no poll, by outcome with no access, on Busy, Unaligned, Unmapped and
Ready; a marker's outcome among them (U4). -/
theorem test_witness_ListedContractBreachesAreRefused :
    (answering flowing plain).execQ = [plain] ∧ 2 ≤ [pollOf readReq, pollOf readReq].length ∧
      2 ≤ [ExecVal.loaded, .const 0].length ∧ 2 ≤ [(0 : Word), 4].length ∧
      { plain with touchesOther := true }.touchesOther = true ∧
      (plain.polls = [] ∧ (pendingAt flowing .localBus 1 readReq).acc = .pending .localBus 1 readReq ∧
        plain.writes = noWrites) ∧
      (0x1 ∈ forbiddenCodes ∧ 0x7 ∈ forbiddenCodes) ∧ ((0x3 : BitVec 4) ∈ [0x2, 0x3] ∧ plain.writes.redirects = []) ∧
      withinR144 { loading with code := 0x9, writes := noWrites } ∧
      pollReq (pollOf readReq) = some readReq ∧
      nextPollIs (pendingAt flowing .localBus 1 readReq) readReq .localBus 2 ∧
      latency flowing.cfg .localBus readReq.op ≤ 2 ∧ readReq.op = .read ∧
      (nextPollIs flowing readReq .localBus 1 ∧ 1 < latency flowing.cfg .localBus readReq.op ∧
        refusal (exec (.external 0 0) (answering flowing { loading with onBusy := ⟨0x6, 0, noWrites⟩ })) =
          some .execProtocolViolation) ∧
      refusal (exec (.external 0 0) (answering flowing { reading 0x102 with onUnaligned := ⟨0x7, 0, noWrites⟩ })) =
          some .execProtocolViolation ∧
      refusal (exec (.external 0 0)
          (answering (pendingAt flowing .unmapped 3 ⟨.read, .word, 0x3000, 0⟩)
            { reading 0x3000 with onUnmapped := ⟨0xB, 0, noWrites⟩ })) = some .execProtocolViolation :=
  ⟨rfl, by decide, by decide, by decide, rfl, ⟨rfl, rfl, rfl⟩, by decide, by decide,
    ⟨Nat.zero_le 1, Nat.zero_le 1, Nat.zero_le 1, Nat.zero_le 1, rfl⟩, by decide, .inr ⟨1, rfl, rfl⟩, by decide, rfl,
    ⟨.inl ⟨rfl, by decide, rfl⟩, by decide, by decide⟩, by decide, by decide⟩

/-- A step with no poll, and one whose poll stores in LB. -/
theorem test_witness_ExternalKeepsToItsState :
    (∃ s t : State, exec (.external 0 0) s = .next t ∧ (drawAnswer 0 0 s).1.polls = []) ∧
      ∃ s t : State, exec (.external 0 0) s = .next t ∧ Inv s = true ∧
        (drawAnswer 0 0 s).1.polls = [pollOf ⟨.write, .word, 0xFFC, 7⟩] ∧
        pollReq (pollOf ⟨.write, .word, 0xFFC, 7⟩) = some ⟨.write, .word, 0xFFC, 7⟩ :=
  ⟨⟨answering flowing plain, _, rfl, rfl⟩, answering flowing storingAnswer, _, rfl, by decide, rfl, by decide⟩

theorem test_witness_CycleOnABubbleShifts :
    State.reset.slotE = .empty ∧ noInterrupt true State.reset := ⟨rfl, .inr (.inl (by decide))⟩

/-- S9's clock puts the jump into slot.E, so does one whose Exec enables the interrupt itself (table G, last row), and so does a
bubble's. -/
theorem test_witness_InterruptOnlyInItsWindow :
    notIntJump flowing.slotD = true ∧
      (∃ t, exec (.cycle true) { answering flowing plain with msr := 2 } = .next t ∧ t.slotE = .intJump 4 ∧
        plain.writes.specials = [] ∧ plain.onBusy.writes.specials = [] ∧
        plain.onUnaligned.writes.specials = [] ∧ plain.onUnmapped.writes.specials = []) ∧
      (∃ t, exec (.cycle true) (answering flowing { plain with writes := ⟨[], [(.msr, .const 2)], []⟩ }) = .next t ∧
        t.slotE = .intJump 4) ∧
      ∃ t, exec (.cycle true) { flowing with slotE := .empty, msr := 2 } = .next t ∧ t.slotE = .intJump 4 :=
  ⟨rfl, ⟨_, rfl, rfl, rfl, rfl, rfl, rfl⟩, ⟨_, rfl, rfl⟩, _, rfl, rfl⟩

/-- A clock of each kind of variant: bubble, breakpoint, interrupt jump, exit, the two markers taken and masked, External. -/
theorem test_witness_RetiredCountsByOutcome :
    ∀ v ∈ [Slot.empty, .bp (.plain (.external 0 0)), .intJump 0, .exit (.external 0 0), .illegal 0, .unmapped 1, ins 0],
      ∀ m ∈ [(0 : Word), 0x100], ∃ t, exec (.cycle false) { answering flowing plain with slotE := v, msr := m } = .next t := by
  intro v hv m _
  simp only [List.mem_cons, List.not_mem_nil, or_false] at hv
  rcases hv with rfl | rfl | rfl | rfl | rfl | rfl | rfl <;> exact ⟨_, rfl⟩

/-- A taken fault and an interrupt, neither from an External instruction. -/
theorem test_witness_ControllerWritesOnlyItsStatusBits :
    (∃ t, exec (.cycle false) { flowing with slotE := .illegal 0, msr := 0x100 } = .next t) ∧
      (∃ t, exec (.cycle true) { flowing with slotE := .empty, msr := 2 } = .next t) ∧
      ∀ a w, ({ flowing with slotE := .empty } : State).slotE ≠ .external a w := ⟨⟨_, rfl⟩, ⟨_, rfl⟩, by simp⟩

theorem test_witness_HandlerIsSteppedThreeClocksAfterTheFault :
    ∃ s : State, getFlag s.msr 8 = true ∧ s.slotE = .unmapped 0x1000 :=
  ⟨{ flowing with slotE := .unmapped 0x1000, msr := 0x100 }, by decide⟩

/-- The ends of each range of register numbers under CFG0's two PVR registers. -/
theorem test_witness_RegNumbers :
    (31 : Word).toNat < 32 ∧ State.reset.cfg.pvr[1]? = some 0x0000BBBB ∧ (39 : Word).toNat = 38 + 1 ∧
      38 ≤ (38 : Word).toNat ∧ (39 : Word).toNat < 38 + State.reset.cfg.pvr.length ∧
      38 + State.reset.cfg.pvr.length ≤ (40 : Word).toNat := by decide

/-- Each clause of the four commands on marks: unfetchable (misaligned; past LB), marked, unmarked, at the last word of LB. -/
theorem test_witness_Marks :
    fetchable State.reset.cfg 0xFFE = false ∧ fetchable State.reset.cfg 0x1000 = false ∧
      (fetchable State.reset.cfg 0xFFC = true ∧ (0xFFC : Word).toNat ∈ [0xFFC]) ∧
      (Inv State.reset = true ∧ fetchable State.reset.cfg 0xFFC = true ∧
        (0xFFC : Word).toNat ∉ State.reset.breakMarks ∧ (0xFFC : Word).toNat ∉ State.reset.exitMarks) := by decide

theorem test_witness_SlotGetReturnsTheEncoding : 2 < (3 : Word).toNat := by decide

theorem test_witness_ReservedCommandFailsAndChangesNothing :
    ∃ s : State, ∃ r rest, s.cfg.wf = true ∧ s.port = r :: rest ∧ r.code ∉ commandCodes :=
  ⟨{ State.reset with port := [⟨0x42, 0, 0⟩] }, ⟨0x42, 0, 0⟩, [], by decide, rfl, by decide⟩

/-- A read-only register, an empty mark, a bad slot. -/
theorem test_witness_FailingCommandChangesNothing :
    (Instr.regSet 38 1).port = .host ∧ (∃ t, exec (.regSet 38 1) State.reset = .next t ∧ t.reply = .fail .readOnly) ∧
      (∃ t, exec (.bpRemove 8) State.reset = .next t ∧ t.reply = .fail .notSet) ∧
      ∃ t, exec (.slotGet 3) State.reset = .next t ∧ t.reply = .fail .badSlot :=
  ⟨rfl, ⟨_, rfl, rfl⟩, ⟨_, rfl, rfl⟩, _, rfl, rfl⟩

theorem test_witness_CommandsAlwaysAnswerAndKeepRetired :
    Instr.reset.port = .host ∧ Instr.retiredGet.port = .host ∧ (∀ irq, Instr.retiredGet ≠ .cycle irq) ∧
      Instr.retiredGet ≠ .reset := ⟨rfl, rfl, by simp, by simp⟩

end Sys2Proof.Tests
end

section
/-!
PROOFS. What a step runs, and a store on its last poll: a bus request is the poll that the External instruction in slot.E
makes, an answer that makes one access is kept, and a Ready response completes it with NORMAL.
-/

namespace Sys2Proof.Machine

open Sys2Proof.Claims

/-! ## A bus request and the poll of an External instruction -/

/-- A bus instruction makes the request of its fields (R116). -/
@[simp] theorem requestOf_busInstr (op : AccessOp) (size : Size) (addr wdata : Word) :
    requestOf (busInstr op size addr wdata) = some (mkReq op size addr wdata) := by
  cases op <;> cases size <;> rfl

/-- The meaning of a bus request is one poll of the request it makes (R75). -/
theorem exec_of_requestOf {i : Instr} {r : BusReq} (h : requestOf i = some r) (s : State) :
    exec i s = pollRequest r s := by
  cases i <;> simp only [requestOf, reduceCtorEq, Option.some.injEq] at h <;> subst h <;> rfl

/-- A poll whose bits decode to a bus request carries the request of that instruction (R116). -/
theorem pollReq_of_decodeBus {p : RawPoll} {i : Instr} {r : BusReq}
    (hd : decodeBus ⟨p.req.setWidth 8, p.addr, p.wdata⟩ = .ok i) (hr : requestOf i = some r) : pollReq p = some r := by
  have hreq : (p.req.setWidth 8).extractLsb' 0 3 = p.req := by
    ext k hk
    have hk8 : k < 8 := by omega
    simp [hk8, BitVec.getLsbD_eq_getElem hk]
  unfold decodeBus at hd
  simp only [hreq] at hd
  split at hd
  · cases hd
  · split at hd
    · rename_i op size hop
      cases hd
      rw [requestOf_busInstr] at hr
      rw [pollReq, hop, ← hr]
      rfl
    · cases hd

/-- A poll leaves its response on the response port (R115). -/
theorem busResp_pollAndRecord {r : BusReq} {s t : State} {resp : BusResp} (h : pollAndRecord r s = .ok (resp, t)) :
    t.busResp = some resp := by
  unfold pollAndRecord at h
  split at h
  · cases h
    rfl
  · cases h

/-- A poll alone answers the state the poll leaves. -/
theorem pollRequest_eq_next_iff {r : BusReq} {s t : State} :
    pollRequest r s = .next t ↔ ∃ resp, pollAndRecord r s = .ok (resp, t) := by
  unfold pollRequest
  split <;> simp [*]

/-- A poll alone is refused for the reason the poll is. -/
theorem pollRequest_eq_refused_iff {r : BusReq} {s : State} {e : Refusal} :
    pollRequest r s = .refused e ↔ pollAndRecord r s = .error e := by
  unfold pollRequest
  split <;> simp [*]

/-- The poll of an External instruction is refused for the reason the bus request is (R77, R83). -/
theorem stepExternal_poll_error {a w : Word} {s : State} {ans : ExecAnswer} {rest : List ExecAnswer} {p : RawPoll}
    {r : BusReq} {e : Refusal} (hq : s.execQ = ans :: rest) (hk : keepsToItsState ans = true) (hp : ans.polls = [p])
    (hr : pollReq p = some r) (hb : pollAndRecord r { s with execQ := rest } = .error e) :
    stepExternal a w s = .error e := by
  have hon : pollsOn s.acc ans = true := by
    cases hacc : s.acc <;> simp [pollsOn, hp]
  simp only [stepExternal_of_queue hq, runAnswer, runPoll, hk, hon, Bool.and_self, if_true, hp, hr, hb]

/-! ## Answers within the contract -/

/-- One poll at most and the state of R144 make an answer that keeps to its state (R144, U5). -/
theorem keepsToItsState_of_withinR144 {ans : ExecAnswer} (h : withinR144 ans) (hp : ans.polls.length ≤ 1) :
    keepsToItsState ans = true := by
  obtain ⟨hw, hb, hu, hm, ht⟩ := h
  simp [keepsToItsState, hp, hw, hb, hu, hm, ht]

/-- An answer that makes one access keeps to its state. -/
theorem keepsToItsState_of_accessAnswer {ans : ExecAnswer} {r : BusReq} {ws : List (BitVec 5 × ExecVal)}
    (h : accessAnswer ans r ws) : keepsToItsState ans = true := by
  obtain ⟨hp, -, hw, ⟨-, hb⟩, ⟨-, hu⟩, ⟨-, hm⟩, ht, -⟩ := h
  exact keepsToItsState_of_withinR144 (by simp [withinR144, hw, hb, hu, hm, ht, noWrites]) (by simp [hp])

/-- The clock of an External instruction (R156, R171). -/
theorem exec_external (a w : Word) (s : State) :
    exec (.external a w) s = finishCycle s.irq (stepExternal a w s) := rfl

/-- An answer that makes one access and finds it Ready writes its registers and returns NORMAL (R147). -/
theorem finishExec_of_accessAnswer {ans : ExecAnswer} {r : BusReq} {ws : List (BitVec 5 × ExecVal)}
    (h : accessAnswer ans r ws) (d : Word) (u : State) :
    finishExec (some (r, d)) ans u =
      .ok (.normal, ans.info,
        { applyWrites (resolveWrites d ⟨ws, [], []⟩) u with immInFlight := ans.isImmPrefix }) := by
  obtain ⟨-, -, hw, -, -, -, -, hc⟩ := h
  have hoc : decodeOutcome ans.code = some .normal := by rw [hc]; rfl
  simp [finishExec, hoc, mayReturn, completes, execWrites, immAfter, deliveredWord, hw]

/-- The clock of an access that is Ready: the poll, the registers it writes, and NORMAL (R147, R175). -/
theorem exec_external_of_ready {a w d : Word} {s u : State} {ans : ExecAnswer} {rest : List ExecAnswer} {r : BusReq}
    {ws : List (BitVec 5 × ExecVal)} (hq : s.execQ = ans :: rest) (ha : accessAnswer ans r ws)
    (hb : pollAndRecord r { s with execQ := rest } = .ok (.ready d, u)) :
    exec (.external a w) s =
      .next (answer (.status .normal) (normalCycle s.irq
        { applyWrites (resolveWrites d ⟨ws, [], []⟩) u with immInFlight := ans.isImmPrefix })) := by
  have ⟨hp, hr, _⟩ := ha
  rw [exec_external, stepExternal_poll hq (keepsToItsState_of_accessAnswer ha) hp hr hb, afterPoll,
    finishExec_of_accessAnswer ha]
  rfl

/-- The last poll of an access completes it and records the response (R75, R80). -/
theorem pollAndRecord_last {r : BusReq} {s : State} {cls : AccessClass} {n : Nat} (h : nextPollIs s r cls n)
    (hl : latency s.cfg cls r.op ≤ n) :
    pollAndRecord r s =
      .ok ((complete cls r { s with acc := .idle }).1,
        { (complete cls r { s with acc := .idle }).2 with
          busResp := some (complete cls r { s with acc := .idle }).1 }) := by
  simp only [pollAndRecord, busAccess_of_next h, pollAt_last hl]

/-- The last poll of a store to LB or PB writes its lane and answers Ready (R80). -/
theorem pollAndRecord_store {size : Size} {addr v : Word} {s : State} {cls : AccessClass} {n : Nat}
    (h : nextPollIs s ⟨.write, size, addr, v⟩ cls n) (hl : latency s.cfg cls .write ≤ n)
    (hc : cls = .localBus ∨ cls = .peripheralBus) :
    pollAndRecord ⟨.write, size, addr, v⟩ s =
      .ok (.ready 0,
        { s with mem := (memWrite s addr size v).mem, acc := .idle, busResp := some (.ready 0) }) := by
  rw [pollAndRecord_last h hl, complete_write _ rfl hc]
  rfl

/-- NORMAL with no interrupt taken is the ordinary shift (R175, R259). -/
theorem normalCycle_of_noInterrupt {irq : Bool} {s : State} (h : noInterrupt irq s) :
    normalCycle irq s = advance (retire s) := by
  have hc : interruptCondition irq (retire s) = false := (interruptCondition_eq_false_iff irq (retire s)).2 h
  simp [normalCycle, interruptOrAdvance, hc]

/-! ## The obligations -/

/-- Settles O37: on its last poll the store is `memWrite`, and the shift of NORMAL fetches from the state that has it. -/
theorem storeIsSeenByTheFetchOfItsClock : Obligations.StoreIsSeenByTheFetchOfItsClock := by
  unfold Obligations.StoreIsSeenByTheFetchOfItsClock
  intro s a w addr v size ans rest cls n hm hal hq ha hn hl hc hirq
  have hclock := exec_external_of_ready (a := a) (w := w) hq ha
    (pollAndRecord_store (s := { s with execQ := rest }) hn hl hc)
  rw [normalCycle_of_noInterrupt (.inl hirq)] at hclock
  refine ⟨_, hclock, rfl, ?_, ?_⟩
  · exact memRead_memWrite hm hal v
  · exact fun b => readByte_memWrite_outside hm hal v

/-- Settles O1: each clause is `step` on the head of its port, and the poll of the External instruction is `exec` of the
bus request it decodes to. -/
theorem stepRunsTheDecodedInstruction : Obligations.StepRunsTheDecodedInstruction := by
  unfold Obligations.StepRunsTheDecodedInstruction
  refine fun s => ⟨fun hc => ⟨step_free hc, fun r rest i => step_request hc, ?_⟩, step_ill_formed⟩
  intro a w ans rest p i r hport hE hq hp hin hd hr
  have hk := keepsToItsState_of_withinR144 hin (by simp [hp])
  have hpr := pollReq_of_decodeBus hd hr
  have hstep : step s = onNext sampleInput (finishCycle s.irq (stepExternal a w s)) := by
    rw [step_free hc hport, hE, Slot.toInstr, exec_external]
  rw [hstep, exec_of_requestOf hr]
  constructor
  · intro t ht
    obtain ⟨resp, hb⟩ := pollRequest_eq_next_iff.1 ht
    exact ⟨resp, busResp_pollAndRecord hb, by rw [stepExternal_poll hq hk hp hpr hb]⟩
  · intro e he
    rw [stepExternal_poll_error hq hk hp hpr (pollRequest_eq_refused_iff.1 he)]
    rfl

end Sys2Proof.Machine
end

section
/-!
PROOFS. What one step does, said once (`Ran`), and the invariants that are read off it: the configuration never changes, and
the whole-machine invariant is kept.
-/

namespace Sys2Proof.Machine

/-! ## Everything a step does -/

/-- What a step makes of the state, but for the request it takes off the host port and the interrupt level it draws: a clock of
the instruction in slot.E, or what a host command does (42_host_debug.md). -/
inductive Ran (s : State) : State → Prop where
  | clocked (irq : Bool) {t : State} (h : finishCycle irq (stepSlot s.slotE s) = .next t) : Ran s t
  | replied (r : Reply) : Ran s (answer r s)
  | reset : Ran s (answer .ok (resetBlock s))
  | regSet (r : RegSel) (v : Word) : Ran s (setReg r v s)
  | pcRefill (v : Word) : Ran s (answer .ok (debugWritePC v s))
  | memGet (a : Word) (size : Size) : Ran s (dbgRead a size s)
  | memSet (a : Word) (size : Size) (v : Word) : Ran s (dbgWrite a size v s)
  | breakInserted (a : Word) (hf : fetchable s.cfg a = true) :
      Ran s (answer .ok (mapSlots (wrapBreak a) { s with breakMarks := addMark s.breakMarks a.toNat }))
  | breakRemoved (a : Word) (ha : a.toNat ∈ s.breakMarks) :
      Ran s (answer .ok (mapSlots (unwrapBreak a) { s with breakMarks := dropMark s.breakMarks a.toNat }))
  | exitMarked (a : Word) (hf : fetchable s.cfg a = true) :
      Ran s (answer .ok (mapSlots (wrapExit a) { s with exitMarks := addMark s.exitMarks a.toNat }))

theorem ran_execRegGet {n : Word} {s t : State} (h : execRegGet n s = .next t) : Ran s t := by
  unfold execRegGet at h
  split at h <;> cases h
  · exact .replied _
  · exact .replied _

theorem ran_execDbgRegSet {n v : Word} {s t : State} (h : execDbgRegSet n v s = .next t) : Ran s t := by
  unfold execDbgRegSet at h
  split at h <;> cases h
  · exact .pcRefill v
  · exact .regSet _ v

theorem ran_execBpInsert {a : Word} {s t : State} (h : execBpInsert a s = .next t) : Ran s t := by
  by_cases hf : fetchable s.cfg a = true
  · by_cases ha : a.toNat ∈ s.breakMarks
    · rw [execBpInsert_marked hf ha] at h
      cases h
      exact .replied _
    · rw [execBpInsert_unmarked hf ha] at h
      cases h
      exact .breakInserted a hf
  · simp only [execBpInsert, hf, Bool.not_false, if_true] at h
    cases h
    exact .replied _

theorem ran_execBpRemove {a : Word} {s t : State} (h : execBpRemove a s = .next t) : Ran s t := by
  by_cases hf : fetchable s.cfg a = true
  · by_cases ha : a.toNat ∈ s.breakMarks
    · rw [execBpRemove_marked hf ha] at h
      cases h
      exact .breakRemoved a ha
    · rw [execBpRemove_unmarked hf ha] at h
      cases h
      exact .replied _
  · simp only [execBpRemove, hf, Bool.not_false, if_true] at h
    cases h
    exact .replied _

theorem ran_execExitMark {a : Word} {s t : State} (h : execExitMark a s = .next t) : Ran s t := by
  by_cases hf : fetchable s.cfg a = true
  · by_cases ha : a.toNat ∈ s.exitMarks
    · rw [(execExitMark_cases hf).1 ha] at h
      cases h
      exact .replied _
    · rw [(execExitMark_cases hf).2 ha] at h
      cases h
      exact .exitMarked a hf
  · simp only [execExitMark, hf, Bool.not_false, if_true] at h
    cases h
    exact .replied _

theorem ran_execSlotGet {sel : Word} {s t : State} (h : execSlotGet sel s = .next t) : Ran s t := by
  unfold execSlotGet at h
  split at h <;> cases h
  · exact .replied _
  · exact .replied _

/-- The meaning of the instruction in slot.E is the clock that steps it (R171). -/
theorem exec_toInstr (v : Slot) (s : State) : exec v.toInstr s = finishCycle s.irq (stepSlot v s) := by
  cases v <;> rfl

/-- The host port decodes to host commands alone (R118). -/
theorem port_of_decodeRequest {r : RawWord} {i : Instr} (h : decodeRequest r = .ok i) : i.port = .host := by
  simp only [decodeRequest, decode, decodeHost] at h
  split at h <;> cases h <;> rfl

/-- Every host command does one of the things listed. -/
theorem ran_exec_host {i : Instr} {s t : State} (hp : i.port = .host) (h : exec i s = .next t) : Ran s t := by
  cases i with
  | cycle irq => exact .clocked irq h
  | reset => cases h; exact .reset
  | regGet n => exact ran_execRegGet h
  | regSet n v => cases h; exact .regSet _ v
  | dbgRegSet n v => exact ran_execDbgRegSet h
  | memGetW a => cases h; exact .memGet a .word
  | memGetH a => cases h; exact .memGet a .half
  | memGetB a => cases h; exact .memGet a .byte
  | memSetW a v => cases h; exact .memSet a .word v
  | memSetH a v => cases h; exact .memSet a .half v
  | memSetB a v => cases h; exact .memSet a .byte v
  | bpInsert a => exact ran_execBpInsert h
  | bpRemove a => exact ran_execBpRemove h
  | exitMark a => exact ran_execExitMark h
  | slotGet sel => exact ran_execSlotGet h
  | retiredGet => cases h; exact .replied _
  | _ => cases hp

/-- Everything a step does: one of the things listed, on the requests still waiting, and perhaps the next input level. -/
theorem step_ran {s t : State} (h : step s = .next t) :
    s.cfg.wf = true ∧ ∃ port u, Ran { s with port := port } u ∧ (t = u ∨ t = sampleInput u) := by
  obtain ⟨hc, ⟨-, u, hu, ht⟩ | ⟨r, rest, i, -, hd, hi⟩ | ⟨r, rest, e, -, -, rfl⟩⟩ := step_next_cases h
  · rw [exec_toInstr] at hu
    exact ⟨hc, s.port, u, .clocked s.irq hu, .inr ht⟩
  · exact ⟨hc, rest, t, ran_exec_host (port_of_decodeRequest hd) hi, .inl rfl⟩
  · exact ⟨hc, rest, _, .replied _, .inl rfl⟩

/-! ## The configuration -/

/-- A clock that answers has stepped its instruction and made the transition of the outcome (R172). -/
theorem finishCycle_eq_next {irq : Bool} {r : StepResult} {t : State} (h : finishCycle irq r = .next t) :
    ∃ oc info u, r = .ok (oc, info, u) ∧ t = answer (.status (runStatus oc)) (transition irq oc info u) := by
  unfold finishCycle at h
  split at h <;> cases h
  exact ⟨_, _, _, rfl, rfl⟩

/-- No slot movement changes the configuration. -/
theorem moved_cfg {irq : Bool} {oc : OutcomeCode} {info : Word} {s t : State} (m : Moved irq oc info s t) :
    t.cfg = s.cfg := by
  cases m with
  | handler => rw [exceptionEntry_eq]
  | _ => rfl

theorem cfg_of_ran {s t : State} (h : Ran s t) : t.cfg = s.cfg := by
  cases h with
  | clocked irq h =>
    obtain ⟨oc, info, u, hu, rfl⟩ := finishCycle_eq_next h
    exact (moved_cfg (moved_transition irq oc info u)).trans (stepSlot_frame hu).1
  | regSet r v => cases r <;> rfl
  | memGet a size => rw [dbgRead_frame]
  | memSet a size v => rw [dbgWrite_frame]
  | _ => rfl

/-! ## The invariant -/

/-- Everything a step does keeps the invariant but for the owner of the access. -/
theorem invParts_of_ran {s t : State} (hc : s.cfg.wf = true) (h : InvParts s) (hr : Ran s t) : InvParts t := by
  cases hr with
  | clocked irq hf => exact inv_finishCycle hc h hf
  | replied r => exact inv_answer h r
  | reset => exact inv_answer (inv_resetBlock h) _
  | regSet r v => exact inv_setReg h r v
  | pcRefill v => exact inv_answer (inv_debugWritePC h v) _
  | memGet a size => exact inv_dbgRead h a size
  | memSet a size v => exact inv_dbgWrite hc h a size v
  | breakInserted a hf => exact inv_answer (inv_insertBreak h hf) _
  | breakRemoved a ha => exact inv_answer (inv_removeBreak h ha) _
  | exitMarked a hf => exact inv_answer (inv_markExit h hf) _

/-- Everything a step does leaves the access in flight with its instruction: a command that keeps the access keeps the kind of
instruction in slot.E (R83). -/
theorem accessOwned_of_ran {s t : State} (h : accessOwned s = true) (hr : Ran s t) : accessOwned t = true := by
  cases hr with
  | clocked irq hf => exact owned_finishCycle h hf
  | replied r => exact h
  | reset => rfl
  | regSet r v => cases r <;> exact h
  | pcRefill v => rfl
  | memGet a size => rw [dbgRead_frame]; exact h
  | memSet a size v => rw [dbgWrite_frame]; exact h
  | breakInserted a hf => exact owned_congr h rfl (heldByExternal_wrapBreak a s.slotE)
  | breakRemoved a ha => exact owned_congr h rfl (heldByExternal_unwrapBreak a s.slotE)
  | exitMarked a hf => exact owned_congr h rfl (heldByExternal_wrapExit a s.slotE)

theorem inv_of_ran {s t : State} (hc : s.cfg.wf = true) (h : Inv s = true) (hr : Ran s t) : Inv t = true := by
  obtain ⟨hp, ho⟩ := (inv_iff s).1 h
  exact (inv_iff t).2 ⟨invParts_of_ran hc hp hr, accessOwned_of_ran ho hr⟩

/-! ## The obligations -/

/-- Settles O4: the invariant reads neither the host port's queue nor the interrupt input, and everything else a step does
keeps it. -/
theorem everyStepKeepsTheInvariant : Obligations.EveryStepKeepsTheInvariant := by
  unfold Obligations.EveryStepKeepsTheInvariant
  intro s t h hs
  obtain ⟨hc, port, u, hr, ht⟩ := step_ran hs
  have hu : Inv u = true := inv_of_ran (s := { s with port := port }) hc h hr
  rcases ht with rfl | rfl <;> exact hu

/-- Settles O6: nothing a step does writes the configuration. -/
theorem noStepChangesTheConfiguration : Obligations.NoStepChangesTheConfiguration := by
  unfold Obligations.NoStepChangesTheConfiguration
  intro s t hs
  obtain ⟨-, port, u, hr, ht⟩ := step_ran hs
  have hu : u.cfg = s.cfg := cfg_of_ran (s := { s with port := port }) hr
  rcases ht with rfl | rfl <;> exact hu

end Sys2Proof.Machine
end

section
/-!
PROOFS. A clock by its variant and its outcome: what a marker's step leaves, which transitions retire, which status bits the
controller writes, and the External instruction that makes no access and goes on as NORMAL.
-/

namespace Sys2Proof.Machine

open Sys2Proof.Claims

/-! ## The retired counter -/

@[simp] theorem retired_interruptOrAdvance (irq : Bool) (s : State) : (interruptOrAdvance irq s).retired = s.retired := by
  unfold interruptOrAdvance
  split <;> rfl

@[simp] theorem retired_normalCycle (irq : Bool) (s : State) : (normalCycle irq s).retired = s.retired + 1 :=
  retired_interruptOrAdvance irq (retire s)

/-- A fault counts when it is masked, and not when it is taken (R253, R257, D11). -/
theorem retired_faultCycle (irq : Bool) (oc : OutcomeCode) (info : Word) (s : State) :
    (faultCycle irq oc info s).retired = if getFlag s.msr 8 = true then s.retired else s.retired + 1 := by
  unfold faultCycle faultEnabled msrEE
  split
  · rw [exceptionEntry_eq]
  · exact retired_normalCycle irq s

/-- What a transition adds to the retired counter, by its outcome (R36, R175 to R181). -/
theorem retired_transition (irq : Bool) (oc : OutcomeCode) (info : Word) (s : State) :
    (transition irq oc info s).retired =
      if oc = .memAccessInProgress ∨ oc = .empty ∨ oc = .breakpoint ∨
          (isFaultCode oc = true ∧ getFlag s.msr 8 = true) then s.retired
      else s.retired + 1 := by
  cases oc with
  | normal => exact retired_normalCycle irq s
  | empty => exact retired_interruptOrAdvance irq s
  | memAccessInProgress =>
    show (stallCycle s).retired = s.retired
    unfold stallCycle
    split <;> rfl
  | delaySlot | jumpTaken | breakpoint | stop => rfl
  | divideByZero | unaligned | illegal | unmappedFetch | unmappedData =>
    exact (retired_faultCycle irq _ info s).trans (by simp [isFaultCode, OutcomeCode.bits])

/-- The step of an External instruction returns no outcome of a marker (R145). -/
theorem stepExternal_outcome {a w : Word} {s t : State} {oc : OutcomeCode} {info : Word}
    (h : stepExternal a w s = .ok (oc, info, t)) : oc ≠ .empty ∧ oc ≠ .breakpoint ∧ oc ≠ .stop := by
  obtain ⟨u, -, ⟨-, -, he, hb, hs, -⟩ | ⟨p, r, resp, v, -, -, -, -, ⟨-, rfl, -⟩ | ⟨-, he, hb, hs, -⟩⟩⟩ :=
    stepExternal_cases h
  · exact ⟨he, hb, hs⟩
  · simp
  · exact ⟨he, hb, hs⟩

/-! ## Variants other than External -/

/-- The step of a variant other than External writes nothing but the redirect of the interrupt jump (R150 to R155). -/
theorem stepSlot_marker {v : Slot} {s t : State} {oc : OutcomeCode} {info : Word} (hv : ∀ a w, v ≠ .external a w)
    (h : stepSlot v s = .ok (oc, info, t)) : t = s ∨ t = writePC s.cfg.intVector s := by
  cases v with
  | external a w => exact absurd rfl (hv a w)
  | intJump a => cases h; exact .inr rfl
  | _ => cases h; exact .inl rfl

/-- A slot movement keeps BTR, FSR and every MSR bit but IE, EE and EIP (R28 to R31). -/
theorem moved_status {irq : Bool} {oc : OutcomeCode} {info : Word} {s t : State} (m : Moved irq oc info s t) :
    t.btr = s.btr ∧ t.fsr = s.fsr ∧ ∀ k, k ≠ 1 → k ≠ 8 → k ≠ 9 → t.msr.getLsbD k = s.msr.getLsbD k := by
  cases m with
  | interrupt n =>
    refine ⟨rfl, rfl, fun k h1 _ _ => ?_⟩
    rw [interruptEntry_eq]
    exact getLsbD_setFlag s.msr msrIE k false h1
  | handler =>
    rw [exceptionEntry_eq]
    refine ⟨rfl, rfl, fun k _ h8 h9 => ?_⟩
    exact (getLsbD_setFlag _ msrEE k false h8).trans (getLsbD_setFlag s.msr msrEIP k true h9)
  | _ => exact ⟨rfl, rfl, fun _ _ _ _ => rfl⟩

/-! ## NORMAL, and an External instruction that makes no access -/

/-- NORMAL with the interrupt taken is interrupt entry (R175, R259, R260). -/
theorem normalCycle_of_interrupt {irq : Bool} {s : State} (h : ¬noInterrupt irq s) :
    normalCycle irq s = interruptEntry (retire s) := by
  have hc : interruptCondition irq (retire s) = true := by
    rw [← Bool.not_eq_false]
    exact fun hf => h ((interruptCondition_eq_false_iff irq (retire s)).1 hf)
  simp [normalCycle, interruptOrAdvance, hc]

/-- What `goesOnAsNormal` asks is the transition NORMAL (R175). -/
theorem goesOnAsNormal_normalCycle (irq : Bool) (u : State) :
    goesOnAsNormal irq u (.next (answer (.status .normal) (normalCycle irq u))) := by
  constructor
  · intro h
    rw [normalCycle_of_noInterrupt h]
    rfl
  · intro h
    rw [normalCycle_of_interrupt h, interruptEntry_eq]
    rfl

/-- The clock of an External instruction that makes no access: its writes, and the transition of the outcome it may return
(R145, R172). -/
theorem exec_external_alone {a w : Word} {s : State} {ans : ExecAnswer} {rest : List ExecAnswer} {oc : OutcomeCode}
    (hq : s.execQ = ans :: rest) (hn : noAccess s ans) (hc : decodeOutcome ans.code = some oc)
    (hm : mayReturn none ans oc = true) :
    exec (.external a w) s =
      .next (answer (.status (runStatus oc))
        (transition s.irq oc ans.info (execWrites ans oc (resolveWrites 0 ans.writes) { s with execQ := rest }))) := by
  obtain ⟨hi, hp, hin⟩ := hn
  rw [exec_external, stepExternal_alone hq (keepsToItsState_of_withinR144 hin (by simp [hp])) hp hi]
  simp only [finishExec, hc, hm, if_true, deliveredWord, finishCycle]

/-- After NORMAL imm_in_flight says whether the instruction was the immediate kind (R148). -/
@[simp] theorem immAfter_normal (ans : ExecAnswer) : immAfter ans .normal = ans.isImmPrefix := by
  simp [immAfter]

/-- Writes of values Exec computed do not depend on the delivered word. -/
theorem resolveWrites_const (d : Word) (w : ExecWrites Word) :
    resolveWrites d ⟨w.gprs.map fun p => (p.1, .const p.2), w.specials.map fun p => (p.1, .const p.2),
      w.redirects.map .const⟩ = w := by
  simp [resolveWrites, Function.comp_def, execValue]

/-- One register, perhaps a special register and perhaps the pc written, as one update (R25, R31, R32, R144). -/
theorem applyWrites_single (s : State) (i : BitVec 5) (v x : Word) (sp : Option SpecialReg) (tgt : Option Word) :
    applyWrites ⟨[(i, v)], sp.toList.map fun r => (r, x), tgt.toList⟩ s =
      { s with
        x := (writeGpr s i v).x,
        msr := if sp = some .msr then x else s.msr, ear := if sp = some .ear then x else s.ear,
        esr := if sp = some .esr then x else s.esr, btr := if sp = some .btr then x else s.btr,
        fsr := if sp = some .fsr then x else s.fsr, pc := tgt.getD s.pc,
        npc := (tgt.map (· + 4)).getD s.npc } := by
  cases tgt <;> rcases sp with _ | _ | _ | _ | _ | _ | k <;> rfl

/-! ## The obligations -/

/-- Settles O32: the answer's writes are one update, and NORMAL goes on from them. -/
theorem externalWritesItsRegisterAndAdvances : Obligations.ExternalWritesItsRegisterAndAdvances := by
  unfold Obligations.ExternalWritesItsRegisterAndAdvances
  intro s a w v x i sp tgt ans rest hq hn hc hw
  have hclock := exec_external_alone (a := a) (w := w) (oc := .normal) hq hn (by rw [hc]; rfl) rfl
  have hwrites : resolveWrites 0 ans.writes = ⟨[(i, v)], sp.toList.map fun r => (r, x), tgt.toList⟩ := by
    rw [hw, ← resolveWrites_const 0 ⟨[(i, v)], sp.toList.map fun r => (r, x), tgt.toList⟩, List.map_map]
    rfl
  rw [execWrites, hwrites, applyWrites_single, immAfter_normal] at hclock
  refine ⟨_, ?_, ?_, hclock ▸ goesOnAsNormal_normalCycle s.irq _⟩
  · rfl
  · exact fun j => readGpr_writeGpr s i j v

/-- Settles O45: the counter after the step is the one before it, so the transition of the variant's outcome decides. -/
theorem retiredCountsByOutcome : Obligations.RetiredCountsByOutcome := by
  unfold Obligations.RetiredCountsByOutcome
  intro s t irq h
  obtain ⟨oc, info, u, hu, rfl⟩ := finishCycle_eq_next h
  obtain ⟨-, -, -, -, hkept, -⟩ := stepSlot_frame hu
  have hret := retired_transition irq oc info u
  rw [hkept] at hret
  cases hE : s.slotE with
  | external a w =>
    rw [hE] at hu
    refine ⟨oc, info, u, hu, ?_⟩
    obtain ⟨he, hb, -⟩ := stepExternal_outcome hu
    simpa [he, hb] using hret
  | empty | illegal a | unmapped a | intJump a | exit e | bp e =>
    rw [hE] at hu
    cases hu
    simpa [isFaultCode, OutcomeCode.bits] using hret

/-- Settles O46: only the transition touches the status registers, and it keeps those bits. -/
theorem controllerWritesOnlyItsStatusBits : Obligations.ControllerWritesOnlyItsStatusBits := by
  unfold Obligations.ControllerWritesOnlyItsStatusBits
  intro s t irq hv h
  obtain ⟨oc, info, u, hu, rfl⟩ := finishCycle_eq_next h
  have hm := moved_status (moved_transition irq oc info u)
  rcases stepSlot_marker hv hu with rfl | rfl
  · exact hm
  · exact hm

end Sys2Proof.Machine
end

section
/-!
PROOFS. The registers by number, and the construction state.
-/

namespace Sys2Proof.Machine

/-! ## Register numbers (R119, R211) -/

theorem selectReg_gpr {p : Nat} {n : Word} (h : n.toNat < 32) : selectReg p n = .gpr (n.extractLsb' 0 5) := by
  simp [selectReg, h]

/-- The numbers from 38 on are the PVR bank, up to its length. -/
theorem selectReg_bank {p : Nat} {n : Word} (h : 38 ≤ n.toNat) :
    selectReg p n = if n.toNat < 38 + p then .pvr (n.toNat - 38) else .invalid := by
  unfold selectReg
  repeat rw [if_neg (by omega)]

/-- A register number below 32 is 0 when its five bits are. -/
theorem extractLsb'_eq_zero_iff {n : Word} (h : n.toNat < 32) : n.extractLsb' 0 5 = 0 ↔ n = 0 := by
  have hb : (n.extractLsb' 0 5).toNat = n.toNat := by simpa using Nat.mod_eq_of_lt h
  rw [← BitVec.toNat_inj, ← BitVec.toNat_inj, hb]
  rfl

/-- REG_GET of a number that selects a register with a value (R212). -/
theorem exec_regGet {s : State} {n : Word} {r : RegSel} (hr : selectReg s.cfg.pvr.length n = r) {v : Word}
    (hv : readReg s r = some v) : exec (.regGet n) s = .next { s with reply := .okWord v } := by
  show execRegGet n s = _
  simp only [execRegGet, hr, hv]
  rfl

/-- REG_SET of a number writes the register it selects (R213). -/
theorem exec_regSet {s : State} {n v : Word} {r : RegSel} (hr : selectReg s.cfg.pvr.length n = r) :
    exec (.regSet n v) s = .next (setReg r v s) := by
  show execRegSet n v s = _
  rw [execRegSet, hr]

/-! ## The obligations -/

/-- Settles O49: each number selects its register, a PVR number inside the bank one of the bank. -/
theorem regGetReadsByNumber : Obligations.RegGetReadsByNumber := by
  unfold Obligations.RegGetReadsByNumber
  intro s n
  refine ⟨fun h => exec_regGet (selectReg_gpr h) rfl, ?_, ?_, ?_, ?_, ?_, ?_, fun k v hn hk => ?_, fun h => ?_⟩
  iterate 6
    rintro rfl
    exact exec_regGet rfl rfl
  · have hlt : k < s.cfg.pvr.length := (List.getElem?_eq_some_iff.1 hk).1
    have hr : selectReg s.cfg.pvr.length n = .pvr k := by
      rw [selectReg_bank (by omega), if_pos (by omega), hn, Nat.add_sub_cancel_left]
    exact exec_regGet hr hk
  · have hr : selectReg s.cfg.pvr.length n = .invalid := by
      rw [selectReg_bank (by omega), if_neg (by omega)]
    show execRegGet n s = _
    simp only [execRegGet, hr, readReg]
    rfl

/-- Settles O50: each number selects its register, and writing that one is the update. -/
theorem regSetWritesByNumber : Obligations.RegSetWritesByNumber := by
  unfold Obligations.RegSetWritesByNumber
  intro s n v
  refine ⟨fun h => ?_, ?_, ?_, ?_, ?_, ?_, ?_, fun h hlt => ?_, fun h => ?_⟩
  · have hread := fun j => readGpr_writeGpr s (n.extractLsb' 0 5) j v
    refine ⟨_, exec_regSet (selectReg_gpr h), rfl, ?_, fun j hj => (hread j).trans (if_neg hj)⟩
    refine (hread _).trans ?_
    simp only [if_true, extractLsb'_eq_zero_iff h]
  iterate 6
    rintro rfl
    exact exec_regSet rfl
  · exact exec_regSet ((selectReg_bank h).trans (if_pos hlt))
  · exact exec_regSet ((selectReg_bank (by omega)).trans (if_neg (by omega)))

/-- Settles O2: each field of the construction state is written out, and a vector of zeros reads 0. -/
theorem constructionStateHoldsResetValues : Obligations.ConstructionStateHoldsResetValues := by
  unfold Obligations.ConstructionStateHoldsResetValues
  refine ⟨fun i => ?_, rfl, rfl, rfl, rfl, rfl, rfl, rfl, rfl, rfl, rfl, rfl, rfl, rfl, fun _ => rfl, rfl, rfl⟩
  have hx : (Vector.replicate 32 (0 : Word)).get i.toFin = 0 := by simp [Vector.get_eq_getElem]
  exact (congrArg (fun x => if i = 0 then 0 else x) hx).trans (ite_self 0)

/-- Settles O3: with storage, marks and slots empty and no access in flight, every check of the invariant evaluates to true. -/
theorem invariantHoldsAtConstruction : Obligations.InvariantHoldsAtConstruction :=
  ⟨rfl, rfl⟩

end Sys2Proof.Machine
end

section
/-!
PROOFS. The address map and storage: the regions of a well-formed configuration are disjoint, a lane is its bytes in big-endian
order, and the debug accesses and the fetch by the region of their address.
-/

namespace Sys2Proof.Machine

open Sys2Proof.Claims

/-! ## The region of an address (R64) -/

/-- What makes an address one of this region: the region's range holds it, or no range does (R61 to R64). -/
def Region.Holds (c : Config) (a : Word) : Region → Prop
  | .localBus => inBank c.localBus a = true
  | .peripheralBus => ∃ b, c.peripheralBus = some b ∧ inBank b a = true
  | .device d => d ∈ c.devices ∧ inDevice d a = true
  | .none => ¬inBank c.localBus a = true ∧ (∀ b, c.peripheralBus = some b → ¬inBank b a = true) ∧
      ∀ d ∈ c.devices, ¬inDevice d a = true

theorem inBank_iff {b : Bank} {a : Word} : inBank b a = true ↔ b.lo.toNat ≤ a.toNat ∧ a.toNat ≤ b.hi.toNat := by
  simp [inBank]

theorem inDevice_iff {d : Device} {a : Word} :
    inDevice d a = true ↔ d.addr.toNat ≤ a.toNat ∧ a.toNat ≤ d.addr.toNat + 3 := by
  simp [inDevice]

theorem pairwiseApart_iff {l : List (Nat × Nat)} :
    pairwiseApart l = true ↔ l.Pairwise fun r q => rangesApart r q = true := by
  induction l with
  | nil => simp [pairwiseApart]
  | cons r rs ih => simp [pairwiseApart, ih]

/-- Ranges that are apart do not hold one address both. -/
theorem not_both_of_rangesApart {r q : Nat × Nat} (h : rangesApart r q = true) {n : Nat} (hr : r.1 ≤ n ∧ n ≤ r.2) :
    ¬(q.1 ≤ n ∧ n ≤ q.2) := by
  simp only [rangesApart, Bool.or_eq_true, decide_eq_true_eq] at h
  omega

/-- No two ranges of a well-formed configuration share an address: LB, PB and the devices, two by two (R9). -/
theorem regions_apart {c : Config} (hc : c.wf = true) {a : Word} :
    (inBank c.localBus a = true → ∀ b, c.peripheralBus = some b → ¬inBank b a = true) ∧
      (inBank c.localBus a = true → ∀ d ∈ c.devices, ¬inDevice d a = true) ∧
      (∀ b, c.peripheralBus = some b → inBank b a = true → ∀ d ∈ c.devices, ¬inDevice d a = true) ∧
      ∀ d ∈ c.devices, ∀ e ∈ c.devices, inDevice d a = true → inDevice e a = true → d = e := by
  simp only [Config.wf, Bool.and_eq_true] at hc
  obtain ⟨⟨⟨⟨⟨⟨⟨⟨-, hap⟩, -⟩, -⟩, -⟩, -⟩, -⟩, -⟩, -⟩ := hc
  simp only [pairwiseApart_iff, Config.ranges, List.pairwise_cons, List.pairwise_append, List.mem_append, List.mem_map,
    List.pairwise_map, Option.mem_toList] at hap
  obtain ⟨hlocal, -, hdev, hpb⟩ := hap
  simp only [inBank_iff, inDevice_iff]
  refine ⟨fun hl b hb => ?_, fun hl d hd => ?_, fun b hb ha d hd => ?_, fun d hd e he hda hea => ?_⟩
  · exact not_both_of_rangesApart (hlocal _ (.inl ⟨b, hb, rfl⟩)) hl
  · exact not_both_of_rangesApart (hlocal _ (.inr ⟨d, hd, rfl⟩)) hl
  · exact not_both_of_rangesApart (hpb _ ⟨b, hb, rfl⟩ _ ⟨d, hd, rfl⟩) ha
  · by_contra hne
    have hsymm : Std.Symm fun d e : Device =>
        rangesApart (d.addr.toNat, d.addr.toNat + 3) (e.addr.toNat, e.addr.toNat + 3) = true :=
      ⟨fun d e h => (Bool.or_comm _ _).trans h⟩
    exact not_both_of_rangesApart (hdev.forall hd he hne) hda hea

/-- The region an address resolves to holds it (R64). -/
theorem region_holds (c : Config) (a : Word) : (region c a).Holds c a := by
  unfold region
  split
  · assumption
  · split
    · rename_i hp
      simpa [Region.Holds] using hp
    · rename_i hl hp
      split
      · rename_i d hd
        exact ⟨List.mem_of_find?_eq_some hd, List.find?_some (p := (inDevice · a)) hd⟩
      · rename_i hd
        exact ⟨by simpa using hl, by simpa using hp, by simpa using hd⟩

/-- Under a well-formed configuration an address resolves to the region that holds it. -/
theorem region_of_holds {c : Config} (hc : c.wf = true) {a : Word} {r : Region} (h : r.Holds c a) : region c a = r := by
  obtain ⟨hlp, hld, hpd, hdd⟩ := regions_apart hc (a := a)
  cases r with
  | localBus =>
    have hl : inBank c.localBus a = true := h
    simp [region, hl]
  | peripheralBus =>
    obtain ⟨b, hb, ha⟩ := h
    have hl : ¬inBank c.localBus a = true := fun hl => hlp hl b hb ha
    simp [region, hl, hb, ha]
  | device d =>
    obtain ⟨hd, ha⟩ := h
    have hl : ¬inBank c.localBus a = true := fun hl => hld hl d hd ha
    have hp : ∀ b, c.peripheralBus = some b → ¬inBank b a = true := fun b hb hba => hpd b hb hba d hd ha
    have hf : c.devices.find? (inDevice · a) = some d := by
      cases hf : c.devices.find? (inDevice · a) with
      | none => exact absurd ha (List.find?_eq_none.1 hf d hd)
      | some e =>
        rw [hdd e (List.mem_of_find?_eq_some hf) d hd (List.find?_some (p := (inDevice · a)) hf) ha]
    simpa [region, hl, hf] using hp
  | none =>
    obtain ⟨hl, hp, hd⟩ := h
    have hf : c.devices.find? (inDevice · a) = none := by simpa using hd
    simpa [region, hl, hf] using hp

/-- Under a well-formed configuration the region of an address is the one that holds it (R64). -/
theorem region_eq_iff {c : Config} (hc : c.wf = true) {a : Word} {r : Region} : region c a = r ↔ r.Holds c a :=
  ⟨fun h => h ▸ region_holds c a, region_of_holds hc⟩

/-! ## A lane in bytes (R67, R68) -/

/-- A lane is its bits of the word, zero-extended (R68). -/
theorem extract_eq_setWidth (w a : Word) (size : Size) :
    extract w a size = (w.extractLsb' (laneShift a size) (8 * sizeBytes size)).setWidth 32 := by
  apply BitVec.eq_of_getLsbD_eq
  intro i hi
  rw [getLsbD_extract, BitVec.getLsbD_setWidth, BitVec.getLsbD_extractLsb', Bool.and_comm]
  simp [hi]

/-- The byte at an address is the byte of its word at that place (R67). -/
theorem extractLsb'_readWord_at (m : Memory) {a n : Nat} (hn : n / 4 = a / 4) :
    (readWord m (a - a % 4)).extractLsb' (24 - 8 * (n % 4)) 8 = readByte m n := by
  rw [extractLsb'_readWord m _ (Nat.mod_lt n (by omega))]
  congr 1
  omega

theorem memRead_byte (s : State) (a : Word) : memRead s a .byte = (readByte s.mem a.toNat).setWidth 32 := by
  rw [memRead, extract_eq_setWidth, ← extractLsb'_readWord_at s.mem (a := a.toNat) rfl]
  rfl

theorem memRead_half (s : State) {a : Word} (h : aligned a .half = true) :
    memRead s a .half = (readByte s.mem a.toNat ++ readByte s.mem (a.toNat + 1)).setWidth 32 := by
  have ha := (aligned_half_iff a).1 h
  rw [memRead, extract_eq_setWidth, ← extractLsb'_readWord_at s.mem (a := a.toNat) rfl,
    ← extractLsb'_readWord_at s.mem (a := a.toNat) (n := a.toNat + 1) (by omega),
    BitVec.extractLsb'_append_extractLsb'_eq_extractLsb' (by omega),
    show 24 - 8 * ((a.toNat + 1) % 4) = 16 - 8 * (a.toNat % 4) by omega]
  rfl

theorem memRead_word (s : State) {a : Word} (h : aligned a .word = true) :
    memRead s a .word = readWord s.mem a.toNat := by
  have ha : wordAddr a = a.toNat := by simp [wordAddr, (aligned_word_iff a).1 h]
  rw [memRead, extract_eq_setWidth, ha]
  simp [laneShift, sizeBytes]

/-! ## The debug accesses by region (R89, R90) -/

theorem exec_memGetOf (size : Size) (a : Word) (s : State) : exec (memGetOf size a) s = .next (dbgRead a size s) := by
  cases size <;> rfl

theorem exec_memSetOf (size : Size) (a v : Word) (s : State) :
    exec (memSetOf size a v) s = .next (dbgWrite a size v s) := by
  cases size <;> rfl

/-- A debug access of this width is rejected here: it is misaligned, or at no region, or of less than a device word (D31). -/
def DebugRejects (c : Config) (a : Word) (size : Size) : Prop :=
  aligned a size = false ∨ region c a = .none ∨ ∃ d, region c a = .device d ∧ size ≠ .word

theorem dbgRead_rejected {s : State} {a : Word} {size : Size} (h : DebugRejects s.cfg a size) :
    dbgRead a size s = failWith .badAddress s := by
  unfold dbgRead
  rcases h with h | h | ⟨d, h, hw⟩ <;> simp [*]

theorem dbgWrite_rejected {s : State} {a v : Word} {size : Size} (h : DebugRejects s.cfg a size) :
    dbgWrite a size v s = failWith .badAddress s := by
  unfold dbgWrite
  rcases h with h | h | ⟨d, h, hw⟩ <;> simp [*]

theorem dbgRead_storage {s : State} {a : Word} {size : Size} (ha : aligned a size = true)
    (hs : isStorage s.cfg a = true) : dbgRead a size s = answer (.okWord (memRead s a size)) s := by
  unfold dbgRead
  rcases (isStorage_iff_region _ _).1 hs with h | h <;> simp [ha, h]

theorem dbgWrite_storage {s : State} {a v : Word} {size : Size} (ha : aligned a size = true)
    (hs : isStorage s.cfg a = true) : dbgWrite a size v s = answer .ok (memWrite s a size v) := by
  unfold dbgWrite
  rcases (isStorage_iff_region _ _).1 hs with h | h <;> simp [ha, h]

theorem dbgRead_device {s : State} {a : Word} {d : Device} (ha : aligned a .word = true)
    (hr : region s.cfg a = .device d) :
    dbgRead a .word s = answer (.okWord (deviceGet d s).1) (deviceGet d s).2 := by
  simp [dbgRead, ha, hr]

theorem dbgWrite_device {s : State} {a v : Word} {d : Device} (ha : aligned a .word = true)
    (hr : region s.cfg a = .device d) : dbgWrite a .word v s = answer .ok (devicePut d v s) := by
  simp [dbgWrite, ha, hr]

/-! ## Fetch (R86, R87) -/

theorem fetch_of_fetchable {s : State} {a : Word} (h : fetchable s.cfg a = true) : fetch s a = entryAt s a :=
  if_pos h

/-- A fetch is the Unmapped marker exactly where nothing is fetched. -/
theorem fetch_eq_unmapped_iff (s : State) (a : Word) : fetch s a = .unmapped a ↔ fetchable s.cfg a = false := by
  constructor
  · intro h
    rw [← Bool.not_eq_true]
    exact fun hf => (entryAt_ne s a).2.1 a ((fetch_of_fetchable hf).symm.trans h)
  · intro h
    simp [fetch, h]

theorem fetchable_eq_false_iff (c : Config) (a : Word) :
    fetchable c a = false ↔ a.getLsbD 0 = true ∨ a.getLsbD 1 = true ∨ isStorage c a = false := by
  simp only [fetchable, aligned, Bool.and_eq_false_iff, Bool.not_eq_false', or_assoc]

/-! ## The obligations -/

/-- Settles O12: the regions being disjoint, `region` answers the one that holds the address, in whatever order it tests. -/
theorem regionIsTheOneThatHoldsTheAddress : Obligations.RegionIsTheOneThatHoldsTheAddress := by
  unfold Obligations.RegionIsTheOneThatHoldsTheAddress
  intro c a hc
  simp only [region_eq_iff hc, Region.Holds, inBank_iff, inDevice_iff, implies_true, and_self]


/-- Settles O13: each lane is its bytes of the word, in the order `readWord` puts them. -/
theorem readsAreBigEndianAndZeroExtended : Obligations.ReadsAreBigEndianAndZeroExtended := by
  unfold Obligations.ReadsAreBigEndianAndZeroExtended
  exact fun s a => ⟨memRead_byte s a, memRead_half s, memRead_word s⟩

/-- Settles O14: the store is `memWrite`, and the load after it reads the lane in the same region. -/
theorem debugStoreIsReadBackAndTouchesOnlyItsBytes : Obligations.DebugStoreIsReadBackAndTouchesOnlyItsBytes := by
  unfold Obligations.DebugStoreIsReadBackAndTouchesOnlyItsBytes
  intro s size a v hm hs ha
  refine ⟨answer .ok (memWrite s a size v), ?_, rfl, fun b hb => readByte_memWrite_outside hm ha v hb, ?_⟩
  · rw [exec_memSetOf, dbgWrite_storage ha hs]
  · have hread : memRead (answer .ok (memWrite s a size v)) a size = v &&& sizeMask size := memRead_memWrite hm ha v
    rw [exec_memGetOf, dbgRead_storage (s := answer .ok (memWrite s a size v)) ha hs, hread]
    rfl

/-- Settles O15: one equation of the debug write per region; a fetch after it decodes the new words under the old marks. -/
theorem debugWriteByRegion : Obligations.DebugWriteByRegion := by
  unfold Obligations.DebugWriteByRegion
  intro s size a v
  rw [exec_memSetOf]
  refine ⟨fun ha => ?_, fun ha => ⟨fun hr => ?_, fun hr => ?_, fun d hr => ?_⟩⟩
  · rw [dbgWrite_rejected (.inl ha)]
    rfl
  · rw [dbgWrite_rejected (.inr (.inl hr))]
    rfl
  · rw [dbgWrite_storage ha ((isStorage_iff_region _ _).2 hr)]
    exact ⟨_, rfl, rfl, fun b hb => fetch_of_fetchable (s := answer .ok (memWrite s a size v)) hb⟩
  · by_cases hw : size = .word
    · subst hw
      rw [dbgWrite_device ha hr]
      rfl
    · rw [dbgWrite_rejected (.inr (.inr ⟨d, hr, hw⟩)), if_neg hw]
      rfl

/-- Settles O16: one equation of the debug read per region. -/
theorem debugReadByRegion : Obligations.DebugReadByRegion := by
  unfold Obligations.DebugReadByRegion
  intro s size a
  rw [exec_memGetOf]
  refine ⟨fun ha => ?_, fun ha => ⟨fun hr => ?_, fun hr => ?_, fun d hr => ⟨fun hw => ?_, ?_⟩⟩⟩
  · rw [dbgRead_rejected (.inl ha)]
    rfl
  · rw [dbgRead_rejected (.inr (.inl hr))]
    rfl
  · rw [dbgRead_storage ha ((isStorage_iff_region _ _).2 hr)]
    rfl
  · rw [dbgRead_rejected (.inr (.inr ⟨d, hr, hw⟩))]
    rfl
  · rintro rfl
    exact ⟨(deviceGet d s).1, by rw [dbgRead_device ha hr]; rfl⟩

/-- Settles O18: a store entry is never the Unmapped marker, so the marker stands exactly where nothing is fetchable. -/
theorem fetchGivesEntryOrUnmapped : Obligations.FetchGivesEntryOrUnmapped := by
  unfold Obligations.FetchGivesEntryOrUnmapped
  intro s a
  exact ⟨programCounter_fetch s a, fetch_of_fetchable,
    (fetch_eq_unmapped_iff s a).trans (fetchable_eq_false_iff s.cfg a)⟩

end Sys2Proof.Machine
end

section
/-!
PROOFS. The arbiter poll by poll, and the External instruction whose access it is: Busy below the latency, what the last poll
of each class does, the polls that are refused, a load that is Ready and an access that faults.
-/

namespace Sys2Proof.Machine

open Sys2Proof.Claims

/-! ## Polls of a bus request (R75 to R82) -/

/-- The last poll, as the meaning of its request: completion, its response on the response port (R75, R80). -/
theorem exec_last_poll {i : Instr} {r : BusReq} {s : State} {cls : AccessClass} {n : Nat} (hi : requestOf i = some r)
    (h : nextPollIs s r cls n) (hl : latency s.cfg cls r.op ≤ n) :
    exec i s =
      .next { (complete cls r { s with acc := .idle }).2 with
        busResp := some (complete cls r { s with acc := .idle }).1 } := by
  rw [exec_of_requestOf hi, pollRequest_of_poll h, pollAt_last hl]

/-- A poll below the latency, as the meaning of its request: Busy, and the Access State counts it (R75, R76). -/
theorem exec_busy_poll {i : Instr} {r : BusReq} {s : State} {cls : AccessClass} {n : Nat} (hi : requestOf i = some r)
    (h : nextPollIs s r cls n) (hl : n < latency s.cfg cls r.op) :
    exec i s = .next { s with acc := .pending cls n r, busResp := some .busy } := by
  rw [exec_of_requestOf hi, pollRequest_of_poll h, pollAt_below hl]

/-- Completion does not read the response port, and what it leaves there is replaced by its own response. -/
theorem complete_over_busResp (cls : AccessClass) (r : BusReq) (s : State) (b : Option BusResp) :
    (complete cls r { s with busResp := b }).1 = (complete cls r s).1 ∧
      ∀ resp, ({ (complete cls r { s with busResp := b }).2 with busResp := resp } : State) =
        { (complete cls r s).2 with busResp := resp } := by
  obtain ⟨op, size, a, v⟩ := r
  cases cls <;> cases op <;> exact ⟨rfl, fun _ => rfl⟩

/-- One more run of an instruction, after `k` of them. -/
theorem repeatExec_succ {k : Nat} {i : Instr} {s t : State} (h : repeatExec k i s = .next t) :
    repeatExec (k + 1) i s = exec i t := by
  induction k generalizing s with
  | zero =>
    cases h
    unfold repeatExec
    cases exec i t <;> rfl
  | succ k ih =>
    unfold repeatExec at h ⊢
    cases he : exec i s with
    | next u =>
      rw [he] at h
      exact ih h
    | fault e => cases e
    | refused e =>
      rw [he] at h
      cases h

/-- The polls below the latency, from Idle: each Busy, the Access State counting them (R75, R76). -/
theorem repeatExec_busy {i : Instr} {r : BusReq} {s : State} (hi : requestOf i = some r) (ha : s.acc = .idle) {k : Nat}
    (hk : 1 ≤ k) (hl : k < latency s.cfg (classify s.cfg r) r.op) :
    repeatExec k i s = .next { s with acc := .pending (classify s.cfg r) k r, busResp := some .busy } := by
  induction k, hk using Nat.le_induction with
  | base =>
    rw [repeatExec_succ (k := 0) rfl]
    exact exec_busy_poll hi (.inl ⟨by rw [ha]; rfl, rfl, rfl⟩) hl
  | succ k hk ih =>
    rw [repeatExec_succ (ih (by omega))]
    exact exec_busy_poll (s := { s with acc := .pending (classify s.cfg r) k r, busResp := some .busy }) hi
      (.inr ⟨k, rfl, rfl⟩) hl

/-- The poll of the latency, from Idle, completes the access (R75, R80). -/
theorem repeatExec_last {i : Instr} {r : BusReq} {s : State} (hi : requestOf i = some r) (ha : s.acc = .idle)
    (hl : 1 ≤ latency s.cfg (classify s.cfg r) r.op) :
    repeatExec (latency s.cfg (classify s.cfg r) r.op) i s =
      .next { (complete (classify s.cfg r) r s).2 with busResp := some (complete (classify s.cfg r) r s).1 } := by
  have hidle : { s with acc := .idle } = s := by rw [← ha]
  obtain ⟨k, hk⟩ : ∃ k, latency s.cfg (classify s.cfg r) r.op = k + 1 := ⟨_, (Nat.sub_add_cancel hl).symm⟩
  rw [hk]
  cases k with
  | zero =>
    rw [repeatExec_succ (k := 0) rfl, exec_last_poll hi (.inl ⟨by rw [ha]; rfl, rfl, rfl⟩) hk.le, hidle]
  | succ k =>
    have hs : { { s with acc := .pending (classify s.cfg r) (k + 1) r, busResp := some .busy } with acc := .idle } =
        { s with busResp := some .busy } := by rw [← ha]
    obtain ⟨hresp, hstate⟩ := complete_over_busResp (classify s.cfg r) r s (some .busy)
    rw [repeatExec_succ (repeatExec_busy hi ha (by omega) (by omega)),
      exec_last_poll (s := { s with acc := .pending (classify s.cfg r) (k + 1) r, busResp := some .busy }) hi
        (.inr ⟨k + 1, rfl, rfl⟩) hk.le, hs, hstate, hresp]

/-- A continuation poll with another request is refused (R77). -/
theorem pollAndRecord_other {r r' : BusReq} {s : State} {cls : AccessClass} {n : Nat}
    (ha : s.acc.inFlight = some (cls, n, r')) (hne : r ≠ r') : pollAndRecord r s = .error .busProtocolViolation := by
  simp [pollAndRecord, busAccess, ha, hne]

/-- Completion of a faulting access reports it and takes no action (R78, R79, R82). -/
theorem complete_fault {cls : AccessClass} {r : BusReq} {resp : BusResp}
    (h : (cls = .unaligned ∧ resp = .unaligned r.addr) ∨ (cls = .unmapped ∧ resp = .unmapped r.addr)) (s : State) :
    complete cls r s = (resp, s) := by
  rcases h with ⟨rfl, rfl⟩ | ⟨rfl, rfl⟩ <;> cases r.op <;> rfl

/-! ## The poll of an External instruction -/

/-- The step of an External instruction whose given answer makes one poll is that poll and what follows it (R83, R147). -/
theorem stepExternal_eq_runPoll {a w : Word} {s : State} {ans : ExecAnswer} {rest : List ExecAnswer} {p : RawPoll}
    (hq : s.execQ = ans :: rest) (hk : keepsToItsState ans = true) (hp : ans.polls = [p]) :
    stepExternal a w s = runPoll ans (fun _ => ans) p { s with execQ := rest } := by
  have hon : pollsOn s.acc ans = true := by
    cases hacc : s.acc <;> simp [pollsOn, hp]
  simp only [stepExternal_of_queue hq, runAnswer, hk, hon, Bool.and_self, if_true, hp]

/-- The reserved size code is that of no request (R116). -/
theorem pollReq_reserved {p : RawPoll} (h : p.req = 0b011 ∨ p.req = 0b111) : pollReq p = none := by
  have hd : decodeReq p.req = none := by
    rcases h with h | h <;> rw [h] <;> rfl
  rw [pollReq, hd]
  rfl

/-- The last poll of a load from LB or PB reads its lane (R80). -/
theorem pollAndRecord_load {size : Size} {addr : Word} {s : State} {cls : AccessClass} {n : Nat}
    (h : nextPollIs s ⟨.read, size, addr, 0⟩ cls n) (hl : latency s.cfg cls .read ≤ n)
    (hc : cls = .localBus ∨ cls = .peripheralBus) :
    pollAndRecord ⟨.read, size, addr, 0⟩ s =
      .ok (.ready (memRead s addr size),
        { s with acc := .idle, busResp := some (.ready (memRead s addr size)) }) := by
  rw [pollAndRecord_last h hl, complete_read _ rfl hc]
  rfl

/-- Writing nothing changes nothing. -/
@[simp] theorem applyWrites_noWrites (s : State) : applyWrites noWrites s = s := rfl

/-- A faulting access whose Exec returns the outcome paired with the response and has written nothing: that fault, with
imm_in_flight cleared (R34, R146, R147). -/
theorem faultedAccess_of_returnsOnly {ans : ExecAnswer} {ret : ExecReturn} {fault : OutcomeCode} {x : Word} {s : State}
    (h : returnsOnly ret fault.bits) (hf : fault ≠ .normal) :
    faultedAccess ans ret fault x s = .ok (fault, x, { s with immInFlight := false }) := by
  obtain ⟨hc, hw⟩ := h
  have himm : immAfter ans fault = false := by simp [immAfter, hf]
  simp only [faultedAccess, hc, decodeOutcome_bits, if_true, execWrites, hw, applyWrites_noWrites, himm]

/-- The outcome that R147 pairs with the response to a faulting access: UNALIGNED for its class, else UNMAPPED_DATA. -/
def faultOutcome : AccessClass → OutcomeCode
  | .unaligned => .unaligned
  | .unmapped | .localBus | .peripheralBus | .device _ => .unmappedData

/-- The clock of an access that faults, its Exec having written nothing: the fault with the target address (R147, R172). -/
theorem exec_external_of_fault {a w : Word} {s : State} {ans : ExecAnswer} {rest : List ExecAnswer} {r : BusReq}
    {ws : List (BitVec 5 × ExecVal)} {cls : AccessClass} {n : Nat} {resp : BusResp} (hq : s.execQ = ans :: rest)
    (ha : accessAnswer ans r ws) (hn : nextPollIs s r cls n) (hl : latency s.cfg cls r.op ≤ n)
    (hf : (cls = .unaligned ∧ resp = .unaligned r.addr) ∨ (cls = .unmapped ∧ resp = .unmapped r.addr)) :
    exec (.external a w) s =
      .next (answer (.status .normal) (faultCycle s.irq (faultOutcome cls) r.addr
        { s with execQ := rest, acc := .idle, busResp := some resp, immInFlight := false })) := by
  have hb := pollAndRecord_last (s := { s with execQ := rest }) hn hl
  rw [complete_fault hf] at hb
  have ⟨hp, hr, _, _, hu, hm, _⟩ := ha
  rw [exec_external, stepExternal_poll hq (keepsToItsState_of_accessAnswer ha) hp hr hb]
  rcases hf with ⟨rfl, rfl⟩ | ⟨rfl, rfl⟩
  · rw [afterPoll, faultedAccess_of_returnsOnly hu (by simp)]
    rfl
  · rw [afterPoll, faultedAccess_of_returnsOnly hm (by simp)]
    rfl

/-- A clock that reports a fault, by EE: exception entry, or as NORMAL (R251, R253, R257). -/
theorem faultCycle_taken {irq : Bool} {oc : OutcomeCode} {info : Word} {s : State} (h : getFlag s.msr 8 = true) :
    faultCycle irq oc info s = exceptionEntry oc info s := if_pos h

theorem faultCycle_masked {irq : Bool} {oc : OutcomeCode} {info : Word} {s : State} (h : getFlag s.msr 8 = false) :
    faultCycle irq oc info s = normalCycle irq s := if_neg (by simp [faultEnabled, msrEE, h])

/-! ## The obligations -/

/-- Settles O19: by induction on the polls; the last one finds the access one short of its latency. -/
theorem accessIsBusyThenCompletesAtItsLatency : Obligations.AccessIsBusyThenCompletesAtItsLatency := by
  unfold Obligations.AccessIsBusyThenCompletesAtItsLatency
  intro s i r hc hi ha
  exact ⟨fun k => repeatExec_busy hi ha, repeatExec_last hi ha (one_le_latency hc r), rfl, rfl⟩

/-- Settles O20: the last poll completes with the lane of the unchanged storage. -/
theorem storageReadIsReadyWithTheLane : Obligations.StorageReadIsReadyWithTheLane := by
  unfold Obligations.StorageReadIsReadyWithTheLane
  intro s size a cls n i hi hn hl hc
  refine ⟨_, ?_, rfl, rfl, rfl⟩
  rw [exec_last_poll hi hn hl, complete_read _ rfl hc]
  rfl

/-- Settles O21: the last poll completes with `memWrite`. -/
theorem storageWriteStoresItsLane : Obligations.StorageWriteStoresItsLane := by
  unfold Obligations.StorageWriteStoresItsLane
  intro s size a v cls n i hm ha hi hn hl hc
  have hexec := exec_last_poll hi hn hl
  rw [complete_write _ rfl hc] at hexec
  exact ⟨_, hexec, rfl, memRead_memWrite hm ha v, fun b => readByte_memWrite_outside hm ha v⟩

/-- Settles O22: the last poll completes with one call of the device. -/
theorem deviceIsCalledOnceOnTheLastPoll : Obligations.DeviceIsCalledOnceOnTheLastPoll := by
  unfold Obligations.DeviceIsCalledOnceOnTheLastPoll
  exact fun s d a v n => ⟨fun hn hl => ⟨_, exec_last_poll (i := .busRw a) rfl hn hl⟩,
    fun hn hl => exec_last_poll (i := .busWw a v) rfl hn hl⟩

/-- Settles O23: `classify` tests alignment before the region, and a faulting access completes with its response alone. -/
theorem faultingPollTakesNoAction : Obligations.FaultingPollTakesNoAction := by
  unfold Obligations.FaultingPollTakesNoAction
  intro s i r cls n hi
  refine ⟨fun ha => ?_, fun ha hr => ?_, fun hn hl hc => ?_⟩
  · simp [classify, ha]
  · rcases hr with hr | ⟨d, hr, hw⟩ <;> simp [classify, *]
  · have hexec := exec_last_poll hi hn hl
    rcases hc with rfl | rfl
    · rw [complete_fault (.inl ⟨rfl, rfl⟩)] at hexec
      exact ⟨_, hexec, rfl, rfl⟩
    · rw [complete_fault (.inr ⟨rfl, rfl⟩)] at hexec
      exact ⟨_, hexec, rfl, rfl⟩

/-- Settles O24: the poll of the External instruction is refused for the reason the bus request is. -/
theorem pollsOutsideTheProtocolAreRefused : Obligations.PollsOutsideTheProtocolAreRefused := by
  unfold Obligations.PollsOutsideTheProtocolAreRefused
  refine ⟨fun s i r r' cls n hi ha hne => ?_, fun s a w ans rest p hq hin hp => ?_⟩
  · rw [exec_of_requestOf hi]
    exact pollRequest_eq_refused_iff.2 (pollAndRecord_other ha hne)
  · have hk := keepsToItsState_of_withinR144 hin (by simp [hp])
    refine ⟨fun r r' cls n hr ha hne => ?_, fun hres => ?_⟩
    · rw [exec_external, stepExternal_poll_error hq hk hp hr (pollAndRecord_other ha hne)]
      rfl
    · rw [exec_external, stepExternal_eq_runPoll hq hk hp, runPoll, pollReq_reserved hres]
      rfl

/-- Settles O36: the Ready response completes the load with one register write, and NORMAL shifts. -/
theorem loadWritesItsRegisterOnTheLastPoll : Obligations.LoadWritesItsRegisterOnTheLastPoll := by
  unfold Obligations.LoadWritesItsRegisterOnTheLastPoll
  intro s a w addr size i ans rest cls n hq ha hn hl hc hirq
  have hclock := exec_external_of_ready (a := a) (w := w) hq ha
    (pollAndRecord_load (s := { s with execQ := rest }) hn hl hc)
  rw [normalCycle_of_noInterrupt (.inl hirq)] at hclock
  have hread := fun j => readGpr_writeGpr s i j (memRead s addr size)
  refine ⟨_, hclock, rfl, ?_, fun j hj => ?_⟩
  · exact (hread i).trans (if_pos rfl)
  · exact (hread j).trans (if_neg hj)

/-- Settles O39: the faulting response is the fault of the clock, taken by exception entry or masked as NORMAL. -/
theorem faultingAccessIsTakenWithItsAddress : Obligations.FaultingAccessIsTakenWithItsAddress := by
  unfold Obligations.FaultingAccessIsTakenWithItsAddress
  intro s a w ans rest r wr cls n resp ec hq ha hn hl hf
  have hresp : (cls = .unaligned ∧ resp = .unaligned r.addr) ∨ (cls = .unmapped ∧ resp = .unmapped r.addr) :=
    hf.imp (fun h => ⟨h.1, h.2.1⟩) fun h => ⟨h.1, h.2.1⟩
  rw [exec_external_of_fault hq ha hn hl hresp]
  refine ⟨fun hee => ?_, fun hee => ?_⟩
  · rw [faultCycle_taken, exceptionEntry_eq]
    · rcases hf with ⟨rfl, -, rfl⟩ | ⟨rfl, -, rfl⟩ <;> rfl
    · exact hee
  · rw [faultCycle_masked]
    · exact goesOnAsNormal_normalCycle s.irq _
    · exact hee

end Sys2Proof.Machine
end

section
/-!
PROOFS. Two host commands: a breakpoint wraps the entry at its address alone, and the debug write of the pc.
-/

namespace Sys2Proof.Machine

open Sys2Proof.Claims

/-- The content of a Breakpoint entry is the entry it wraps (R84, R113). -/
theorem wrapBody_break (isExit : Bool) (b : Body) :
    ∃ e, wrapBody true isExit b = .bp e ∧ markedSlot e = wrapBody false isExit b := by
  cases isExit
  · exact ⟨.plain b, rfl, rfl⟩
  · exact ⟨.exit b, rfl, rfl⟩

/-- A mark added at `a` shows at no other address. -/
theorem contains_addMark_of_ne (l : List Nat) {a b : Word} (h : b ≠ a) :
    (addMark l a.toNat).contains b.toNat = l.contains b.toNat := by
  rw [contains_addMark, beq_false_of_ne (mt BitVec.eq_of_toNat_eq h), Bool.false_or]

/-- A break mark added at `a` changes no other fetch (R84, R86). -/
theorem fetch_addBreak_of_ne {s t : State} {a b : Word} (hc : t.cfg = s.cfg) (hm : t.mem = s.mem)
    (hb : t.breakMarks = addMark s.breakMarks a.toNat) (he : t.exitMarks = s.exitMarks) (h : b ≠ a) :
    fetch t b = fetch s b := by
  simp only [fetch, entryAt, hc, hm, hb, he, contains_addMark_of_ne s.breakMarks h]

/-- A break mark added at an unmarked, fetchable `a` wraps the entry there in Breakpoint (R84). -/
theorem fetch_addBreak_same {s t : State} {a : Word} (hc : t.cfg = s.cfg) (hm : t.mem = s.mem)
    (hb : t.breakMarks = addMark s.breakMarks a.toNat) (he : t.exitMarks = s.exitMarks)
    (hf : fetchable s.cfg a = true) (ha : a.toNat ∉ s.breakMarks) :
    ∃ e, fetch t a = .bp e ∧ markedSlot e = fetch s a := by
  have hold : s.breakMarks.contains a.toNat = false := by simpa using ha
  simp only [fetch, entryAt, hc, hm, hb, he, hf, if_true, contains_addMark, beq_self_eq_true, Bool.true_or, hold]
  exact wrapBody_break _ _

/-- A register number other than 32 does not select the pc (R119). -/
theorem selectReg_ne_pc {p : Nat} {n : Word} (h : n ≠ 32) : selectReg p n ≠ .pc := by
  have hn : n.toNat ≠ 32 := fun e => h (BitVec.eq_of_toNat_eq e)
  simp only [selectReg, hn, if_false]
  split_ifs <;> simp

/-! ## The obligations -/

/-- Settles O52: the insertion is one mark more and the copies wrapped; the mark shows in the entry at its address alone. -/
theorem breakpointInsertWrapsEntryAndCopies : Obligations.BreakpointInsertWrapsEntryAndCopies := by
  unfold Obligations.BreakpointInsertWrapsEntryAndCopies
  intro s a
  refine ⟨fun hf => ?_, fun hf ha => execBpInsert_marked hf ha, fun hf ha => ?_⟩
  · show execBpInsert a s = _
    simp only [execBpInsert, hf, Bool.not_false, if_true]
    rfl
  · obtain ⟨e, hbp, he⟩ := fetch_addBreak_same (s := s)
      (t := answer .ok (mapSlots (wrapBreak a) { s with breakMarks := addMark s.breakMarks a.toNat })) rfl rfl rfl
      rfl hf ha
    exact ⟨_, e, execBpInsert_unmarked hf ha, rfl, hbp, he, fun b hb => fetch_addBreak_of_ne rfl rfl rfl rfl hb⟩

/-- Settles O51: number 32 alone selects the pc. -/
theorem debugPcWriteRefillsThePipeline : Obligations.DebugPcWriteRefillsThePipeline := by
  unfold Obligations.DebugPcWriteRefillsThePipeline
  refine fun s n v => ⟨?_, fun hn => ?_⟩
  · rintro rfl
    rfl
  · show execDbgRegSet n v s = execRegSet n v s
    have hr := selectReg_ne_pc (p := s.cfg.pvr.length) hn
    unfold execDbgRegSet execRegSet
    cases h : selectReg s.cfg.pvr.length n with
    | pc => exact absurd h hr
    | _ => rfl

end Sys2Proof.Machine
end

section
/-!
PROOFS. The encodings of the three ports: what the encoder writes is read back, and what the decoder of each port makes of all
other bits.
-/

namespace Sys2Proof

open Sys2Proof.Claims

/-! ## Slot variants (R112, R113) -/

/-- The rows of R113's table, each with its CTL pattern written out. -/
def Slot.tableRow : Slot → RawWord
  | .empty => ⟨0x00, 0, 0⟩
  | .external a w => ⟨0x80, a, w⟩
  | .illegal a => ⟨0x81, a, 0⟩
  | .unmapped a => ⟨0x82, a, 0⟩
  | .intJump a => ⟨0x83, a, 0⟩
  | .exit (.external a w) => ⟨0xA0, a, w⟩
  | .exit (.illegal a) => ⟨0xA1, a, 0⟩
  | .bp (.plain (.external a w)) => ⟨0xC0, a, w⟩
  | .bp (.plain (.illegal a)) => ⟨0xC1, a, 0⟩
  | .bp (.exit (.external a w)) => ⟨0xE0, a, w⟩
  | .bp (.exit (.illegal a)) => ⟨0xE1, a, 0⟩

/-- The encoder, which puts a wrapper's pattern together from its bits, writes the rows of the table. -/
theorem encode_toInstr (v : Slot) : encode v.toInstr = v.tableRow := by
  cases v with
  | exit e =>
    cases e <;> simp [Slot.toInstr, encode, Slot.tableRow, Body.kindBit, Body.pc, Body.iw]
  | bp e =>
    rcases e with (b | b) <;> cases b <;>
      simp [Slot.toInstr, encode, Slot.tableRow, Marked.exitBits, Marked.body, Body.kindBit, Body.pc, Body.iw]
  | _ => rfl

/-- A row of the table decodes to its variant. -/
theorem decodeSlot_tableRow (v : Slot) : decodeSlot v.tableRow = .ok v.toInstr := by
  rcases v with _ | _ | _ | _ | _ | (_ | _) | ((_ | _) | (_ | _)) <;> rfl

/-- The variant is read back from the instruction it is. -/
@[simp] theorem Slot.toSlot_toInstr (v : Slot) : v.toInstr.toSlot = some v := by
  cases v <;> rfl

theorem Slot.toInstr_injective : Function.Injective Slot.toInstr := fun v u h =>
  Option.some_injective _ (by rw [← v.toSlot_toInstr, h, u.toSlot_toInstr])

/-- An instruction of the slot port is a slot variant's. -/
theorem exists_toInstr_of_port {i : Instr} (h : i.port = .slot) : ∃ v : Slot, v.toInstr = i := by
  cases i with
  | empty => exact ⟨.empty, rfl⟩
  | external a w => exact ⟨.external a w, rfl⟩
  | illegal a => exact ⟨.illegal a, rfl⟩
  | unmapped a => exact ⟨.unmapped a, rfl⟩
  | intjump a => exact ⟨.intJump a, rfl⟩
  | programExit e => exact ⟨.exit e, rfl⟩
  | breakpoint e => exact ⟨.bp e, rfl⟩
  | _ => cases h

/-- A field that R113 fixes at 0 is not 0. -/
def FixedFieldNonzero (r : RawWord) : Prop :=
  (r.code = 0x00 ∧ (r.a ≠ 0 ∨ r.b ≠ 0)) ∨ (r.code ∈ [0x81, 0x82, 0x83, 0xA1, 0xC1, 0xE1] ∧ r.b ≠ 0)

/-- Only a pattern of the table fixes a field. -/
theorem FixedFieldNonzero.code_mem {r : RawWord} (h : FixedFieldNonzero r) : r.code ∈ controlCodes := by
  rcases h with ⟨hc, -⟩ | ⟨hc, -⟩
  · simp [hc, controlCodes]
  · have hsub : [0x81, 0x82, 0x83, 0xA1, 0xC1, 0xE1] ⊆ controlCodes := by decide
    exact hsub hc

/-- A CTL byte outside the table is rejected as such (R113, R122). -/
theorem decodeSlot_of_code_notMem {r : RawWord} (h : r.code ∉ controlCodes) :
    decodeSlot r = .error .reservedControl := by
  unfold decodeSlot
  split
  case h_12 => rfl
  all_goals exact absurd (by simp [controlCodes, BitVec.toNat_eq, *]) h

/-- A nonzero field that the pattern fixes at 0 is rejected as such (R113, R122). -/
theorem decodeSlot_of_fixedFieldNonzero {r : RawWord} (h : FixedFieldNonzero r) :
    decodeSlot r = .error .nonzeroField := by
  obtain ⟨c, a, b⟩ := r
  rcases h with ⟨rfl, h⟩ | ⟨hc, hb⟩
  · by_cases ha : a = 0
    · exact (if_pos ha).trans (if_neg (h.resolve_left (not_not_intro ha)))
    · exact if_neg ha
  · simp only [List.mem_cons, List.not_mem_nil, or_false] at hc
    rcases hc with rfl | rfl | rfl | rfl | rfl | rfl <;> exact if_neg hb

/-- All other bits are a row of the table. -/
theorem exists_tableRow {r : RawWord} (hc : r.code ∈ controlCodes) (hf : ¬FixedFieldNonzero r) :
    ∃ v : Slot, v.tableRow = r := by
  obtain ⟨c, a, b⟩ := r
  have hiw : c ∈ [0x81, 0x82, 0x83, 0xA1, 0xC1, 0xE1] → b = 0 := fun h =>
    by_contra fun hb => hf (.inr ⟨h, hb⟩)
  simp only [controlCodes, List.mem_cons, List.not_mem_nil, or_false] at hc
  rcases hc with rfl | rfl | rfl | rfl | rfl | rfl | rfl | rfl | rfl | rfl | rfl
  · have hab : a = 0 ∧ b = 0 := by_contra fun hn => hf (.inl ⟨rfl, not_and_or.1 hn⟩)
    exact ⟨.empty, by rw [hab.1, hab.2]; rfl⟩
  · exact ⟨.external a b, rfl⟩
  · exact ⟨.illegal a, by rw [hiw (by decide)]; rfl⟩
  · exact ⟨.unmapped a, by rw [hiw (by decide)]; rfl⟩
  · exact ⟨.intJump a, by rw [hiw (by decide)]; rfl⟩
  · exact ⟨.exit (.external a b), rfl⟩
  · exact ⟨.exit (.illegal a), by rw [hiw (by decide)]; rfl⟩
  · exact ⟨.bp (.plain (.external a b)), rfl⟩
  · exact ⟨.bp (.plain (.illegal a)), by rw [hiw (by decide)]; rfl⟩
  · exact ⟨.bp (.exit (.external a b)), rfl⟩
  · exact ⟨.bp (.exit (.illegal a)), by rw [hiw (by decide)]; rfl⟩

/-- Everything the slot decoder can do: the two rejections, and the rows of the table (R112, R113). -/
theorem decodeSlot_cases (r : RawWord) :
    (r.code ∉ controlCodes ∧ ¬FixedFieldNonzero r ∧ decodeSlot r = .error .reservedControl) ∨
    (r.code ∈ controlCodes ∧ FixedFieldNonzero r ∧ decodeSlot r = .error .nonzeroField) ∨
    (r.code ∈ controlCodes ∧ ¬FixedFieldNonzero r ∧ ∃ v : Slot, v.tableRow = r ∧ decodeSlot r = .ok v.toInstr) := by
  by_cases hf : FixedFieldNonzero r
  · exact .inr (.inl ⟨hf.code_mem, hf, decodeSlot_of_fixedFieldNonzero hf⟩)
  by_cases hc : r.code ∈ controlCodes
  · obtain ⟨v, rfl⟩ := exists_tableRow hc hf
    exact .inr (.inr ⟨hc, hf, v, rfl, decodeSlot_tableRow v⟩)
  · exact .inl ⟨hc, hf, decodeSlot_of_code_notMem hc⟩

/-- Both parts of a concatenation are determined by it. -/
theorem bitVec_append_inj {m n : Nat} {x x' : BitVec m} {y y' : BitVec n} (h : x ++ y = x' ++ y') : x = x' ∧ y = y' := by
  constructor
  · simpa only [BitVec.extractLsb'_append_eq_left] using congrArg (BitVec.extractLsb' n m) h
  · simpa only [BitVec.extractLsb'_append_eq_right] using congrArg (BitVec.extractLsb' 0 n) h

/-- The 72 bits hold each of the three fields (R112). -/
theorem RawWord.bits_injective : Function.Injective RawWord.bits := by
  intro r q h
  obtain ⟨hca, hb⟩ := bitVec_append_inj h
  obtain ⟨hc, ha⟩ := bitVec_append_inj hca
  cases r
  cases q
  simp_all

/-! ## Bus requests (R116) -/

/-- The reserved size code is the one that names no request. -/
theorem decodeReq_eq_none_iff (req : BitVec 3) : decodeReq req = none ↔ req = 0b011 ∨ req = 0b111 := by
  revert req
  decide

/-- The low three bits of a request byte. -/
theorem extractLsb'_setWidth_req (req : BitVec 3) : (req.setWidth 8).extractLsb' 0 3 = req := by
  revert req
  decide

/-- An instruction of the bus port is a request's. -/
theorem exists_busInstr_of_port {i : Instr} (h : i.port = .bus) :
    ∃ op size addr wdata, busInstr op size addr wdata = i := by
  cases i with
  | busRb addr => exact ⟨.read, .byte, addr, 0, rfl⟩
  | busRh addr => exact ⟨.read, .half, addr, 0, rfl⟩
  | busRw addr => exact ⟨.read, .word, addr, 0, rfl⟩
  | busWb addr wdata => exact ⟨.write, .byte, addr, wdata, rfl⟩
  | busWh addr wdata => exact ⟨.write, .half, addr, wdata, rfl⟩
  | busWw addr wdata => exact ⟨.write, .word, addr, wdata, rfl⟩
  | _ => cases h

/-- The request byte is the request code, and a read carries no write data. -/
theorem encode_busInstr (op : AccessOp) (size : Size) (addr wdata : Word) :
    encode (busInstr op size addr wdata) =
      ⟨(encodeReq op size).setWidth 8, addr, if op = .read then 0 else wdata⟩ := by
  cases op <;> cases size <;> rfl

/-- A request byte that holds the code of a request decodes to its instruction. -/
theorem decodeBus_encodeReq (op : AccessOp) (size : Size) (addr wdata : Word) :
    decodeBus ⟨(encodeReq op size).setWidth 8, addr, wdata⟩ = .ok (busInstr op size addr wdata) := by
  have hlow : ¬8 ≤ ((encodeReq op size).setWidth 8).toNat := by
    cases op <;> cases size <;> decide
  simp only [decodeBus, hlow, if_false, extractLsb'_setWidth_req, Machine.decodeReq_encodeReq]

/-- The reserved size code alone is rejected as such, in a byte of three bits (R116, R122). -/
theorem decodeBus_eq_reservedSize_iff (r : RawWord) :
    decodeBus r = .error .reservedSize ↔ r.code.toNat < 8 ∧ decodeReq (r.code.extractLsb' 0 3) = none := by
  unfold decodeBus
  split
  · next h8 => simp [Nat.not_lt.2 h8]
  · next h8 =>
    have hlt := Nat.not_le.1 h8
    split <;> simp [*]

/-! ## Host commands (R118) -/

/-- A host command decodes to itself. -/
theorem decodeHost_encode {i : Instr} (h : i.port = .host) : decodeHost (encode i) = .ok i := by
  cases i with
  | cycle irq => cases irq <;> rfl
  | empty | external _ _ | illegal _ | unmapped _ | intjump _ | programExit _ | breakpoint _ => cases h
  | busRb _ | busRh _ | busRw _ | busWb _ _ | busWh _ _ | busWw _ _ => cases h
  | _ => rfl

/-- A command code of the table is a command, whatever its operands. -/
theorem decodeHost_of_code_mem {r : RawWord} (h : r.code ∈ commandCodes) : ∃ i, decodeHost r = .ok i := by
  obtain ⟨c, a, b⟩ := r
  simp only [commandCodes, List.mem_cons, List.not_mem_nil, or_false] at h
  rcases h with rfl | rfl | rfl | rfl | rfl | rfl | rfl | rfl | rfl | rfl | rfl | rfl | rfl | rfl | rfl | rfl <;>
    exact ⟨_, rfl⟩

/-- A command code outside the table is rejected (R118, R122). -/
theorem decodeHost_of_code_notMem {r : RawWord} (h : r.code ∉ commandCodes) :
    decodeHost r = .error .reservedCommand := by
  unfold decodeHost
  split
  case h_17 => rfl
  all_goals exact absurd (by simp [commandCodes, BitVec.toNat_eq, *]) h

/-! ## The obligations -/

/-- Settles O8: the port names the format, and each format's decoder reads its encoder's bits back. -/
theorem decodeOfEncodeIsTheInstruction : Obligations.DecodeOfEncodeIsTheInstruction := by
  unfold Obligations.DecodeOfEncodeIsTheInstruction
  intro i
  cases hp : i.port with
  | slot =>
    obtain ⟨v, rfl⟩ := exists_toInstr_of_port hp
    rw [encode_toInstr]
    exact decodeSlot_tableRow v
  | bus =>
    obtain ⟨op, size, addr, wdata, rfl⟩ := exists_busInstr_of_port hp
    rw [encode_busInstr]
    refine (decodeBus_encodeReq op size addr _).trans ?_
    cases op <;> cases size <;> rfl
  | host => exact decodeHost_encode hp

/-- Settles O9: bits that decode are a row of the table, and the row of a variant decodes to it. -/
theorem slotBitsHaveOneMeaning : Obligations.SlotBitsHaveOneMeaning := by
  unfold Obligations.SlotBitsHaveOneMeaning
  refine ⟨fun r i h => ?_, fun v u h => Slot.toInstr_injective ?_⟩
  · rcases decodeSlot_cases r with ⟨-, -, he⟩ | ⟨-, -, he⟩ | ⟨-, -, v, hr, hv⟩
    · cases he.symm.trans h
    · cases he.symm.trans h
    · cases hv.symm.trans h
      exact ⟨(encode_toInstr v).trans hr, v, rfl⟩
  · have hrow : v.tableRow = u.tableRow := by
      rw [← encode_toInstr, ← encode_toInstr]
      exact RawWord.bits_injective h
    have hdec := decodeSlot_tableRow v
    rw [hrow, decodeSlot_tableRow u] at hdec
    exact (Except.ok.inj hdec).symm

/-- Settles O10: each decoder's rejections are the ones of its format. -/
theorem reservedBitsAreRejected : Obligations.ReservedBitsAreRejected := by
  unfold Obligations.ReservedBitsAreRejected
  refine ⟨fun r => ?_, fun r => ?_, fun r => ⟨?_, ?_⟩, fun r => ?_⟩
  · rcases decodeSlot_cases r with ⟨hc, -, he⟩ | ⟨hc, -, he⟩ | ⟨hc, -, v, -, hv⟩ <;> simp [*]
  · show _ ↔ FixedFieldNonzero r
    rcases decodeSlot_cases r with ⟨-, hf, he⟩ | ⟨-, hf, he⟩ | ⟨-, hf, v, -, hv⟩ <;> simp [*]
  · rintro ⟨e, he⟩ hc
    obtain ⟨i, hi⟩ := decodeHost_of_code_mem hc
    cases he.symm.trans hi
  · exact fun hc => ⟨_, decodeHost_of_code_notMem hc⟩
  · rw [decodeBus_eq_reservedSize_iff, decodeReq_eq_none_iff]
    simp only [BitVec.toNat_eq, BitVec.extractLsb'_toNat, BitVec.ofNat_eq_ofNat, BitVec.toNat_ofNat, Nat.shiftRight_zero]
    omega

/-- Settles O11: each word is decoded by its row of the tables. -/
theorem tableWordsDecode : Obligations.TableWordsDecode := by
  unfold Obligations.TableWordsDecode
  refine ⟨rfl, rfl, ?_, rfl⟩
  exact decodeBus_encodeReq .write .half 0x102 0xBEEF

end Sys2Proof
end

section
/-!
PROOFS. The breaches of Exec's contract that are refused: what an answer outside the contract of R144, R145, R147 or R149
makes of the step of its External instruction.
-/

namespace Sys2Proof.Machine

open Sys2Proof.Claims

/-! ## Outcome codes and writes -/

/-- The code that names an outcome is the outcome's (R114). -/
theorem bits_of_decodeOutcome {c : BitVec 4} {oc : OutcomeCode} (h : decodeOutcome c = some oc) : oc.bits = c := by
  have named : ∀ c : BitVec 4, ∀ oc ∈ decodeOutcome c, oc.bits = c := by decide
  exact named c oc h

/-- The faults Exec may report are those of the fault codes (R145). -/
theorem mayFault_iff (oc : OutcomeCode) : mayFault oc = true ↔ oc.bits ∈ faultCodes := by
  cases oc <;> decide

/-- No write is made exactly by the empty lists. -/
theorem writesAny_eq_false_iff {V : Type} (w : ExecWrites V) : writesAny w = false ↔ w = noWrites := by
  obtain ⟨gprs, specials, redirects⟩ := w
  simp [writesAny, noWrites, and_assoc]

/-- A step that is not waiting may not return a forbidden outcome (R145, R147). -/
theorem mayReturn_of_forbidden {ready : Option (BusReq × Word)} {ans : ExecAnswer} {oc : OutcomeCode}
    (h : oc.bits ∈ forbiddenCodes) : mayReturn ready ans oc = false := by
  cases oc with
  | memAccessInProgress | empty | breakpoint | stop | unmappedFetch => rfl
  | normal | delaySlot | jumpTaken | divideByZero | unaligned | illegal | unmappedData => exact absurd h (by decide)

/-- A branch outcome needs a WritePC (R149). -/
theorem mayReturn_of_branch {ready : Option (BusReq × Word)} {ans : ExecAnswer} {oc : OutcomeCode}
    (h : oc.bits ∈ [0x2, 0x3]) (hr : ans.writes.redirects = []) : mayReturn ready ans oc = false := by
  cases oc with
  | delaySlot | jumpTaken => simp [mayReturn, completes, mayFault, hr]
  | _ => exact absurd h (by decide)

/-- A fault after a Ready read needs something written (R146, R147). -/
theorem mayReturn_of_unwritten_fault {r : BusReq} {v : Word} {ans : ExecAnswer} {oc : OutcomeCode}
    (h : oc.bits ∈ faultCodes) (hr : r.op = .read) (hw : ans.writes = noWrites) :
    mayReturn (some (r, v)) ans oc = false := by
  have hnone : hasWritten r ans = false := by simp [hasWritten, hr, (writesAny_eq_false_iff _).2 hw]
  cases oc with
  | divideByZero | unaligned | illegal | unmappedData => simp [mayReturn, completes, hnone]
  | _ => exact absurd h (by decide)

/-! ## The refused returns -/

/-- A finished step is refused when its code names no outcome it may return. -/
theorem finishExec_refused {ready : Option (BusReq × Word)} {ans : ExecAnswer}
    (h : ∀ oc : OutcomeCode, oc.bits = ans.code → mayReturn ready ans oc = false) (s : State) :
    finishExec ready ans s = .error .execProtocolViolation := by
  unfold finishExec
  cases hd : decodeOutcome ans.code with
  | none => rfl
  | some oc => simp [h oc (bits_of_decodeOutcome hd)]

/-- A return that is not paired with the response is refused, unless it is a fault over writes (R146, U6). -/
theorem breachedReturn_refused {ans : ExecAnswer} {ret : ExecReturn} {oc : OutcomeCode}
    (h : oc.bits ∉ faultCodes ∨ ret.writes = noWrites) (s : State) :
    breachedReturn ans ret oc s = .error .execProtocolViolation := by
  have hno : (mayFault oc && writesAny ret.writes) = false := by
    rw [Bool.and_eq_false_iff, ← Bool.not_eq_true, mayFault_iff, writesAny_eq_false_iff]
    exact h
  simp [breachedReturn, hno]

/-- On Busy: another outcome than MEM_ACCESS_IN_PROGRESS, or a write before it (R147). -/
theorem waitedAccess_refused {ans : ExecAnswer} {ret : ExecReturn}
    (h : unpaired ret 0x1 ∨ (ret.code = 0x1 ∧ ret.writes ≠ noWrites)) (s : State) :
    waitedAccess ans ret s = .error .execProtocolViolation := by
  unfold waitedAccess
  cases hd : decodeOutcome ret.code with
  | none => rfl
  | some oc =>
    have hbits := bits_of_decodeOutcome hd
    have hwait : (oc = .memAccessInProgress && !writesAny ret.writes) = false := by
      rcases h with ⟨hne, -⟩ | ⟨-, hw⟩
      · have : oc ≠ .memAccessInProgress := fun e => hne (by rw [← hbits, e]; rfl)
        simp [this]
      · have := mt (writesAny_eq_false_iff ret.writes).1 hw
        simp [this]
    simp only [hwait]
    refine breachedReturn_refused ?_ s
    rw [hbits]
    rcases h with ⟨-, h⟩ | ⟨hc, -⟩
    · exact h
    · exact .inl (by rw [hc]; decide)

/-- On a faulting response: another outcome than the one paired with it (R147). -/
theorem faultedAccess_refused {ans : ExecAnswer} {ret : ExecReturn} {fault : OutcomeCode}
    (h : unpaired ret fault.bits) (x : Word) (s : State) :
    faultedAccess ans ret fault x s = .error .execProtocolViolation := by
  obtain ⟨hne, hb⟩ := h
  unfold faultedAccess
  cases hd : decodeOutcome ret.code with
  | none => rfl
  | some oc =>
    have hbits := bits_of_decodeOutcome hd
    have hoc : oc ≠ fault := fun e => hne (by rw [← hbits, e])
    simp only [hoc, if_false]
    exact breachedReturn_refused (hbits ▸ hb) s

/-! ## The refused calls -/

/-- A second poll, a second WritePC whatever the response, or other state touched (R144, U5). -/
theorem keepsToItsState_eq_false {ans : ExecAnswer}
    (h : 2 ≤ ans.polls.length ∨ 2 ≤ ans.writes.redirects.length ∨ 2 ≤ ans.onBusy.writes.redirects.length ∨
      2 ≤ ans.onUnaligned.writes.redirects.length ∨ 2 ≤ ans.onUnmapped.writes.redirects.length ∨
      ans.touchesOther = true) : keepsToItsState ans = false := by
  rw [← Bool.not_eq_true]
  intro hk
  simp only [keepsToItsState, Bool.and_eq_true, decide_eq_true_eq, Bool.not_eq_true'] at hk
  obtain ⟨⟨⟨⟨⟨hp, hw⟩, hb⟩, hu⟩, hm⟩, ht⟩ := hk
  simp only [ht, Bool.false_eq_true, or_false] at h
  omega

/-- An access of its own in flight that is not polled, by an answer that is no fault over writes (R147). -/
theorem pollsOn_eq_false {acc : AccessState} {ans : ExecAnswer} (hp : ans.polls = [])
    (ha : ∃ cls n r, acc = .pending cls n r) (h : ans.code ∉ faultCodes ∨ ans.writes = noWrites) :
    pollsOn acc ans = false := by
  obtain ⟨cls, n, r, rfl⟩ := ha
  have hno : (codeIs mayFault ans && writesAny ans.writes) = false := by
    rw [Bool.and_eq_false_iff, writesAny_eq_false_iff]
    refine h.imp_left fun hc => ?_
    unfold codeIs
    cases hd : decodeOutcome ans.code with
    | none => rfl
    | some oc =>
      rw [← bits_of_decodeOutcome hd, ← mayFault_iff, Bool.not_eq_true] at hc
      exact hc
  simp [pollsOn, hp, hno]

/-- An answer whose calls break the contract is refused (R144, R147). -/
theorem runAnswer_refused {ans : ExecAnswer} {done : Word → ExecAnswer} {s : State}
    (h : keepsToItsState ans = false ∨ pollsOn s.acc ans = false) :
    runAnswer ans done s = .error .execProtocolViolation := by
  have hno : (keepsToItsState ans && pollsOn s.acc ans) = false := Bool.and_eq_false_iff.2 h
  simp [runAnswer, hno]

/-- An answer that makes no poll is refused for the outcome it returns, if not for its calls. -/
theorem runAnswer_refused_alone {ans : ExecAnswer} {done : Word → ExecAnswer} {s : State} (hp : ans.polls = [])
    (h : ∀ oc : OutcomeCode, oc.bits = ans.code → mayReturn none ans oc = false) :
    runAnswer ans done s = .error .execProtocolViolation := by
  simp [runAnswer, hp, finishExec_refused h]

/-- The clock of an External instruction whose step is refused. -/
theorem exec_external_of_error {a w : Word} {s : State} {e : Refusal} (h : stepExternal a w s = .error e) :
    exec (.external a w) s = .refused e := by
  rw [exec_external, h]
  rfl

/-! ## The poll that is met with a breach -/

/-- The poll below the latency is Busy. -/
theorem pollAndRecord_busy {r : BusReq} {s : State} {cls : AccessClass} {n : Nat} (h : nextPollIs s r cls n)
    (hl : n < latency s.cfg cls r.op) :
    pollAndRecord r s = .ok (.busy, { s with acc := .pending cls n r, busResp := some .busy }) := by
  simp only [pollAndRecord, busAccess_of_next h, pollAt_below hl]

/-- An access to a class that does not fault completes with Ready (R80, R81). -/
theorem complete_ready {cls : AccessClass} (r : BusReq) (s : State) (hu : cls ≠ .unaligned) (hm : cls ≠ .unmapped) :
    ∃ v, (complete cls r s).1 = .ready v := by
  cases cls with
  | unaligned => exact absurd rfl hu
  | unmapped => exact absurd rfl hm
  | localBus | peripheralBus | device d =>
    unfold complete
    cases r.op <;> exact ⟨_, rfl⟩

/-! ## The obligation -/

/-- Settles O40: a breach of the calls is refused before the step, one of the outcome by what follows the response. -/
theorem listedContractBreachesAreRefused : Obligations.ListedContractBreachesAreRefused := by
  unfold Obligations.ListedContractBreachesAreRefused
  intro s a w ans rest hq
  refine ⟨fun h => exec_external_of_error ?_, fun r cls n hin hp hr hn h => exec_external_of_error ?_⟩
  · rw [stepExternal_of_queue hq]
    rcases h with h | h | h | h | h | h | ⟨hp, ha, hb⟩ | ⟨hp, hb⟩
    iterate 6
      exact runAnswer_refused (.inl (keepsToItsState_eq_false (by simp only [h, true_or, or_true])))
    · exact runAnswer_refused (.inr (pollsOn_eq_false hp ha hb))
    · refine runAnswer_refused_alone hp fun oc hoc => ?_
      rw [← hoc] at hb
      rcases hb with hb | ⟨hb, hw⟩
      · exact mayReturn_of_forbidden hb
      · exact mayReturn_of_branch hb hw
  · have hk := keepsToItsState_of_withinR144 hin (by simp [hp])
    have hn' : nextPollIs { s with execQ := rest } r cls n := hn
    rcases h with ⟨hl, hb⟩ | ⟨hl, rfl, hb⟩ | ⟨hl, rfl, hb⟩ | ⟨hl, hu, hm, hb⟩
    · rw [stepExternal_poll hq hk hp hr (pollAndRecord_busy hn' hl)]
      exact waitedAccess_refused hb _
    · rw [stepExternal_poll hq hk hp hr (pollAndRecord_last hn' hl)]
      exact faultedAccess_refused hb _ _
    · rw [stepExternal_poll hq hk hp hr (pollAndRecord_last hn' hl)]
      exact faultedAccess_refused hb _ _
    · obtain ⟨v, hv⟩ := complete_ready r { s with execQ := rest, acc := .idle } hu hm
      rw [stepExternal_poll hq hk hp hr (pollAndRecord_last hn' hl)]
      simp only [hv, afterPoll]
      refine finishExec_refused (fun oc hoc => ?_) _
      rw [← hoc] at hb
      rcases hb with hb | ⟨hb, hw⟩ | ⟨hb, hop, hw⟩
      · exact mayReturn_of_forbidden hb
      · exact mayReturn_of_branch hb hw
      · exact mayReturn_of_unwritten_fault hb hop hw

end Sys2Proof.Machine
end

section
/-!
PROOFS. The slot variants, clock by clock: the markers, the access that is not ready, a fault an Exec reports over its writes,
what an External instruction leaves alone, and that a block to which nothing is given from outside always moves.
-/

namespace Sys2Proof.Machine

open Sys2Proof.Claims

/-! ## The clock that reports a fault -/

/-- What `faultsOver` asks is the transition of the fault, imm_in_flight cleared by the step that reports it (R253, R257). -/
theorem faultsOver_faultCycle (irq : Bool) (u : State) {oc : OutcomeCode} (hm : mayFault oc = true) (info : Word) :
    faultsOver irq u oc.bits info
      (.next (answer (.status .normal) (faultCycle irq oc info { u with immInFlight := false }))) := by
  refine ⟨fun hee => ?_, fun hee => ?_⟩
  · rw [faultCycle_taken, exceptionEntry_eq]
    · cases oc with
      | divideByZero | unaligned | illegal | unmappedData => rfl
      | _ => cases hm
    · exact hee
  · rw [faultCycle_masked]
    · exact goesOnAsNormal_normalCycle irq _
    · exact hee

/-- A clock whose step reports a fault of Exec makes the transition of the fault and returns NORMAL (R172, R182, R251). -/
theorem finishCycle_of_fault (irq : Bool) {oc : OutcomeCode} (hm : mayFault oc = true) (info : Word) (s : State) :
    finishCycle irq (.ok (oc, info, s)) = .next (answer (.status .normal) (faultCycle irq oc info s)) := by
  cases oc with
  | divideByZero | unaligned | illegal | unmappedData => rfl
  | _ => cases hm

/-- The writes of a step that reports a fault clear imm_in_flight (R34, R148; log 7). -/
theorem execWrites_of_fault (ans : ExecAnswer) {oc : OutcomeCode} (hm : mayFault oc = true) (ws : ExecWrites Word)
    (s : State) : execWrites ans oc ws s = { applyWrites ws s with immInFlight := false } := by
  have hne : oc ≠ .normal := by
    rintro rfl
    cases hm
  have himm : immAfter ans oc = false := by simp [immAfter, hne]
  rw [execWrites, himm]

/-- The clock of an External instruction whose step reports a fault over the writes `ws` (R146, R172). -/
theorem faultsOver_of_step {a w : Word} {s v : State} {ans : ExecAnswer} {oc : OutcomeCode} {info : Word}
    {ws : ExecWrites Word} (hm : mayFault oc = true)
    (h : stepExternal a w s = .ok (oc, info, execWrites ans oc ws v)) :
    faultsOver s.irq (applyWrites ws v) oc.bits info (exec (.external a w) s) := by
  rw [exec_external, h, execWrites_of_fault ans hm, finishCycle_of_fault s.irq hm]
  exact faultsOver_faultCycle s.irq _ hm info

/-- A fault code names a fault Exec may report (R114, R145). -/
theorem exists_mayFault_of_code {c : BitVec 4} (h : c ∈ faultCodes) :
    ∃ oc : OutcomeCode, oc.bits = c ∧ decodeOutcome c = some oc ∧ mayFault oc = true := by
  simp only [faultCodes, List.mem_cons, List.not_mem_nil, or_false] at h
  rcases h with rfl | rfl | rfl | rfl <;> exact ⟨_, rfl, rfl, rfl⟩

/-! ## Faults over writes, by the response -/

theorem writesAny_of_ne_noWrites {V : Type} {w : ExecWrites V} (h : w ≠ noWrites) : writesAny w = true := by
  rw [← Bool.not_eq_false, writesAny_eq_false_iff]
  exact h

/-- A step that finishes with a fault runs when it made no access, or has written something (R146, U6). -/
theorem finishExec_of_fault {ready : Option (BusReq × Word)} {ans : ExecAnswer} {oc : OutcomeCode}
    (hd : decodeOutcome ans.code = some oc) (hm : mayFault oc = true)
    (hw : ∀ r v, ready = some (r, v) → r.op = .write ∨ ans.writes ≠ noWrites) (s : State) :
    finishExec ready ans s =
      .ok (oc, ans.info, execWrites ans oc (resolveWrites (deliveredWord ready) ans.writes) s) := by
  have hret : mayReturn ready ans oc = true := by
    cases ready with
    | none => simp [mayReturn, hm]
    | some x =>
      obtain ⟨r, v⟩ := x
      have hwritten : hasWritten r ans = true := by
        rcases hw r v rfl with h | h
        · simp [hasWritten, h]
        · simp [hasWritten, writesAny_of_ne_noWrites h]
      simp [mayReturn, hm, hwritten]
  simp [finishExec, hd, hret]

/-- An answer with no poll that reports a fault runs, unless it leaves its own access with nothing written (R147, log 5). -/
theorem pollsOn_of_fault {acc : AccessState} {ans : ExecAnswer} {oc : OutcomeCode}
    (hd : decodeOutcome ans.code = some oc) (hm : mayFault oc = true)
    (h : (∀ cls n r, acc ≠ .pending cls n r) ∨ ans.writes ≠ noWrites) : pollsOn acc ans = true := by
  cases acc with
  | idle | left cls n r => rfl
  | pending cls n r =>
    rcases h with h | h
    · exact absurd rfl (h cls n r)
    · simp [pollsOn, codeIs, hd, hm, writesAny_of_ne_noWrites h]

/-- A fault over writes that is not paired with the response runs, and leaves the access in flight (R146, U6, log 20). -/
theorem breachedReturn_of_fault {ans : ExecAnswer} {ret : ExecReturn} {oc : OutcomeCode} (hm : mayFault oc = true)
    (hw : ret.writes ≠ noWrites) (s : State) :
    breachedReturn ans ret oc s = .ok (oc, ret.info, execWrites ans oc ret.writes (leaveAccess s)) := by
  simp [breachedReturn, hm, writesAny_of_ne_noWrites hw]

/-- A fault over writes on Busy runs (R146, U6). -/
theorem waitedAccess_of_fault {ans : ExecAnswer} {ret : ExecReturn} {oc : OutcomeCode}
    (hd : decodeOutcome ret.code = some oc) (hm : mayFault oc = true) (hw : ret.writes ≠ noWrites) (s : State) :
    waitedAccess ans ret s = .ok (oc, ret.info, execWrites ans oc ret.writes (leaveAccess s)) := by
  have hne : oc ≠ .memAccessInProgress := (mayFault_ne hm).1
  simp [waitedAccess, hd, hne, breachedReturn_of_fault hm hw]

/-- A fault over writes on a faulting response runs: the one R147 pairs with it with the target address, another with its own
info word (R146, U6). -/
theorem faultedAccess_of_fault {ans : ExecAnswer} {ret : ExecReturn} {fault oc : OutcomeCode}
    (hd : decodeOutcome ret.code = some oc) (hm : mayFault oc = true) (hw : ret.writes ≠ noWrites) (x : Word) {s : State}
    (ha : s.acc = .idle) :
    faultedAccess ans ret fault x s =
      .ok (oc, if ret.code = fault.bits then x else ret.info, execWrites ans oc ret.writes s) := by
  have hbits := bits_of_decodeOutcome hd
  by_cases he : oc = fault
  · subst he
    simp [faultedAccess, hd, hbits]
  · have hcode : ret.code ≠ fault.bits := fun e =>
      he (Option.some.inj (hd.symm.trans (e ▸ decodeOutcome_bits fault)))
    simp [faultedAccess, hd, he, hcode, breachedReturn_of_fault hm hw, leaveAccess_of_idle ha]

/-- The reporting poll of a faulting access answers the fault and takes no action (R78, R79, R82). -/
theorem pollAndRecord_fault {r : BusReq} {s : State} {cls : AccessClass} {n : Nat} {resp : BusResp}
    (h : nextPollIs s r cls n) (hl : latency s.cfg cls r.op ≤ n)
    (hf : (cls = .unaligned ∧ resp = .unaligned r.addr) ∨ (cls = .unmapped ∧ resp = .unmapped r.addr)) :
    pollAndRecord r s = .ok (resp, { s with acc := .idle, busResp := some resp }) := by
  rw [pollAndRecord_last h hl, complete_fault hf]

/-- The step of an External instruction that makes no poll and reports a fault: over its writes, its own access left in
flight (R146, log 20). -/
theorem stepExternal_fault_alone {a w : Word} {s : State} {ans : ExecAnswer} {rest : List ExecAnswer} {oc : OutcomeCode}
    (hq : s.execQ = ans :: rest) (hin : withinR144 ans) (hp : ans.polls = [])
    (h : (∀ cls n r, s.acc ≠ .pending cls n r) ∨ ans.writes ≠ noWrites)
    (hd : decodeOutcome ans.code = some oc) (hm : mayFault oc = true) :
    stepExternal a w s =
      .ok (oc, ans.info, execWrites ans oc (resolveWrites 0 ans.writes)
        { s with execQ := rest, acc := s.acc.leave }) := by
  have hk := keepsToItsState_of_withinR144 hin (by simp [hp])
  have hfin := finishExec_of_fault (ready := none) hd hm (by simp) (leaveAccess { s with execQ := rest })
  simp only [stepExternal_of_queue hq, runAnswer, hk, pollsOn_of_fault hd hm h, Bool.and_self, if_true, hp]
  exact hfin

/-! ## What an External instruction leaves alone (R144) -/

/-- No slot movement changes the marks, the ports, storage, the Access State or the record of device calls. -/
theorem moved_frame {irq : Bool} {oc : OutcomeCode} {info : Word} {s t : State} (m : Moved irq oc info s t) :
    t.breakMarks = s.breakMarks ∧ t.exitMarks = s.exitMarks ∧ t.port = s.port ∧ t.irq = s.irq ∧ t.mem = s.mem ∧
      t.acc = s.acc ∧ t.devCalls = s.devCalls := by
  cases m with
  | handler =>
    rw [exceptionEntry_eq]
    exact ⟨rfl, rfl, rfl, rfl, rfl, rfl, rfl⟩
  | _ => exact ⟨rfl, rfl, rfl, rfl, rfl, rfl, rfl⟩

/-- The step of an External instruction writes npc by WritePC alone, with the pc (R25). -/
theorem npc_stepExternal {a w : Word} {s t : State} {oc : OutcomeCode} {info : Word}
    (h : stepExternal a w s = .ok (oc, info, t)) : (t.pc = s.pc ∧ t.npc = s.npc) ∨ t.npc = t.pc + 4 := by
  have writes : ∀ (k : ExecAnswer) (ws : ExecWrites Word) (u : State), u.pc = s.pc → u.npc = s.npc →
      ((execWrites k oc ws u).pc = s.pc ∧ (execWrites k oc ws u).npc = s.npc) ∨
        (execWrites k oc ws u).npc = (execWrites k oc ws u).pc + 4 := by
    intro k ws u hpc hnpc
    rw [← hpc, ← hnpc]
    exact npc_applyWrites ws u
  obtain ⟨u, hu, hcase⟩ := stepExternal_cases h
  have hpc : u.pc = s.pc := by rw [hu]
  have hnpc : u.npc = s.npc := by rw [hu]
  obtain ⟨-, -, -, -, -, k, ws, rfl⟩ | ⟨p, r, resp, v, -, -, -, hb, hafter⟩ := hcase
  · exact writes k ws _ hpc hnpc
  · have hf := busAccess_frame hb
    have hvpc : v.pc = s.pc := (congrArg State.pc hf).trans hpc
    have hvnpc : v.npc = s.npc := (congrArg State.npc hf).trans hnpc
    obtain ⟨-, -, rfl⟩ | ⟨-, -, -, -, k, ws, rfl⟩ := hafter
    · exact .inl ⟨hvpc, hvnpc⟩
    · exact writes k ws _ hvpc hvnpc

/-- What a poll does to storage: nothing, or the store of a write, which is aligned (R74, R80). -/
theorem mem_busAccess {r : BusReq} {s t : State} {resp : BusResp} (h : busAccess r s = .ok (resp, t)) :
    t.mem = s.mem ∨ (r.op = .write ∧ t.mem = (memWrite s r.addr r.size r.wdata).mem ∧
      (accessHolds s = true → aligned r.addr r.size = true)) := by
  obtain ⟨cls, n, hn, ⟨-, -, rfl⟩ | ⟨-, hc⟩⟩ := busAccess_cases h
  · exact .inl rfl
  · obtain rfl : t = (complete cls r { s with acc := .idle }).2 := congrArg Prod.snd hc
    rcases complete_cases cls r { s with acc := .idle } with he | ⟨hcls, hop, he⟩ | ⟨d, -, he | he⟩
    · exact .inl (by rw [he])
    · refine .inr ⟨hop, by rw [he]; rfl, fun ha => ?_⟩
      exact (classify_storage ((class_of_poll ha hn).1 ▸ hcls)).1
    · exact .inl (by rw [he]; rfl)
    · exact .inl (by rw [he]; rfl)

/-- An Exec that makes no poll leaves storage, the access in flight and the devices alone. -/
theorem stepExternal_of_no_poll {a w : Word} {s t : State} {oc : OutcomeCode} {info : Word}
    (h : stepExternal a w s = .ok (oc, info, t)) (hp : (drawAnswer a w s).1.polls = []) :
    t.mem = s.mem ∧ t.acc.inFlight = s.acc.inFlight ∧ t.devCalls = s.devCalls := by
  obtain ⟨u, hu, ⟨-, -, -, -, -, k, ws, rfl⟩ | ⟨p, r, resp, v, hpoll, -⟩⟩ := stepExternal_cases h
  · have hf := execFrame_execWrites k oc ws (leaveAccess u)
    rw [hf.mem, hf.acc, hf.devCalls, hu]
    exact ⟨rfl, inFlight_leave s.acc, rfl⟩
  · rw [hp] at hpoll
    cases hpoll

/-- An Exec that polls changes storage by the store of its own write alone. -/
theorem mem_stepExternal {a w : Word} {s t : State} {oc : OutcomeCode} {info : Word} {p : RawPoll} {r : BusReq}
    (h : stepExternal a w s = .ok (oc, info, t)) (hp : (drawAnswer a w s).1.polls = [p]) (hr : pollReq p = some r) :
    t.mem = s.mem ∨ (r.op = .write ∧ t.mem = (memWrite s r.addr r.size r.wdata).mem ∧
      (accessHolds s = true → aligned r.addr r.size = true)) := by
  obtain ⟨u, hu, ⟨hpoll, -⟩ | ⟨p', r', resp, v, hpoll, hr', -, hb, hafter⟩⟩ := stepExternal_cases h
  · rw [hp] at hpoll
    cases hpoll
  · obtain rfl : p = p' := (List.cons.inj (hp.symm.trans hpoll)).1
    obtain rfl : r = r' := Option.some.inj (hr.symm.trans hr')
    have hmem : t.mem = v.mem := by
      obtain ⟨-, -, rfl⟩ | ⟨-, -, -, -, k, ws, rfl⟩ := hafter
      · rfl
      · exact (execFrame_execWrites k oc ws _).mem
    have hpolled := mem_busAccess hb
    rw [← hmem, hu] at hpolled
    exact hpolled

/-! ## The free-running block -/

/-- With no answer given from outside, every variant steps (R142, log 4). -/
theorem stepSlot_free (v : Slot) {s : State} (hq : s.execQ = []) (ha : accessHolds s = true) :
    ∃ x, stepSlot v s = .ok x := by
  cases v with
  | external a w =>
    refine stepExternal_free a w hq fun cls n r hf => ?_
    simp only [accessHolds, hf, Bool.and_eq_true, beq_iff_eq] at ha
    exact ha.1.1.1
  | empty | illegal a | unmapped a | intJump a | exit e | bp e => exact ⟨_, rfl⟩

/-! ## The obligations -/

/-- Settles O7: the free answer keeps the contract, and the invariant gives the access in flight a legal request. -/
theorem freeRunningBlockAlwaysSteps : Obligations.FreeRunningBlockAlwaysSteps := by
  unfold Obligations.FreeRunningBlockAlwaysSteps
  intro s hc hinv hport hq
  obtain ⟨hparts, -⟩ := (inv_iff s).1 hinv
  obtain ⟨x, hx⟩ := stepSlot_free s.slotE hq hparts.access
  rw [step_free hc hport, exec_toInstr, hx]
  exact ⟨_, rfl⟩

/-- Settles O38: on each response the step makes its writes and returns the fault, which the clock takes or masks. -/
theorem externalFaultEntersTheHandler : Obligations.ExternalFaultEntersTheHandler := by
  unfold Obligations.ExternalFaultEntersTheHandler
  intro s a w ans rest hq
  refine ⟨?_, ?_, ?_⟩
  · rintro u hin hp hacc hcode rfl
    obtain ⟨oc, hbits, hd, hm⟩ := exists_mayFault_of_code hcode
    rw [← hbits]
    exact faultsOver_of_step hm (stepExternal_fault_alone hq hin hp hacc hd hm)
  · rintro r cls n resp acc ret info u hin hp hr hn hresp hw hcode rfl
    have hk := keepsToItsState_of_withinR144 hin (by simp [hp])
    have hn' : nextPollIs { s with execQ := rest } r cls n := hn
    obtain ⟨oc, hbits, hd, hm⟩ := exists_mayFault_of_code hcode
    rw [← hbits]
    refine faultsOver_of_step (ans := ans) hm ?_
    rcases hresp with ⟨hl, rfl, rfl, rfl, rfl⟩ | ⟨hl, rfl, rfl, rfl, rfl, rfl⟩ | ⟨hl, rfl, rfl, rfl, rfl, rfl⟩
    · rw [stepExternal_poll hq hk hp hr (pollAndRecord_busy hn' hl)]
      exact waitedAccess_of_fault hd hm hw _
    · rw [stepExternal_poll hq hk hp hr (pollAndRecord_fault hn' hl (.inl ⟨rfl, rfl⟩))]
      exact faultedAccess_of_fault hd hm hw r.addr rfl
    · rw [stepExternal_poll hq hk hp hr (pollAndRecord_fault hn' hl (.inr ⟨rfl, rfl⟩))]
      exact faultedAccess_of_fault hd hm hw r.addr rfl
  · rintro r cls n d v u hin hp hr hn hl hcomp hw hcode rfl
    have hk := keepsToItsState_of_withinR144 hin (by simp [hp])
    have hb := pollAndRecord_last (s := { s with execQ := rest }) hn hl
    rw [hcomp] at hb
    obtain ⟨oc, hbits, hd, hm⟩ := exists_mayFault_of_code hcode
    rw [← hbits]
    refine faultsOver_of_step (ans := ans) hm ?_
    rw [stepExternal_poll hq hk hp hr hb]
    exact finishExec_of_fault hd hm (by rintro r' v' ⟨⟩; exact hw) _

/-- Settles O41: the step keeps to R144 and the transition moves the pipeline alone; a store touches its lane alone. -/
theorem externalKeepsToItsState : Obligations.ExternalKeepsToItsState := by
  unfold Obligations.ExternalKeepsToItsState
  refine fun s a w => ⟨fun oc info u h => ?_, fun t h => ?_⟩
  · obtain ⟨-, hF, hD, hE, hret, -⟩ := stepSlot_frame (v := .external a w) h
    exact ⟨hF, hD, hE, hret, npc_stepExternal h⟩
  · obtain ⟨oc, info, u, hu, rfl⟩ := finishCycle_eq_next h
    have hmoved := moved_transition s.irq oc info u
    obtain ⟨hbreak, hexit, hport, hirq, hmem, hacc, hdev⟩ := moved_frame hmoved
    obtain ⟨hcfg, -, -, -, -, hbreak', hexit', hport', hirq', -⟩ := stepSlot_frame (v := .external a w) hu
    refine ⟨(moved_cfg hmoved).trans hcfg, hbreak.trans hbreak', hexit.trans hexit', hport.trans hport',
      hirq.trans hirq', fun hp => ?_, fun p r hp hr => ?_⟩
    · obtain ⟨hmem', hacc', hdev'⟩ := stepExternal_of_no_poll hu hp
      exact ⟨hmem.trans hmem', (congrArg AccessState.inFlight hacc).trans hacc', hdev.trans hdev'⟩
    · rw [answer_mem, hmem]
      rcases mem_stepExternal hu hp hr with hsame | ⟨hop, hstore, haligned⟩
      · rw [hsame]
        exact ⟨fun _ => rfl, fun _ _ _ _ => rfl⟩
      · refine ⟨fun hread => (by rw [hop] at hread; cases hread), fun _ hinv b hb => ?_⟩
        obtain ⟨hparts, -⟩ := (inv_iff s).1 hinv
        obtain ⟨hwf, -⟩ := Bool.and_eq_true_iff.1 hparts.storage
        rw [hstore]
        exact readByte_memWrite_outside hwf (haligned hparts.access) r.wdata hb

/-- Settles O27: the marker's fault is taken, and exception entry is one update. -/
theorem markerFaultEntersTheHandler : Obligations.MarkerFaultEntersTheHandler := by
  unfold Obligations.MarkerFaultEntersTheHandler
  intro s a hee
  constructor
  · show Host.Outcome.next (answer (.status .normal) (faultCycle s.irq .illegal a s)) = _
    rw [faultCycle_taken hee, exceptionEntry_eq]
    rfl
  · show Host.Outcome.next (answer (.status .normal) (faultCycle s.irq .unmappedFetch a s)) = _
    rw [faultCycle_taken hee, exceptionEntry_eq]
    rfl

/-- Settles O29: the step redirects, and JUMP_TAKEN refills behind it. -/
theorem interruptJumpGoesToItsVector : Obligations.InterruptJumpGoesToItsVector := by
  unfold Obligations.InterruptJumpGoesToItsVector
  exact fun s a => rfl

/-- Settles O30: the outcome is STOP, whose transition retires alone. -/
theorem programExitStopsAndOnlyRetires : Obligations.ProgramExitStopsAndOnlyRetires := by
  unfold Obligations.ProgramExitStopsAndOnlyRetires
  exact fun s e => rfl

/-- Settles O35: the poll is Busy, the step waits with nothing written, and the stall holds slot.E. -/
theorem busyAccessStallsThePipeline : Obligations.BusyAccessStallsThePipeline := by
  unfold Obligations.BusyAccessStallsThePipeline
  intro s a w ans rest r wr cls n hq ha hn hl
  have hk := keepsToItsState_of_accessAnswer ha
  obtain ⟨hp, hr, -, ⟨hcode, hwrites⟩, -⟩ := ha
  have hstep : stepExternal a w s = .ok (.memAccessInProgress, 0,
      { s with execQ := rest, acc := .pending cls n r, busResp := some .busy }) := by
    rw [stepExternal_poll hq hk hp hr (pollAndRecord_busy (s := { s with execQ := rest }) hn hl)]
    simp only [afterPoll, waitedAccess, hcode, hwrites]
    rfl
  rw [exec_external, hstep]
  simp only [finishCycle, transition, stallCycle]
  split <;> rfl

end Sys2Proof.Machine
end

section
/-!
PROOFS. The fetch slot follows the pc (R186): in a clock by the transition of its outcome, and in every host command but one.
-/

namespace Sys2Proof.Machine

open Sys2Proof.Claims

/-! ## A clock -/

/-- R186 is about the address in slot.F and the pc alone. -/
theorem fetchSlotAtPc_congr {s t : State} (hF : programCounter t.slotF = programCounter s.slotF) (hpc : t.pc = s.pc) :
    fetchSlotAtPc t = fetchSlotAtPc s := by
  simp only [fetchSlotAtPc, hF, hpc]

/-- A slot that was just fetched at the pc meets R186 (R86, R141). -/
theorem fetchSlotAtPc_of_fetched {s t : State} (hF : t.slotF = fetch s t.pc) : fetchSlotAtPc t = true := by
  simp [fetchSlotAtPc, hF]

/-- Interrupt entry and the ordinary shift fetch at the new pc (R173, R260). -/
theorem fetchSlotAtPc_interruptOrAdvance (irq : Bool) (s : State) : fetchSlotAtPc (interruptOrAdvance irq s) = true := by
  unfold interruptOrAdvance
  split <;> exact fetchSlotAtPc_of_fetched (s := s) rfl

/-- Exception entry fetches at EXC_VECTOR, and a masked fault shifts (R253, R257). -/
theorem fetchSlotAtPc_faultCycle (irq : Bool) (oc : OutcomeCode) (info : Word) (s : State) :
    fetchSlotAtPc (faultCycle irq oc info s) = true := by
  unfold faultCycle
  split
  · rw [exceptionEntry_eq]
    exact fetchSlotAtPc_of_fetched (s := s) rfl
  · exact fetchSlotAtPc_interruptOrAdvance irq (retire s)

/-- A transition fetches at the new pc, but for those that may hold the fetch slot: MEM_ACCESS_IN_PROGRESS, BREAKPOINT and
STOP (R175 to R181). -/
theorem fetchSlotAtPc_transition (irq : Bool) {oc : OutcomeCode} (info : Word) {s : State}
    (h : oc = .memAccessInProgress ∨ oc = .breakpoint ∨ oc = .stop → fetchSlotAtPc s = true) :
    fetchSlotAtPc (transition irq oc info s) = true := by
  cases oc with
  | normal => exact fetchSlotAtPc_interruptOrAdvance irq (retire s)
  | empty => exact fetchSlotAtPc_interruptOrAdvance irq s
  | memAccessInProgress =>
    show fetchSlotAtPc (stallCycle s) = true
    unfold stallCycle
    split
    · exact fetchSlotAtPc_of_fetched (s := s) rfl
    · exact h (.inl rfl)
  | delaySlot | jumpTaken => exact fetchSlotAtPc_of_fetched (s := retire s) rfl
  | breakpoint => exact h (.inr (.inl rfl))
  | stop => exact h (.inr (.inr rfl))
  | divideByZero | unaligned | illegal | unmappedFetch | unmappedData => exact fetchSlotAtPc_faultCycle irq _ info s

/-- A clock keeps R186: a transition that holds the fetch slot follows a step that left the pc. -/
theorem fetchSlotAtPc_clock {v : Slot} {irq : Bool} {s t : State} (h : fetchSlotAtPc s = true)
    (hc : finishCycle irq (stepSlot v s) = .next t) : fetchSlotAtPc t = true := by
  obtain ⟨oc, info, u, hu, rfl⟩ := finishCycle_eq_next hc
  refine fetchSlotAtPc_transition irq info fun hhold => ?_
  obtain ⟨-, hF, -⟩ := stepSlot_frame hu
  rw [fetchSlotAtPc_congr (congrArg programCounter hF) (stepSlot_hold hu hhold).1]
  exact h

/-! ## Host commands -/

/-- A register write through the host port moves the pc only when it names it (R213). -/
theorem fetchSlotAtPc_setReg {r : RegSel} (hr : r ≠ .pc) (v : Word) (s : State) :
    fetchSlotAtPc (setReg r v s) = fetchSlotAtPc s := by
  cases r with
  | pc => exact absurd rfl hr
  | _ => rfl

theorem fetchSlotAtPc_regSet {n v : Word} {s t : State} (hn : n ≠ 32) (h : fetchSlotAtPc s = true)
    (ht : exec (.regSet n v) s = .next t) : fetchSlotAtPc t = true := by
  cases ht
  rw [fetchSlotAtPc_setReg (selectReg_ne_pc hn)]
  exact h

/-- The debug write of the pc fetches at it, and of any other register is REG_SET (R214). -/
theorem fetchSlotAtPc_dbgRegSet {n v : Word} {s t : State} (h : fetchSlotAtPc s = true)
    (ht : exec (.dbgRegSet n v) s = .next t) : fetchSlotAtPc t = true := by
  by_cases hn : n = 32
  · subst hn
    cases ht
    exact fetchSlotAtPc_of_fetched (s := writePC v s) rfl
  · rw [(debugPcWriteRefillsThePipeline s n v).2 hn] at ht
    exact fetchSlotAtPc_regSet hn h ht

/-- A change of the marks and of the copies in the slots keeps R186 when each copy keeps its address (R220 to R222). -/
theorem fetchSlotAtPc_mapSlots {f : Slot → Slot} (hf : ∀ v, programCounter (f v) = programCounter v) (s : State)
    (breaks exits : List Nat) :
    fetchSlotAtPc (mapSlots f { s with breakMarks := breaks, exitMarks := exits }) = fetchSlotAtPc s :=
  fetchSlotAtPc_congr (hf s.slotF) rfl

/-- A command on the marks of an address that is not a storage word fails (R220 to R222). -/
theorem exec_mark_of_not_fetchable {i : Instr} {a : Word} (hi : i = .bpInsert a ∨ i = .bpRemove a ∨ i = .exitMark a)
    {s : State} (hf : ¬fetchable s.cfg a = true) : exec i s = .next (failWith .badAddress s) := by
  rcases hi with rfl | rfl | rfl <;> simp [exec, execBpInsert, execBpRemove, execExitMark, hf]

/-- A command on the marks keeps R186: it fails, or changes the marks and the copies (R220 to R222). -/
theorem fetchSlotAtPc_mark {i : Instr} {a : Word} (hi : i = .bpInsert a ∨ i = .bpRemove a ∨ i = .exitMark a)
    {s t : State} (h : fetchSlotAtPc s = true) (ht : exec i s = .next t) : fetchSlotAtPc t = true := by
  by_cases hf : fetchable s.cfg a = true
  · rcases hi with rfl | rfl | rfl
    · by_cases ha : a.toNat ∈ s.breakMarks
      · cases (execBpInsert_marked hf ha).symm.trans ht
        exact h
      · cases (execBpInsert_unmarked hf ha).symm.trans ht
        exact (fetchSlotAtPc_mapSlots (programCounter_wrapBreak a) s _ s.exitMarks).trans h
    · by_cases ha : a.toNat ∈ s.breakMarks
      · cases (execBpRemove_marked hf ha).symm.trans ht
        exact (fetchSlotAtPc_mapSlots (programCounter_unwrapBreak a) s _ s.exitMarks).trans h
      · cases (execBpRemove_unmarked hf ha).symm.trans ht
        exact h
    · by_cases ha : a.toNat ∈ s.exitMarks
      · cases ((execExitMark_cases hf).1 ha).symm.trans ht
        exact h
      · cases ((execExitMark_cases hf).2 ha).symm.trans ht
        exact (fetchSlotAtPc_mapSlots (programCounter_wrapExit a) s s.breakMarks _).trans h
  · cases (exec_mark_of_not_fetchable hi hf).symm.trans ht
    exact h

/-- A debug access moves neither the fetch slot nor the pc (R89, R90). -/
theorem fetchSlotAtPc_dbgRead (a : Word) (size : Size) (s : State) :
    fetchSlotAtPc (dbgRead a size s) = fetchSlotAtPc s := by
  rw [dbgRead_frame]
  rfl

theorem fetchSlotAtPc_dbgWrite (a : Word) (size : Size) (v : Word) (s : State) :
    fetchSlotAtPc (dbgWrite a size v s) = fetchSlotAtPc s := by
  rw [dbgWrite_frame]
  rfl

/-- A command that only observes answers with its reply (R212, R223, R224). -/
theorem exec_observe {i : Instr} (hi : (∃ n, i = .regGet n) ∨ (∃ sel, i = .slotGet sel) ∨ i = .retiredGet) {s t : State}
    (h : exec i s = .next t) : ∃ r, t = answer r s := by
  rcases hi with ⟨n, rfl⟩ | ⟨sel, rfl⟩ | rfl
  · replace h : execRegGet n s = .next t := h
    unfold execRegGet at h
    split at h <;> cases h <;> exact ⟨_, rfl⟩
  · replace h : execSlotGet sel s = .next t := h
    unfold execSlotGet at h
    split at h <;> cases h <;> exact ⟨_, rfl⟩
  · cases h
    exact ⟨_, rfl⟩

theorem fetchSlotAtPc_observe {i : Instr} (hi : (∃ n, i = .regGet n) ∨ (∃ sel, i = .slotGet sel) ∨ i = .retiredGet)
    {s t : State} (h : fetchSlotAtPc s = true) (ht : exec i s = .next t) : fetchSlotAtPc t = true := by
  obtain ⟨r, rfl⟩ := exec_observe hi ht
  exact h

/-- Every host command but a normal-mode write of the pc keeps R186. -/
theorem fetchSlotAtPc_exec_host {i : Instr} {s t : State} (hp : i.port = .host) (hi : ∀ v, i ≠ .regSet 32 v)
    (h : fetchSlotAtPc s = true) (ht : exec i s = .next t) : fetchSlotAtPc t = true := by
  cases i with
  | cycle irq => exact fetchSlotAtPc_clock h ht
  | reset => cases ht; rfl
  | regSet n v => exact fetchSlotAtPc_regSet (fun hn => hi v (hn ▸ rfl)) h ht
  | dbgRegSet n v => exact fetchSlotAtPc_dbgRegSet h ht
  | memGetW a | memGetH a | memGetB a => cases ht; rw [fetchSlotAtPc_dbgRead]; exact h
  | memSetW a v | memSetH a v | memSetB a v => cases ht; rw [fetchSlotAtPc_dbgWrite]; exact h
  | bpInsert a => exact fetchSlotAtPc_mark (.inl rfl) h ht
  | bpRemove a => exact fetchSlotAtPc_mark (.inr (.inl rfl)) h ht
  | exitMark a => exact fetchSlotAtPc_mark (.inr (.inr rfl)) h ht
  | regGet n => exact fetchSlotAtPc_observe (.inl ⟨n, rfl⟩) h ht
  | slotGet sel => exact fetchSlotAtPc_observe (.inr (.inl ⟨sel, rfl⟩)) h ht
  | retiredGet => exact fetchSlotAtPc_observe (.inr (.inr rfl)) h ht
  | _ => cases hp

/-! ## The obligations -/

/-- Settles O5: a clock and every command but one leave slot.F fetched at the pc, and that one is `writesPcNormally`. -/
theorem everyStepKeepsFetchSlotAtPc : Obligations.EveryStepKeepsFetchSlotAtPc := by
  unfold Obligations.EveryStepKeepsFetchSlotAtPc
  intro s t h hw hs
  obtain ⟨-, ⟨-, u, hu, rfl⟩ | ⟨r, rest, i, hp, hd, hi⟩ | ⟨r, rest, e, -, -, rfl⟩⟩ := step_next_cases hs
  · rw [exec_toInstr] at hu
    have hkept : fetchSlotAtPc u = true := fetchSlotAtPc_clock h hu
    exact hkept
  · have hpc : ∀ v, i ≠ .regSet 32 v := by
      rintro v rfl
      simp [writesPcNormally, hp, hd] at hw
    exact fetchSlotAtPc_exec_host (s := { s with port := rest }) (port_of_decodeRequest hd) hpc h hi
  · exact h

end Sys2Proof.Machine
end

section
/-!
PROOFS. CYCLE is the clock of slot.E (R170 to R172): no step of the execute slot reads the interrupt input of the state, and no
transition does, which is given the level, so a clock is the same whatever input the state holds.
-/

namespace Sys2Proof.Machine

open Sys2Proof.Claims

/-- The state with this level on its interrupt input (R258). -/
def withIrq (b : Bool) (s : State) : State := { s with irq := b }

/-- What a step returns, with this level on the interrupt input of the state it leaves. -/
def StepResult.withIrq (b : Bool) (r : StepResult) : StepResult := r.map (Prod.map id (Prod.map id (Machine.withIrq b)))

/-! ## The poll -/

theorem complete_withIrq (b : Bool) (cls : AccessClass) (r : BusReq) (s : State) :
    complete cls r (withIrq b s) = Prod.map id (withIrq b) (complete cls r s) := by
  unfold complete
  cases cls <;> cases r.op <;> rfl

theorem pollAt_withIrq (b : Bool) (cls : AccessClass) (n : Nat) (r : BusReq) (s : State) :
    pollAt cls n r (withIrq b s) = Prod.map id (withIrq b) (pollAt cls n r s) := by
  by_cases hn : n < latency s.cfg cls r.op
  · rw [pollAt_below hn, pollAt_below (s := withIrq b s) hn]
    rfl
  · have hl := Nat.le_of_not_lt hn
    rw [pollAt_last hl, pollAt_last (s := withIrq b s) hl]
    exact complete_withIrq b cls r { s with acc := .idle }

theorem pollAndRecord_withIrq (b : Bool) (r : BusReq) (s : State) :
    pollAndRecord r (withIrq b s) = (pollAndRecord r s).map (Prod.map id (withIrq b)) := by
  have hacc : (withIrq b s).acc = s.acc := rfl
  unfold pollAndRecord busAccess
  rw [hacc]
  cases s.acc.inFlight with
  | none => simp only [pollAt_withIrq]; rfl
  | some x =>
    obtain ⟨cls, n, r'⟩ := x
    by_cases hr : r = r'
    · simp only [hr, if_true, pollAt_withIrq]; rfl
    · simp only [hr, if_false]; rfl

/-! ## The writes of Exec -/

theorem applyWrites_withIrq (b : Bool) (w : ExecWrites Word) (s : State) :
    applyWrites w (withIrq b s) = withIrq b (applyWrites w s) := by
  have hspecial : ∀ (t : State) (p : SpecialReg × Word),
      writeSpecial (withIrq b t) p.1 p.2 = withIrq b (writeSpecial t p.1 p.2) := by
    rintro t ⟨r, v⟩
    cases r <;> rfl
  simp only [applyWrites]
  rw [List.foldl_hom (withIrq b) (g₁ := fun t (p : BitVec 5 × Word) => writeGpr t p.1 p.2) fun _ _ => rfl,
    List.foldl_hom (withIrq b) (g₁ := fun t (p : SpecialReg × Word) => writeSpecial t p.1 p.2) hspecial]
  exact List.foldl_hom (withIrq b) fun _ _ => rfl

theorem execWrites_withIrq (b : Bool) (ans : ExecAnswer) (oc : OutcomeCode) (w : ExecWrites Word) (s : State) :
    execWrites ans oc w (withIrq b s) = withIrq b (execWrites ans oc w s) := by
  unfold execWrites
  rw [applyWrites_withIrq]
  rfl

theorem finishExec_withIrq (b : Bool) (ready : Option (BusReq × Word)) (ans : ExecAnswer) (s : State) :
    finishExec ready ans (withIrq b s) = (finishExec ready ans s).withIrq b := by
  unfold finishExec
  cases decodeOutcome ans.code with
  | none => rfl
  | some oc =>
    simp only [execWrites_withIrq]
    split <;> rfl

theorem breachedReturn_withIrq (b : Bool) (ans : ExecAnswer) (ret : ExecReturn) (oc : OutcomeCode) (s : State) :
    breachedReturn ans ret oc (withIrq b s) = (breachedReturn ans ret oc s).withIrq b := by
  have hleave : leaveAccess (withIrq b s) = withIrq b (leaveAccess s) := rfl
  unfold breachedReturn
  rw [hleave, execWrites_withIrq]
  split <;> rfl

theorem afterPoll_withIrq (b : Bool) (ans : ExecAnswer) (done : Word → ExecAnswer) (r : BusReq) (resp : BusResp)
    (s : State) : afterPoll ans done r resp (withIrq b s) = (afterPoll ans done r resp s).withIrq b := by
  have hfault : ∀ ret fault x,
      faultedAccess ans ret fault x (withIrq b s) = (faultedAccess ans ret fault x s).withIrq b := by
    intro ret fault x
    unfold faultedAccess
    cases decodeOutcome ret.code with
    | none => rfl
    | some oc =>
      simp only [execWrites_withIrq, breachedReturn_withIrq]
      split <;> rfl
  cases resp with
  | busy =>
    simp only [afterPoll, waitedAccess]
    cases decodeOutcome ans.onBusy.code with
    | none => rfl
    | some oc =>
      simp only [breachedReturn_withIrq]
      split <;> rfl
  | unaligned x => exact hfault _ _ x
  | unmapped x => exact hfault _ _ x
  | ready v => exact finishExec_withIrq b _ _ s

/-! ## The step -/

theorem runPoll_withIrq (b : Bool) (ans : ExecAnswer) (done : Word → ExecAnswer) (p : RawPoll) (s : State) :
    runPoll ans done p (withIrq b s) = (runPoll ans done p s).withIrq b := by
  unfold runPoll
  cases pollReq p with
  | none => rfl
  | some r =>
    simp only [pollAndRecord_withIrq]
    cases pollAndRecord r s with
    | error e => rfl
    | ok x => exact afterPoll_withIrq b ans done r x.1 x.2

theorem runAnswer_withIrq (b : Bool) (ans : ExecAnswer) (done : Word → ExecAnswer) (s : State) :
    runAnswer ans done (withIrq b s) = (runAnswer ans done s).withIrq b := by
  have hacc : (withIrq b s).acc = s.acc := rfl
  unfold runAnswer
  rw [hacc]
  split
  · cases ans.polls with
    | nil => exact finishExec_withIrq b none ans (leaveAccess s)
    | cons p rest => exact runPoll_withIrq b ans done p s
  · rfl

theorem stepSlot_withIrq (b : Bool) (v : Slot) (s : State) : stepSlot v (withIrq b s) = (stepSlot v s).withIrq b := by
  cases v with
  | external a w =>
    have hdraw : drawAnswer a w (withIrq b s) =
        ((drawAnswer a w s).1, (drawAnswer a w s).2.1, withIrq b (drawAnswer a w s).2.2) := by
      have hq : (withIrq b s).execQ = s.execQ := rfl
      unfold drawAnswer
      rw [hq]
      cases s.execQ <;> rfl
    show stepExternal a w (withIrq b s) = (stepExternal a w s).withIrq b
    rw [stepExternal_eq, hdraw]
    exact runAnswer_withIrq b _ _ _
  | _ => rfl

/-! ## The transition -/

theorem interruptOrAdvance_withIrq (b irq : Bool) (s : State) :
    interruptOrAdvance irq (withIrq b s) = withIrq b (interruptOrAdvance irq s) :=
  (apply_ite (withIrq b) (interruptCondition irq s = true) (interruptEntry s) (advance s)).symm

theorem faultCycle_withIrq (b irq : Bool) (oc : OutcomeCode) (info : Word) (s : State) :
    faultCycle irq oc info (withIrq b s) = withIrq b (faultCycle irq oc info s) := by
  have hE : faultEnabled (withIrq b s) = faultEnabled s := rfl
  unfold faultCycle
  rw [hE]
  split
  · simp only [exceptionEntry_eq]
    rfl
  · exact interruptOrAdvance_withIrq b irq (retire s)

theorem transition_withIrq (b irq : Bool) (oc : OutcomeCode) (info : Word) (s : State) :
    transition irq oc info (withIrq b s) = withIrq b (transition irq oc info s) := by
  cases oc with
  | normal => exact interruptOrAdvance_withIrq b irq (retire s)
  | empty => exact interruptOrAdvance_withIrq b irq s
  | memAccessInProgress =>
    exact (apply_ite (withIrq b) (s.slotD = .empty) (fetchSideAdvance s) s).symm
  | delaySlot | jumpTaken | breakpoint | stop => rfl
  | divideByZero | unaligned | illegal | unmappedFetch | unmappedData => exact faultCycle_withIrq b irq _ info s

/-- A clock given its level does the same whatever level the state holds (R170). -/
theorem clock_withIrq (b irq : Bool) (v : Slot) (s : State) :
    finishCycle irq (stepSlot v (withIrq b s)) = onNext (withIrq b) (finishCycle irq (stepSlot v s)) := by
  rw [stepSlot_withIrq]
  cases stepSlot v s with
  | error e => rfl
  | ok x =>
    show Host.Outcome.next (answer _ (transition irq x.1 x.2.1 (withIrq b x.2.2))) = _
    rw [transition_withIrq]
    rfl

/-! ## The obligations -/

/-- Settles O42: the clock at this level, run from the state that holds it, and run from `s` itself. -/
theorem cycleIsTheClockOfTheExecuteSlot : Obligations.CycleIsTheClockOfTheExecuteSlot := by
  unfold Obligations.CycleIsTheClockOfTheExecuteSlot
  intro s irq
  rw [exec_toInstr]
  exact clock_withIrq s.irq irq s.slotE { s with irq := irq }

end Sys2Proof.Machine
end

section
/-!
PROOFS. The interrupt's window (R184, R259): a transition puts the interrupt jump into slot.E only as interrupt entry, and a step
whose Exec writes no MSR leaves the enable as it was.
-/

namespace Sys2Proof.Machine

open Sys2Proof.Claims

/-! ## Installing the interrupt jump -/

/-- The outcomes whose transition checks for an interrupt, `u` being the state after the step (R175, R176, R257). -/
def ChecksInterrupt (oc : OutcomeCode) (u : State) : Prop :=
  oc = .normal ∨ oc = .empty ∨ (isFaultCode oc = true ∧ getFlag u.msr 8 = false)

/-- Interrupt entry is taken in this clock, `u` being the state after the step, and `t` is what it leaves (R259, R260). -/
structure TakesInterrupt (irq : Bool) (u t : State) : Prop where
  pending : irq = true
  enabled : getFlag u.msr 1 = true
  noPrefix : u.immInFlight = false
  holds : u.slotD ≠ .empty
  jump : t.slotE = .intJump (programCounter u.slotD)
  keepsPrefix : t.immInFlight = u.immInFlight

/-- The check puts the jump into slot.E only by interrupt entry, since decode holds none (R154, R259). -/
theorem takesInterrupt_of_interruptOrAdvance {irq : Bool} {u : State} {a : Word} (hD : notIntJump u.slotD = true)
    (h : (interruptOrAdvance irq u).slotE = .intJump a) : TakesInterrupt irq u (interruptOrAdvance irq u) := by
  unfold interruptOrAdvance at h ⊢
  cases hc : interruptCondition irq u with
  | false =>
    have hjump : u.slotD = .intJump a := by simpa [hc] using h
    rw [hjump] at hD
    cases hD
  | true =>
    simp only [interruptCondition, msrIE, Bool.and_eq_true, Bool.not_eq_true', beq_eq_false_iff_ne] at hc
    obtain ⟨⟨⟨hie, hirq⟩, himm⟩, hd⟩ := hc
    exact ⟨hirq, hie, himm, hd, rfl, rfl⟩

theorem takesInterrupt_of_normalCycle {irq : Bool} {u : State} {a : Word} (hD : notIntJump u.slotD = true)
    (h : (normalCycle irq u).slotE = .intJump a) : TakesInterrupt irq u (normalCycle irq u) := by
  obtain ⟨hirq, hie, himm, hd, hE, hkeep⟩ := takesInterrupt_of_interruptOrAdvance (u := retire u) hD h
  exact ⟨hirq, hie, himm, hd, hE, hkeep⟩

/-- A transition that has put the interrupt jump into slot.E is that of an outcome that checks, and took the interrupt (R175 to
R181). -/
theorem takesInterrupt_of_transition {irq : Bool} {oc : OutcomeCode} {info : Word} {u : State} {a : Word}
    (hD : notIntJump u.slotD = true) (hE : ∀ b, u.slotE ≠ .intJump b)
    (h : (transition irq oc info u).slotE = .intJump a) :
    ChecksInterrupt oc u ∧ TakesInterrupt irq u (transition irq oc info u) := by
  have hfault : ∀ f, isFaultCode f = true → (faultCycle irq f info u).slotE = .intJump a →
      ChecksInterrupt f u ∧ TakesInterrupt irq u (faultCycle irq f info u) := by
    intro f hf h
    cases hee : getFlag u.msr 8 with
    | true =>
      rw [faultCycle_taken hee, exceptionEntry_eq] at h
      cases h
    | false =>
      rw [faultCycle_masked hee] at h ⊢
      exact ⟨.inr (.inr ⟨hf, hee⟩), takesInterrupt_of_normalCycle hD h⟩
  cases oc with
  | normal => exact ⟨.inl rfl, takesInterrupt_of_normalCycle hD h⟩
  | empty => exact ⟨.inr (.inl rfl), takesInterrupt_of_interruptOrAdvance hD h⟩
  | memAccessInProgress =>
    replace h : (stallCycle u).slotE = .intJump a := h
    unfold stallCycle at h
    split at h <;> exact absurd h (hE a)
  | delaySlot =>
    replace h : u.slotD = .intJump a := h
    rw [h] at hD
    cases hD
  | jumpTaken => cases h
  | breakpoint | stop => exact absurd h (hE a)
  | divideByZero | unaligned | illegal | unmappedFetch | unmappedData => exact hfault _ rfl h

/-- A clock that leaves the interrupt jump in slot.E took the interrupt: the jump that it steps is flushed (R154, R179). -/
theorem takesInterrupt_of_clock {irq : Bool} {s u : State} {oc : OutcomeCode} {info a : Word}
    (hD : notIntJump s.slotD = true) (hu : stepSlot s.slotE s = .ok (oc, info, u))
    (h : (transition irq oc info u).slotE = .intJump a) :
    ChecksInterrupt oc u ∧ TakesInterrupt irq u (transition irq oc info u) := by
  obtain ⟨-, -, hslotD, hslotE, -⟩ := stepSlot_frame hu
  refine takesInterrupt_of_transition (hslotD ▸ hD) (fun b hb => ?_) h
  rw [← hslotE, hb] at hu
  cases hu
  cases h

/-! ## The step of an Exec that writes no MSR -/

/-- None of these writes names the MSR. -/
def NamesNoMsr {V : Type} (w : ExecWrites V) : Prop := ∀ p ∈ w.specials, p.1 ≠ .msr

theorem namesNoMsr_resolveWrites {w : ExecWrites ExecVal} (h : NamesNoMsr w) (d : Word) :
    NamesNoMsr (resolveWrites d w) := by
  intro p hp
  obtain ⟨q, hq, rfl⟩ := List.mem_map.1 hp
  exact h q hq

theorem msr_execWrites {w : ExecWrites Word} (h : NamesNoMsr w) (ans : ExecAnswer) (oc : OutcomeCode) (s : State) :
    (execWrites ans oc w s).msr = s.msr := msr_applyWrites h s

theorem msr_finishExec {ready : Option (BusReq × Word)} {ans : ExecAnswer} {s t : State} {oc : OutcomeCode} {info : Word}
    (hw : NamesNoMsr ans.writes) (h : finishExec ready ans s = .ok (oc, info, t)) : t.msr = s.msr := by
  obtain ⟨rfl, -⟩ := finishExec_ok h
  exact msr_execWrites (namesNoMsr_resolveWrites hw _) _ _ _

theorem msr_faultedAccess {ans : ExecAnswer} {ret : ExecReturn} {fault oc : OutcomeCode} {x info : Word} {s t : State}
    (hw : NamesNoMsr ret.writes) (h : faultedAccess ans ret fault x s = .ok (oc, info, t)) (hf : mayFault fault = true) :
    t.msr = s.msr := by
  obtain ⟨-, ⟨-, -, rfl⟩ | rfl⟩ := faultedAccess_ok hf h
  · exact msr_execWrites hw _ _ _
  · exact msr_execWrites hw _ _ _

/-- No write of this answer names the MSR, whatever its access answers. -/
structure AnswerNamesNoMsr (ans : ExecAnswer) : Prop where
  done : NamesNoMsr ans.writes
  onBusy : NamesNoMsr ans.onBusy.writes
  onUnaligned : NamesNoMsr ans.onUnaligned.writes
  onUnmapped : NamesNoMsr ans.onUnmapped.writes

theorem msr_afterPoll {ans : ExecAnswer} {r : BusReq} {resp : BusResp} {s t : State} {oc : OutcomeCode} {info : Word}
    (hw : AnswerNamesNoMsr ans) (h : afterPoll ans (fun _ => ans) r resp s = .ok (oc, info, t)) : t.msr = s.msr := by
  cases resp with
  | busy =>
    rcases waitedAccess_ok h with ⟨-, rfl⟩ | ⟨-, rfl⟩
    · rfl
    · exact msr_execWrites hw.onBusy _ _ _
  | unaligned x => exact msr_faultedAccess hw.onUnaligned h rfl
  | unmapped x => exact msr_faultedAccess hw.onUnmapped h rfl
  | ready v => exact msr_finishExec hw.done h

/-- An Exec given from outside that names no MSR leaves it (R144). -/
theorem msr_stepExternal {a w : Word} {s t : State} {ans : ExecAnswer} {rest : List ExecAnswer} {oc : OutcomeCode}
    {info : Word} (hq : s.execQ = ans :: rest) (hw : AnswerNamesNoMsr ans)
    (h : stepExternal a w s = .ok (oc, info, t)) : t.msr = s.msr := by
  rw [stepExternal_of_queue hq] at h
  rcases runAnswer_cases h with ⟨-, hfin⟩ | ⟨p, r, resp, u, -, -, hpoll, hafter⟩
  · exact (msr_finishExec hw.done hfin :)
  · have hmsr : u.msr = s.msr := by rw [busAccess_frame hpoll]
    exact (msr_afterPoll hw hafter).trans hmsr

/-- A marker's step leaves the enable and imm_in_flight (R150 to R155). -/
theorem msr_imm_of_marker {v : Slot} {s t : State} {oc : OutcomeCode} {info : Word} (hv : ∀ a w, v ≠ .external a w)
    (h : stepSlot v s = .ok (oc, info, t)) : t.msr = s.msr ∧ t.immInFlight = s.immInFlight := by
  rcases stepSlot_marker hv h with rfl | rfl
  · exact ⟨rfl, rfl⟩
  · exact ⟨rfl, rfl⟩

/-! ## The obligations -/

/-- Settles O44: the jump in slot.E is an interrupt just taken, and the step before the check wrote the MSR only if its Exec
named it. -/
theorem interruptOnlyInItsWindow : Obligations.InterruptOnlyInItsWindow := by
  unfold Obligations.InterruptOnlyInItsWindow
  intro s t irq a hD hclock hjump
  obtain ⟨oc, info, u, hu, rfl⟩ := finishCycle_eq_next hclock
  obtain ⟨-, -, hslotD, -⟩ := stepSlot_frame hu
  obtain ⟨hchecks, hirq, hie, himm, hd, hE, hkeep⟩ := takesInterrupt_of_clock hD hu hjump
  have ha : a = programCounter s.slotD := by
    rw [← hslotD]
    exact Slot.intJump.inj (hjump.symm.trans hE)
  refine ⟨hirq, hslotD ▸ hd, ha, hkeep.trans himm, ⟨oc, info, u, hu, hie, himm, hchecks⟩, fun hv => ?_, ?_⟩
  · obtain ⟨hmsr, hpre⟩ := msr_imm_of_marker hv hu
    exact ⟨hmsr ▸ hie, hpre ▸ himm⟩
  · intro b w ans rest hext hq hw hb hua hum
    rw [hext] at hu
    have hmsr : u.msr = s.msr := msr_stepExternal hq ⟨hw, hb, hua, hum⟩ hu
    exact hmsr ▸ hie

end Sys2Proof.Machine
end

section
/-!
PROOFS. The bubble, the redirects and the breakpoint (R173, R176, R178 to R180), CYCLE on a bubble, and the clocks from a marker's
fault to the handler (R187).
-/

namespace Sys2Proof.Machine

open Sys2Proof.Claims

/-! ## The bubble -/

/-- The clock of a bubble, at a given level, is the transition EMPTY of the state as it stands (R152, R176). -/
theorem clock_empty (irq : Bool) (s : State) :
    finishCycle irq (stepSlot .empty s) = .next (returnsNormal (interruptOrAdvance irq s)) := rfl

/-- A check that finds no interrupt to take makes the ordinary shift (R173, R259). -/
theorem interruptOrAdvance_of_noInterrupt {irq : Bool} {s : State} (h : noInterrupt irq s) :
    interruptOrAdvance irq s = shiftedIn s s :=
  if_neg (Bool.eq_false_iff.1 ((interruptCondition_eq_false_iff irq s).2 h))

/-! ## Redirects -/

/-- The step of an Exec that redirects to `tgt` and writes nothing else, and completes with a branch outcome (R25, R148). -/
theorem execWrites_redirect {ans : ExecAnswer} {oc : OutcomeCode} (tgt : Word) (s : State)
    (hw : ans.writes = ⟨[], [], [.const tgt]⟩) (hoc : oc ≠ .normal) :
    execWrites ans oc (resolveWrites 0 ans.writes) s = { s with pc := tgt, npc := tgt + 4, immInFlight := false } := by
  have himm : immAfter ans oc = false := by simp [immAfter, hoc]
  rw [execWrites, himm, hw]
  rfl

/-- The clock of an Exec that makes no access, redirects to `tgt` and returns DELAY_SLOT or JUMP_TAKEN (R149, R172). -/
theorem exec_external_redirect {a w tgt : Word} {s : State} {ans : ExecAnswer} {rest : List ExecAnswer} {oc : OutcomeCode}
    (hq : s.execQ = ans :: rest) (hn : noAccess s ans) (hw : ans.writes = ⟨[], [], [.const tgt]⟩)
    (hc : decodeOutcome ans.code = some oc) (hoc : oc = .delaySlot ∨ oc = .jumpTaken) :
    exec (.external a w) s =
      .next (returnsNormal (transition s.irq oc ans.info
        { s with execQ := rest, pc := tgt, npc := tgt + 4, immInFlight := false })) := by
  have hm : mayReturn none ans oc = true := by
    rcases hoc with rfl | rfl <;> simp [mayReturn, completes, hw]
  have hne : oc ≠ .normal := by
    rcases hoc with rfl | rfl <;> simp
  have hstatus : runStatus oc = .normal := by
    rcases hoc with rfl | rfl <;> rfl
  rw [exec_external_alone hq hn hc hm, execWrites_redirect tgt _ hw hne, hstatus]
  rfl

/-! ## The way to the handler -/

/-- A state that has just redirected to `v`: bubbles in slot.E and slot.D, the fetch at `v`, read in the state `s`. -/
structure RefilledAt (s : State) (v : Word) (t : State) : Prop where
  slotE : t.slotE = .empty
  slotD : t.slotD = .empty
  slotF : t.slotF = fetch s v
  npc : t.npc = v + 4
  retired : t.retired = s.retired
  fetches : ∀ a, fetch t a = fetch s a

/-- CYCLE on a marker whose fault is taken refills the pipeline at EXC_VECTOR (R253). -/
theorem cycle_marker_fault {s : State} {a : Word} (irq : Bool) (hee : getFlag s.msr 8 = true)
    (hE : s.slotE = .illegal a ∨ s.slotE = .unmapped a) :
    ∃ t, exec (.cycle irq) s = .next t ∧ RefilledAt s s.cfg.excVector t := by
  obtain ⟨hillegal, hunmapped⟩ := markerFaultEntersTheHandler { s with irq := irq } a hee
  have hclock := cycleIsTheClockOfTheExecuteSlot s irq
  rcases hE with hE | hE
  · have hinstr : s.slotE.toInstr = .illegal a := by rw [hE]; rfl
    rw [hinstr, hillegal] at hclock
    exact ⟨_, hclock, rfl, rfl, rfl, rfl, rfl, fun _ => rfl⟩
  · have hinstr : s.slotE.toInstr = .unmapped a := by rw [hE]; rfl
    rw [hinstr, hunmapped] at hclock
    exact ⟨_, hclock, rfl, rfl, rfl, rfl, rfl, fun _ => rfl⟩

/-! ## The obligations -/

/-- Settles O25: the bubble's step changes nothing, and the check finds no interrupt. -/
theorem bubbleMakesTheOrdinaryShift : Obligations.BubbleMakesTheOrdinaryShift := by
  unfold Obligations.BubbleMakesTheOrdinaryShift
  intro s h
  show finishCycle s.irq (stepSlot .empty s) = _
  rw [clock_empty, interruptOrAdvance_of_noInterrupt h]
  rfl

/-- Settles O26: the four conditions are those of the check. -/
theorem interruptEntryFromABubble : Obligations.InterruptEntryFromABubble := by
  unfold Obligations.InterruptEntryFromABubble
  intro s hirq hie himm hd
  have hcheck : interruptCondition s.irq s = true := by
    simp [interruptCondition, msrIE, hirq, hie, himm, hd]
  show finishCycle s.irq (stepSlot .empty s) = _
  rw [clock_empty, interruptOrAdvance, if_pos hcheck, interruptEntry_eq]
  rfl

/-- Settles O31: the outcome is BREAKPOINT, whose transition is the identity. -/
theorem breakpointChangesNothing : Obligations.BreakpointChangesNothing := by
  unfold Obligations.BreakpointChangesNothing
  exact fun s e => ⟨rfl, rfl⟩

/-- Settles O33: the redirect is the step's only write, and JUMP_TAKEN refills behind it with a bubble. -/
theorem jumpTakenFlushesAndRefetches : Obligations.JumpTakenFlushesAndRefetches := by
  unfold Obligations.JumpTakenFlushesAndRefetches
  intro s a w tgt ans rest hq hn hw hc
  exact exec_external_redirect hq hn hw (by rw [hc]; rfl) (.inr rfl)

/-- Settles O43: CYCLE is the bubble's clock, which shifts. -/
theorem cycleOnABubbleShifts : Obligations.CycleOnABubbleShifts := by
  unfold Obligations.CycleOnABubbleShifts
  intro s irq hE h
  show finishCycle irq (stepSlot s.slotE s) = _
  rw [hE, clock_empty, interruptOrAdvance_of_noInterrupt h]

/-- Settles O34: DELAY_SLOT refills behind the delay slot, and the bubble it leaves in slot.D keeps the interrupt out. -/
theorem delaySlotRunsBeforeTheTarget : Obligations.DelaySlotRunsBeforeTheTarget := by
  unfold Obligations.DelaySlotRunsBeforeTheTarget
  intro s a w tgt ans rest hq hn hw hc
  refine ⟨_, exec_external_redirect hq hn hw (by rw [hc]; rfl) (.inl rfl), rfl, fun irq u b hu _ hjump => ?_⟩
  obtain ⟨-, hholds, -⟩ := interruptOnlyInItsWindow _ u irq b rfl hu hjump
  exact hholds rfl

/-- Settles O47: the fault leaves two bubbles behind the handler's first fetch, and each shifts the pipeline once. -/
theorem handlerIsSteppedThreeClocksAfterTheFault : Obligations.HandlerIsSteppedThreeClocksAfterTheFault := by
  unfold Obligations.HandlerIsSteppedThreeClocksAfterTheFault
  intro s a hee hE
  obtain ⟨t, ht, hr⟩ := cycle_marker_fault false hee hE
  have hfault : repeatExec 1 (.cycle false) s = .next t := (repeatExec_succ (k := 0) rfl).trans ht
  have hshift := (repeatExec_succ hfault).trans (cycleOnABubbleShifts t false hr.slotE (.inl rfl))
  have hshift' := (repeatExec_succ hshift).trans (cycleOnABubbleShifts _ false hr.slotD (.inl rfl))
  have hv : s.cfg.excVector + 4 + 4 = s.cfg.excVector + 8 := by bv_omega
  refine ⟨_, hshift', ?_, ?_, ?_, ?_, ?_⟩
  · exact hr.slotF
  · exact (congrArg (fetch t) hr.npc).trans (hr.fetches _)
  · show fetch t (t.npc + 4) = _
    rw [hr.npc, hr.fetches, hv]
  · show t.npc + 4 = _
    rw [hr.npc, hv]
  · exact hr.retired

end Sys2Proof.Machine
end

section
/-!
PROOFS. The host commands: a stored word is what is fetched next, the wrappers that the three commands on marks put on and take
off, what is observed, and what a command that fails or answers keeps.
-/

namespace Sys2Proof.Machine

open Sys2Proof.Claims

/-! ## A word stored (R217) -/

/-- A word stored at an aligned address is the word that stands there (R69, R71). -/
theorem readWord_memWrite_word {s : State} (hm : Memory.wf s.mem = true) {a : Word} (ha : aligned a .word = true)
    (v : Word) : readWord (memWrite s a .word v).mem a.toNat = v := by
  rw [← memRead_word _ ha, memRead_memWrite hm ha]
  exact BitVec.and_allOnes

/-- A fetch after a word was stored at its address decodes that word, under the marks of before (R85, R217). -/
theorem fetch_memWrite_word {s : State} (hm : Memory.wf s.mem = true) {a : Word} (hf : fetchable s.cfg a = true)
    (v : Word) :
    fetch (memWrite s a .word v) a =
      wrapBody (s.breakMarks.contains a.toNat) (s.exitMarks.contains a.toNat) (decodeWord s.cfg a v) := by
  have ha : aligned a .word = true := (Bool.and_eq_true_iff.1 hf).1
  rw [fetch_of_fetchable (s := memWrite s a .word v) hf, entryAt, readWord_memWrite_word hm ha]
  rfl

/-! ## Wrappers put on and taken off (R220 to R222) -/

/-- A fetch depends, of the marks, on those of its own address alone (R84, R86). -/
theorem fetch_congr_at {s t : State} {b : Word} (hc : t.cfg = s.cfg) (hm : t.mem = s.mem)
    (hb : t.breakMarks.contains b.toNat = s.breakMarks.contains b.toNat)
    (he : t.exitMarks.contains b.toNat = s.exitMarks.contains b.toNat) : fetch t b = fetch s b := by
  simp only [fetch, entryAt, hc, hm, hb, he]

/-- A mark dropped at `a` stays at every other address. -/
theorem contains_dropMark_of_ne (l : List Nat) {a b : Word} (h : b ≠ a) :
    (dropMark l a.toNat).contains b.toNat = l.contains b.toNat := by
  rw [contains_dropMark, beq_false_of_ne (mt BitVec.eq_of_toNat_eq h), Bool.not_false, Bool.true_and]

/-- A break mark dropped at a marked, fetchable `a` leaves the content of the Breakpoint that stood there (R221). -/
theorem fetch_dropBreak_same {s t : State} {a : Word} (hc : t.cfg = s.cfg) (hm : t.mem = s.mem)
    (hb : t.breakMarks = dropMark s.breakMarks a.toNat) (he : t.exitMarks = s.exitMarks)
    (hf : fetchable s.cfg a = true) (ha : a.toNat ∈ s.breakMarks) :
    ∃ e, fetch s a = .bp e ∧ fetch t a = markedSlot e := by
  have hold : s.breakMarks.contains a.toNat = true := by simpa using ha
  have hnew : t.breakMarks.contains a.toNat = false := by rw [hb, contains_dropMark]; simp
  obtain ⟨e, hbp, hcontent⟩ := wrapBody_break (s.exitMarks.contains a.toNat) (decodeWord s.cfg a (readWord s.mem a.toNat))
  refine ⟨e, ?_, ?_⟩
  · rw [fetch_of_fetchable hf, entryAt, hold, hbp]
  · rw [fetch_of_fetchable (hc ▸ hf), entryAt, hnew, hc, hm, he, hcontent]

/-- Marking a decoded word's entry is giving it the exit mark, under the break mark it has (R84, R222). -/
theorem wrapExit_wrapBody (isBreak : Bool) (b : Body) :
    wrapExit b.pc (wrapBody isBreak false b) = wrapBody isBreak true b := by
  unfold wrapExit
  rw [if_pos (programCounter_wrapBody isBreak false b)]
  cases isBreak <;> cases b <;> rfl

/-- An entry with the exit mark is a ProgramExit, inside its Breakpoint if it has one (R84, R113). -/
theorem wrapBody_exit (isBreak : Bool) (b : Body) :
    wrapBody isBreak true b = .exit b ∨ wrapBody isBreak true b = .bp (.exit b) := by
  cases isBreak
  · exact .inl rfl
  · exact .inr rfl

/-- An exit mark added at an unmarked, fetchable `a` wraps the entry there in ProgramExit (R222). -/
theorem fetch_addExit_same {s t : State} {a : Word} (hc : t.cfg = s.cfg) (hm : t.mem = s.mem)
    (hb : t.breakMarks = s.breakMarks) (he : t.exitMarks = addMark s.exitMarks a.toNat)
    (hf : fetchable s.cfg a = true) (ha : a.toNat ∉ s.exitMarks) :
    (∃ e, fetch t a = .exit e ∨ fetch t a = .bp (.exit e)) ∧ fetch t a = wrapExit a (fetch s a) := by
  have hold : s.exitMarks.contains a.toNat = false := by simpa using ha
  have hnew : t.exitMarks.contains a.toNat = true := by rw [he, contains_addMark]; simp
  have hwrap := wrapExit_wrapBody (s.breakMarks.contains a.toNat) (decodeWord s.cfg a (readWord s.mem a.toNat))
  rw [decodeWord_pc] at hwrap
  rw [fetch_of_fetchable (hc ▸ hf), fetch_of_fetchable hf, entryAt, entryAt, hnew, hold, hb, hc, hm]
  exact ⟨⟨_, wrapBody_exit _ _⟩, hwrap.symm⟩

/-- A Breakpoint in a slot that agrees with the marks stands at a marked address (R84). -/
theorem mem_breakMarks_of_bp {s : State} {e : Marked} (h : slotMarksAgree s (.bp e) = true) :
    e.body.pc.toNat ∈ s.breakMarks := by
  rcases e with b | b <;> simp only [slotMarksAgree, wrappedAs, Bool.and_eq_true, beq_iff_eq] at h <;>
    simpa [Marked.body] using h.1

/-- Where no break mark stood, taking the wrapper off a copy undoes putting it on (R220, R221). -/
theorem unwrapBreak_wrapBreak {s : State} {a : Word} {v : Slot} (h : slotMarksAgree s v = true)
    (ha : a.toNat ∉ s.breakMarks) : unwrapBreak a (wrapBreak a v) = v := by
  cases v with
  | bp e =>
    have hne : e.body.pc ≠ a := fun hpc => ha (hpc ▸ mem_breakMarks_of_bp h)
    simp [wrapBreak, unwrapBreak, programCounter, hne]
  | external p w | illegal p =>
    by_cases hp : p = a <;> simp [wrapBreak, unwrapBreak, programCounter, hp, Marked.body, Body.pc, markedSlot, bodySlot]
  | exit e => by_cases hp : e.pc = a <;> simp [wrapBreak, unwrapBreak, programCounter, hp, Marked.body, markedSlot]
  | _ => simp [wrapBreak, unwrapBreak]

/-! ## What commands keep (R210) -/

@[simp] theorem setReg_retired (r : RegSel) (v : Word) (s : State) : (setReg r v s).retired = s.retired := by
  cases r <;> rfl

@[simp] theorem dbgRead_retired (a : Word) (size : Size) (s : State) : (dbgRead a size s).retired = s.retired := by
  rw [dbgRead_frame]

@[simp] theorem dbgWrite_retired (a : Word) (size : Size) (v : Word) (s : State) :
    (dbgWrite a size v s).retired = s.retired := by
  rw [dbgWrite_frame]

/-- A command on the marks answers, and keeps the counter: it fails, or changes the marks and the copies (R220 to R222). -/
theorem exec_mark_keeps_retired {i : Instr} {a : Word} (hi : i = .bpInsert a ∨ i = .bpRemove a ∨ i = .exitMark a)
    (s : State) : ∃ t, exec i s = .next t ∧ t.retired = s.retired := by
  by_cases hf : fetchable s.cfg a = true
  · rcases hi with rfl | rfl | rfl
    · by_cases ha : a.toNat ∈ s.breakMarks
      · exact ⟨_, execBpInsert_marked hf ha, rfl⟩
      · exact ⟨_, execBpInsert_unmarked hf ha, rfl⟩
    · by_cases ha : a.toNat ∈ s.breakMarks
      · exact ⟨_, execBpRemove_marked hf ha, rfl⟩
      · exact ⟨_, execBpRemove_unmarked hf ha, rfl⟩
    · by_cases ha : a.toNat ∈ s.exitMarks
      · exact ⟨_, (execExitMark_cases hf).1 ha, rfl⟩
      · exact ⟨_, (execExitMark_cases hf).2 ha, rfl⟩
  · exact ⟨_, exec_mark_of_not_fetchable hi hf, rfl⟩

/-- A register write that fails changes nothing: the register is read-only or there is none (R213). -/
theorem setReg_fail {r : RegSel} {v : Word} {s : State} {reason : FailReason}
    (h : (setReg r v s).reply = .fail reason) : setReg r v s = failWith reason s := by
  cases r <;> cases h <;> rfl

/-- A debug access is rejected, or it is aligned and at storage or of a device word (R89, R90). -/
theorem debugAccess_cases (c : Config) (a : Word) (size : Size) :
    DebugRejects c a size ∨
      (aligned a size = true ∧ (isStorage c a = true ∨ ∃ d, region c a = .device d ∧ size = .word)) := by
  cases ha : aligned a size with
  | false => exact .inl (.inl ha)
  | true =>
    cases hr : region c a with
    | none => exact .inl (.inr (.inl hr))
    | localBus => exact .inr ⟨rfl, .inl ((isStorage_iff_region c a).2 (.inl hr))⟩
    | peripheralBus => exact .inr ⟨rfl, .inl ((isStorage_iff_region c a).2 (.inr hr))⟩
    | device d =>
      by_cases hw : size = .word
      · exact .inr ⟨rfl, .inr ⟨d, rfl, hw⟩⟩
      · exact .inl (.inr (.inr ⟨d, hr, hw⟩))

/-- A debug read that fails changes nothing: only a rejected one fails (R89). -/
theorem dbgRead_fail {a : Word} {size : Size} {s : State} {reason : FailReason}
    (h : (dbgRead a size s).reply = .fail reason) : dbgRead a size s = failWith reason s := by
  rcases debugAccess_cases s.cfg a size with hrej | ⟨ha, hs | ⟨d, hr, rfl⟩⟩
  · rw [dbgRead_rejected hrej] at h ⊢
    cases h
    rfl
  · rw [dbgRead_storage ha hs] at h
    cases h
  · rw [dbgRead_device ha hr] at h
    cases h

/-- A debug write that fails changes nothing: only a rejected one fails (R90). -/
theorem dbgWrite_fail {a : Word} {size : Size} {v : Word} {s : State} {reason : FailReason}
    (h : (dbgWrite a size v s).reply = .fail reason) : dbgWrite a size v s = failWith reason s := by
  rcases debugAccess_cases s.cfg a size with hrej | ⟨ha, hs | ⟨d, hr, rfl⟩⟩
  · rw [dbgWrite_rejected hrej] at h ⊢
    cases h
    rfl
  · rw [dbgWrite_storage ha hs] at h
    cases h
  · rw [dbgWrite_device ha hr] at h
    cases h

/-- Of all that a step does, what ends in a failure changes nothing but the reply (R210). -/
theorem eq_failWith_of_ran {s t : State} {reason : FailReason} (hr : Ran s t) (h : t.reply = .fail reason) :
    t = failWith reason s := by
  cases hr with
  | clocked irq hf =>
    obtain ⟨oc, info, u, -, rfl⟩ := finishCycle_eq_next hf
    cases h
  | replied r =>
    cases h
    rfl
  | regSet r v => exact setReg_fail h
  | memGet a size => exact dbgRead_fail h
  | memSet a size v => exact dbgWrite_fail h
  | _ => cases h

/-! ## The obligations -/

/-- Settles O17: the store is the debug write of a word, and the word that stands at the address is then the value. -/
theorem wordStoreIsWhatTheNextFetchDecodes : Obligations.WordStoreIsWhatTheNextFetchDecodes := by
  unfold Obligations.WordStoreIsWhatTheNextFetchDecodes
  intro s a v hm
  have hexec : exec (.memSetW a v) s = .next (dbgWrite a .word v s) := exec_memSetOf .word a v s
  rw [hexec]
  refine ⟨fun hbad => ?_, fun d ha hr => ?_, fun ha hs => ?_⟩
  · rw [dbgWrite_rejected (hbad.imp_right .inl)]
    rfl
  · rw [dbgWrite_device ha hr]
    rfl
  · have hf : fetchable s.cfg a = true := Bool.and_eq_true_iff.2 ⟨ha, hs⟩
    exact ⟨_, congrArg _ (dbgWrite_storage ha hs), rfl, fetch_memWrite_word hm hf v⟩

/-- Settles O53: the set of marks is canonical, so the mark dropped is the one added, and no slot held a Breakpoint at the
address before. -/
theorem insertThenRemoveRestoresTheMachine : Obligations.InsertThenRemoveRestoresTheMachine := by
  unfold Obligations.InsertThenRemoveRestoresTheMachine
  intro s a hinv hf ha
  obtain ⟨hp, -⟩ := (inv_iff s).1 hinv
  have hrising : rising s.breakMarks = true := (Bool.and_eq_true_iff.1 hp.breaks).1
  refine ⟨execBpRemove_unmarked hf ha, _, execBpInsert_unmarked hf ha, ?_⟩
  refine (execBpRemove_marked ?_ ?_).trans ?_
  · exact hf
  · exact mem_addMark.2 (.inl rfl)
  · simp only [answer, mapSlots, dropMark_addMark hrising ha, unwrapBreak_wrapBreak hp.agreeF ha,
      unwrapBreak_wrapBreak hp.agreeD ha, unwrapBreak_wrapBreak hp.agreeE ha]

/-- Settles O54: the removal is one mark less and the copies unwrapped; the mark shows in the entry at its address alone. -/
theorem breakpointRemoveUnwrapsEntryAndCopies : Obligations.BreakpointRemoveUnwrapsEntryAndCopies := by
  unfold Obligations.BreakpointRemoveUnwrapsEntryAndCopies
  intro s a
  refine ⟨fun hf => exec_mark_of_not_fetchable (.inr (.inl rfl)) (by simp [hf]), fun hf ha => ?_⟩
  obtain ⟨e, hbp, he⟩ := fetch_dropBreak_same (s := s)
    (t := answer .ok (mapSlots (unwrapBreak a) { s with breakMarks := dropMark s.breakMarks a.toNat })) rfl rfl rfl rfl
    hf ha
  exact ⟨_, e, execBpRemove_marked hf ha, rfl, hbp, he, fun b hb =>
    fetch_congr_at rfl rfl (contains_dropMark_of_ne s.breakMarks hb) rfl⟩

/-- Settles O55: the command is one exit mark more and the copies wrapped; the mark shows in the entry at its address alone. -/
theorem exitMarkWrapsEntryAndCopies : Obligations.ExitMarkWrapsEntryAndCopies := by
  unfold Obligations.ExitMarkWrapsEntryAndCopies
  intro s a
  refine ⟨fun hf => exec_mark_of_not_fetchable (.inr (.inr rfl)) (by simp [hf]), fun hf => (execExitMark_cases hf).1,
    fun hf ha => ?_⟩
  obtain ⟨hexit, hwrap⟩ := fetch_addExit_same (s := s)
    (t := answer .ok (mapSlots (wrapExit a) { s with exitMarks := addMark s.exitMarks a.toNat })) rfl rfl rfl rfl hf ha
  exact ⟨_, (execExitMark_cases hf).2 ha, rfl, hexit, hwrap, fun b hb =>
    fetch_congr_at rfl rfl rfl (contains_addMark_of_ne s.exitMarks hb)⟩

/-- Settles O56: the selector's three values name the three slots, and a larger one none. -/
theorem slotGetReturnsTheEncoding : Obligations.SlotGetReturnsTheEncoding := by
  unfold Obligations.SlotGetReturnsTheEncoding
  intro s n
  refine ⟨?_, ?_, ?_, fun h => ?_⟩
  iterate 3
    rintro rfl
    rfl
  · have hnone : selectSlot n s = none := by
      unfold selectSlot
      iterate 3 rw [if_neg (by rintro rfl; exact absurd h (by decide))]
    show execSlotGet n s = _
    simp only [execSlotGet, hnone]
    rfl

/-- Settles O57: it is the command's one answer. -/
theorem retiredGetReturnsTheCounter : Obligations.RetiredGetReturnsTheCounter := by
  unfold Obligations.RetiredGetReturnsTheCounter
  exact fun s => rfl

/-- Settles O58: a code outside the table does not decode, and the step rejects the request. -/
theorem reservedCommandFailsAndChangesNothing : Obligations.ReservedCommandFailsAndChangesNothing := by
  unfold Obligations.ReservedCommandFailsAndChangesNothing
  exact fun s r rest hc hp hr => step_reject hc hp (decodeHost_of_code_notMem hr)

/-- Settles O59: a command does one of the things a step does, and what of these ends in a failure changes the reply alone. -/
theorem failingCommandChangesNothing : Obligations.FailingCommandChangesNothing := by
  unfold Obligations.FailingCommandChangesNothing
  exact fun s t i reason hp ht hf => eq_failWith_of_ran (ran_exec_host hp ht) hf

/-- Settles O60: each command but CYCLE answers in every state, and of these only RESET names the counter. -/
theorem commandsAlwaysAnswerAndKeepRetired : Obligations.CommandsAlwaysAnswerAndKeepRetired := by
  unfold Obligations.CommandsAlwaysAnswerAndKeepRetired
  intro s i hp hi
  have keeping : (∃ t, exec i s = .next t ∧ t.retired = s.retired) →
      ∃ t, exec i s = .next t ∧ (i ≠ .reset → t.retired = s.retired) :=
    fun ⟨t, ht, hk⟩ => ⟨t, ht, fun _ => hk⟩
  cases i with
  | cycle irq => exact absurd rfl (hi irq)
  | reset => exact ⟨_, rfl, fun h => absurd rfl h⟩
  | regGet n =>
    show ∃ t, execRegGet n s = .next t ∧ _
    unfold execRegGet
    split <;> exact ⟨_, rfl, fun _ => rfl⟩
  | slotGet sel =>
    show ∃ t, execSlotGet sel s = .next t ∧ _
    unfold execSlotGet
    split <;> exact ⟨_, rfl, fun _ => rfl⟩
  | retiredGet => exact ⟨_, rfl, fun _ => rfl⟩
  | regSet n v => exact ⟨_, rfl, fun _ => setReg_retired _ v s⟩
  | dbgRegSet n v =>
    obtain ⟨hpc, hother⟩ := debugPcWriteRefillsThePipeline s n v
    by_cases hn : n = 32
    · exact ⟨_, hpc hn, fun _ => rfl⟩
    · exact ⟨_, hother hn, fun _ => setReg_retired _ v s⟩
  | memGetW a | memGetH a | memGetB a => exact ⟨_, rfl, fun _ => dbgRead_retired a _ s⟩
  | memSetW a v | memSetH a v | memSetB a v => exact ⟨_, rfl, fun _ => dbgWrite_retired a _ v s⟩
  | bpInsert a => exact keeping (exec_mark_keeps_retired (.inl rfl) s)
  | bpRemove a => exact keeping (exec_mark_keeps_retired (.inr (.inl rfl)) s)
  | exitMark a => exact keeping (exec_mark_keeps_retired (.inr (.inr rfl)) s)
  | empty | external _ _ | illegal _ | unmapped _ | intjump _ | programExit _ | breakpoint _ => cases hp
  | busRb _ | busRh _ | busRw _ | busWb _ _ | busWh _ _ | busWw _ _ => cases hp

end Sys2Proof.Machine
end

section
/-!
PROOFS. A masked fault (R257): the fault cycle with EE clear is the transition NORMAL, of a marker and of an Exec that made no
access and no write.
-/

namespace Sys2Proof.Machine

open Sys2Proof.Claims

/-! ## The clock of a masked fault -/

/-- With EE clear the fault cycle goes on as NORMAL, whatever the fault and its info word (R257). -/
theorem goesOnAsNormal_faultCycle_masked {s : State} (irq : Bool) (oc : OutcomeCode) (info : Word)
    (h : getFlag s.msr 8 = false) :
    goesOnAsNormal irq s (.next (answer (.status .normal) (faultCycle irq oc info s))) := by
  rw [faultCycle_masked h]
  exact goesOnAsNormal_normalCycle irq s

/-- The step of an Exec that makes no access and no write and reports a fault leaves only the answer drawn and imm_in_flight
cleared (R34, R148; log 7). -/
theorem stepExternal_unwritten_fault {a w : Word} {s : State} {ans : ExecAnswer} {rest : List ExecAnswer} {oc : OutcomeCode}
    (hq : s.execQ = ans :: rest) (hn : noAccess s ans) (hw : ans.writes = noWrites)
    (hd : decodeOutcome ans.code = some oc) (hm : mayFault oc = true) :
    stepExternal a w s = .ok (oc, ans.info, { s with execQ := rest, immInFlight := false }) := by
  obtain ⟨hi, hp, hin⟩ := hn
  have hk := keepsToItsState_of_withinR144 hin (by simp [hp])
  rw [stepExternal_alone hq hk hp hi, finishExec_of_fault hd hm (by simp), execWrites_of_fault ans hm, hw]
  rfl

/-! ## The obligation -/

/-- Settles O28: a marker's step leaves the state as it is, an unwritten fault's clears imm_in_flight, and the fault cycle
that follows is masked. -/
theorem maskedFaultIsNormal : Obligations.MaskedFaultIsNormal := by
  unfold Obligations.MaskedFaultIsNormal
  intro s hee
  constructor
  · rintro i a (rfl | rfl)
    · exact goesOnAsNormal_faultCycle_masked s.irq .illegal a hee
    · exact goesOnAsNormal_faultCycle_masked s.irq .unmappedFetch a hee
  · intro a w ans rest hq hn hw hcode
    obtain ⟨oc, -, hd, hm⟩ := exists_mayFault_of_code hcode
    rw [exec_external, stepExternal_unwritten_fault hq hn hw hd hm, finishCycle_of_fault s.irq hm]
    exact goesOnAsNormal_faultCycle_masked s.irq oc ans.info hee

end Sys2Proof.Machine
end

section
/-!
PROOFS. RESET (R290, R291): the state it leaves is the update of the block, and a file of zeros reads 0 at every register.
-/

namespace Sys2Proof.Machine

/-- Every register of a file of zeros reads 0: register 0 by R21, another by its entry. -/
theorem readGpr_of_zeros {s : State} (h : s.x = Vector.replicate 32 0) (i : BitVec 5) : readGpr s i = 0 := by
  unfold readGpr
  split
  · rfl
  · rw [h, Vector.get_replicate]

/-- RESET answers OK over the reset block (R290). -/
theorem exec_reset (s : State) : exec .reset s = .next (answer .ok (resetBlock s)) := rfl

/-- Settles O48: the reset block is the update named, and its register file is all zeros. -/
theorem resetClearsTheRegisterFileAndSlots : Obligations.ResetClearsTheRegisterFileAndSlots := by
  unfold Obligations.ResetClearsTheRegisterFileAndSlots
  exact fun s => ⟨_, exec_reset s, readGpr_of_zeros (resetBlock_x s), rfl⟩

end Sys2Proof.Machine
end
